-- ==== Sys2Proof/Word.lean ====
section
/-!
DEFINITION. The widths of the engine's data (`00_scope.md` R7, `10_state.md` R19 to R24).
Everything is unsigned (`00_scope.md` section 6).
-/

namespace Sys2Proof

/-- One byte on the wire, one chip register (R7, R41). -/
abbrev Byte := BitVec 8

/-- A 16-bit operand latch, extended address or output resolution (R19, R40). -/
abbrev Word16 := BitVec 16

/-- A legal direct register index, 0x00 to 0x1F (R40, R63): five bits. -/
abbrev RegAddr := BitVec 5

/-- A sample coordinate, 12 bits (R23). -/
abbrev Coord := BitVec 12

/-- A 6-bit field: button mask or pressure (R23). -/
abbrev Field6 := BitVec 6

/-- The host's 36-bit command word `CW` (R69). -/
abbrev CommandWord := BitVec 36

end Sys2Proof
end

