-- ==== Sys2Proof/Config.lean ====
section
/-!
DEFINITION. The implementation parameters of `00_scope.md` R6 as one record with its constraints,
the reference set P0, the bus events of R9, and the chip oracle's free answers (R8) as opaque
constants.
-/

namespace Sys2Proof

/-- Bit order of the serial line; no rule reads it (R6, R42.4, D22). -/
inductive BitOrder where
  | msbFirst
  | lsbFirst
  deriving DecidableEq, Repr

/-- The named parameters of R6. Those marked "fixed" there have their value as a constraint
(`Params.Wf`); the source gives none to the others. -/
structure Params where
  /-- `READ_MASK`, OR'd into a read command byte. -/
  readMask : Byte
  /-- `WRITE_MASK`, OR'd into a write command byte. -/
  writeMask : Byte
  /-- `FILLER`, the value of every filler byte sent. -/
  filler : Byte
  /-- `RAP_ADDR_MAX`, the largest direct register index. -/
  rapAddrMax : Nat
  /-- `FEED_REG`, the direct register that holds the feed enable bit (R32, C9). -/
  feedReg : RegAddr
  /-- `FEED_EN_MASK`, the enable bit of `FEED_REG`. -/
  feedEnMask : Byte
  /-- `POLL_BOUND`, most reads of 0x1E one poll may make. -/
  pollBound : Nat
  /-- `SETTLE_TIME` in nanoseconds (the unit is the model's, log 20). -/
  settleTime : Nat
  /-- `ERA_RESTORE_FEED` (D8). -/
  eraRestoreFeed : Bool
  /-- `X_LOWER`, lower bound of the clip window in X. -/
  xLower : Coord
  /-- `X_UPPER`, upper bound of the clip window in X. -/
  xUpper : Coord
  /-- `Y_LOWER`, lower bound of the clip window in Y. -/
  yLower : Coord
  /-- `Y_UPPER`, upper bound of the clip window in Y. -/
  yUpper : Coord
  /-- `ZONE_SCALE`, divisor that turns a position into a zone index. -/
  zoneScale : Nat
  /-- `MAP_COLS`, columns of the hover map. -/
  mapCols : Nat
  /-- `MAP_ROWS`, rows of the hover map. -/
  mapRows : Nat
  /-- `ZHMAP[row][col]`, largest `Z` still hovering, row first (R130). -/
  zhMap : List (List Nat)
  /-- `MAX_COUNT`, largest count a read takes and size of `RB`. -/
  maxCount : Nat
  /-- `ATTEN_ADDR`, extended address of the attenuation register (R36). -/
  attenAddr : Word16
  /-- `EDGE_A_ADDR`, extended address of the first edge threshold (R36). -/
  edgeAAddr : Word16
  /-- `EDGE_B_ADDR`, extended address of the second edge threshold (R36). -/
  edgeBAddr : Word16
  /-- `EDGE_A_VAL`, written to `EDGE_A_ADDR`. -/
  edgeAVal : Byte
  /-- `EDGE_B_VAL`, written to `EDGE_B_ADDR`. -/
  edgeBVal : Byte
  /-- `INIT_GAIN`, the gain code `INIT` uses. -/
  initGain : Byte
  /-- `BASE_CFG`, the base configuration writes in order (R153). -/
  baseCfg : List (RegAddr × Byte)
  /-- `SCLK_HZ`; no rule reads it (D22). -/
  sclkHz : Nat
  /-- `SPI_MODE`; no rule reads it (D22). -/
  spiMode : Fin 4
  /-- `BIT_ORDER`; no rule reads it (D22). -/
  bitOrder : BitOrder
  /-- `SEL_ACTIVE_LEVEL`; no rule reads it (R26, D22). -/
  selActiveLevel : Bool
  deriving DecidableEq, Repr

/-- Exactly one bit of a byte is set (`FEED_EN_MASK`, R6). -/
abbrev oneHot (m : Byte) : Prop := m ≠ 0 ∧ m &&& (m - 1) = 0

/-- The constraints of R6's column "constraint", "fixed" among them. `MAX_COUNT` is 255 "unless a
model narrows it" (D17). -/
abbrev Params.Wf (p : Params) : Prop :=
  (p.readMask &&& 0x1F = 0 ∧ p.writeMask &&& 0x1F = 0 ∧ p.readMask ≠ p.writeMask) ∧
  oneHot p.feedEnMask ∧ 1 ≤ p.pollBound ∧ 0 < p.settleTime ∧
  (p.xLower.toNat < p.xUpper.toNat ∧ p.yLower.toNat < p.yUpper.toNat) ∧
  (1 ≤ p.zoneScale ∧ p.xUpper.toNat / p.zoneScale < p.mapCols ∧
    p.yUpper.toNat / p.zoneScale < p.mapRows) ∧
  (p.zhMap.length = p.mapRows ∧ ∀ row ∈ p.zhMap, row.length = p.mapCols) ∧
  (6 ≤ p.maxCount ∧ p.maxCount ≤ 255) ∧ p.initGain &&& 0x3F = 0 ∧
  (p.rapAddrMax = 0x1F ∧ p.feedReg = 0x04) ∧
  (p.attenAddr = 0x0187 ∧ p.edgeAAddr = 0x0149 ∧ p.edgeBAddr = 0x0168)

/-- A configuration: parameters that meet the constraints. "no run exists for a bad
configuration" (U9), so a bad one cannot be built (log 3). -/
structure Config extends Params where
  wf : toParams.Wf
  deriving DecidableEq, Repr

/-- The reference parameter set P0 of R6 (general knowledge, PRESUMED, log 2); `POLL_BOUND` has no
P0 value and is 4 here, one of the two the vectors use (DESIGN CHOICE, log 2). -/
def Params.p0 : Params where
  readMask := 0xA0
  writeMask := 0x80
  filler := 0xFC
  rapAddrMax := 0x1F
  feedReg := 0x04
  feedEnMask := 0x01
  pollBound := 4
  settleTime := 50000
  eraRestoreFeed := false
  xLower := 127
  xUpper := 1919
  yLower := 63
  yUpper := 1471
  zoneScale := 256
  mapCols := 8
  mapRows := 6
  zhMap :=
    [[0, 0, 0, 0, 0, 0, 0, 0],
     [0, 2, 3, 5, 5, 3, 2, 0],
     [0, 3, 5, 15, 15, 5, 2, 0],
     [0, 3, 5, 15, 15, 5, 3, 0],
     [0, 2, 3, 5, 5, 3, 2, 0],
     [0, 0, 0, 0, 0, 0, 0, 0]]
  maxCount := 255
  attenAddr := 0x0187
  edgeAAddr := 0x0149
  edgeBAddr := 0x0168
  edgeAVal := 0x04
  edgeBVal := 0x03
  initGain := 0x40
  baseCfg := [(0x03, 0x00), (0x05, 0x1F), (0x04, 0x03), (0x0A, 0x05)]
  sclkHz := 1000000
  spiMode := 1
  bitOrder := .msbFirst
  selActiveLevel := false

/-- P0 as a configuration. -/
def Config.p0 : Config := { Params.p0 with wf := by decide }

/-- A bus event, the engine's observable behaviour (R9 (a)). A failed exchange is shown as an event
of its own that carries what was sent (R81 step 2, log 5). -/
inductive BusEvent where
  /-- `SEL(1)` or `SEL(0)`. -/
  | sel (level : Bool)
  /-- `XCHG(out, in)`. -/
  | xchg (out inp : List Byte)
  /-- An exchange of `out` that failed (R80, R81). -/
  | xchgFailed (out : List Byte)
  /-- `DELAY(t)`, the settle wait. -/
  | delay (t : Nat)
  /-- `IND(b)`. -/
  | ind (level : Bool)
  deriving DecidableEq, Repr

/-- FREE VALUE (U4, log 4): the byte the chip clocks in, given every bus event so far and the bytes
sent in this exchange up to and with the one it answers (R80). -/
opaque Config.chipByte (history : List BusEvent) (sent : List Byte) : Byte

/-- FREE VALUE (U3, log 4): whether the exchange of `out` fails, given every bus event so far. -/
opaque Config.exchangeFails (history : List BusEvent) (out : List Byte) : Bool

/-- FREE VALUE (U16, log 6): the level of `DR` at a step, given every bus event so far. -/
opaque Config.dataReady (tick : Nat) (history : List BusEvent) : Bool

/-! The direct registers the sequences address by number, and the codes of 0x1E (R45, R65). -/

/-- Direct 0x02, the status register (R31). -/
def regStatus : RegAddr := 0x02
/-- Direct 0x12, first of the six bytes of the absolute-data block (R34). -/
def regAbsData : RegAddr := 0x12
/-- Direct 0x1B, the ERA data-staging register (R35). -/
def regEraData : RegAddr := 0x1B
/-- Direct 0x1C, high byte of the extended address (R35). -/
def regEraAddrHi : RegAddr := 0x1C
/-- Direct 0x1D, low byte of the extended address (R35). -/
def regEraAddrLo : RegAddr := 0x1D
/-- Direct 0x1E, the ERA control register (R35). -/
def regEraCtl : RegAddr := 0x1E
/-- ERA write trigger (R65). -/
def eraWriteCode : Byte := 0x02
/-- ERA read trigger (R65). -/
def eraReadCode : Byte := 0x05
/-- ERA completion (R65). -/
def eraDoneCode : Byte := 0x00

end Sys2Proof
end

