-- ==== Sys2Proof/Syntax.lean ====
section
/-!
DEFINITION. The instructions: one constructor for every row of the opcode table, and the three
forms a word of the table takes (`30_encoding.md` R61, R62, R65, R70).
-/

namespace Sys2Proof

/-- The instructions. A host command keeps both 16-bit operands whole, since acceptance latches
`CW[31:16]` and `CW[15:0]` whatever the command uses (R69). -/
inductive Instr where
  /-- `NOP` (R165). -/
  | nop (a b : Word16)
  /-- `RAP_RD address, count` (R91, R95): `a[6:0]`, `b[7:0]`. -/
  | rapRd (a b : Word16)
  /-- `RAP_WR address, value` (R92, R95): `a[6:0]`, `b[7:0]`. -/
  | rapWr (a b : Word16)
  /-- `ERA_RD eaddr, count` (R103, R105): `a`, `b[7:0]`. -/
  | eraRd (a b : Word16)
  /-- `ERA_WR eaddr, value` (R102, R105): `a`, `b[7:0]`. -/
  | eraWr (a b : Word16)
  /-- `CLR_FLAGS` (R115). -/
  | clrFlags (a b : Word16)
  /-- `SET_FEED enable` (R116): `b[0]`. -/
  | setFeed (a b : Word16)
  /-- `GET_ABS` (R125). -/
  | getAbs (a b : Word16)
  /-- `CLIP` (R133). -/
  | clip (a b : Word16)
  /-- `SCALE out_x_res, out_y_res` (R134): `a`, `b`. -/
  | scale (a b : Word16)
  /-- `CHK_HOVER` (R131). -/
  | chkHover (a b : Word16)
  /-- `SET_ATTEN gain_code` (R150): `b[7:0]`. -/
  | setAtten (a b : Word16)
  /-- `TUNE_EDGE` (R151). -/
  | tuneEdge (a b : Word16)
  /-- `INIT` (R152). -/
  | init (a b : Word16)
  /-- `SET_IND level` (R166): `b[0]`. -/
  | setInd (a b : Word16)
  /-- The reserved op 0xF (R72). -/
  | reservedF (a b : Word16)
  /-- The RAP read frame (R61) with `count` data bytes. -/
  | frameRapRead (address : RegAddr) (count : Nat)
  /-- The RAP write frame (R62). -/
  | frameRapWrite (address : RegAddr) (value : Byte)
  /-- The ERA code 0x02, written to 0x1E (R65). -/
  | eraCodeWrite
  /-- The ERA code 0x05, written to 0x1E (R65). -/
  | eraCodeRead
  /-- The ERA code 0x00, read from 0x1E (R65). -/
  | eraCodeDone
  deriving DecidableEq, Repr

/-- The forms an encoding of the table takes (column "format"). -/
inductive Encoded where
  /-- A host command word of 36 bits (R69). -/
  | command (cw : CommandWord)
  /-- A wire frame, first byte sent first (R60). -/
  | frame (bytes : List Byte)
  /-- A byte value at direct register 0x1E (R65). -/
  | eraCode (code : Byte)
  deriving DecidableEq, Repr

/-- The words of the table that are no host command: the engine's own sequences put them on the bus,
and the host has no way to (R60, R168). -/
inductive WireWord where
  /-- A wire frame (R60). -/
  | frame (bytes : List Byte)
  /-- A byte value at direct register 0x1E (R65). -/
  | eraCode (code : Byte)
  deriving DecidableEq, Repr

/-- A wire word as an encoding of the table. -/
def WireWord.encoded : WireWord → Encoded
  | .frame bytes => .frame bytes
  | .eraCode code => .eraCode code

end Sys2Proof
end

