-- ==== Sys2Proof/WellFormed.lean ====
section
/-!
DEFINITION. Which instructions have an encoding (`30_encoding.md` R61): a read frame carries at
most `MAX_COUNT` data bytes. A host command with an illegal operand is well formed: it has a command
word, and the engine refuses it with `IllegalCommand` when it runs (R72).
-/

namespace Sys2Proof

/-- `i` has an encoding under the parameters `p`. -/
def Instr.wellFormed (p : Params) : Instr → Bool
  | .nop _ _ => true
  | .rapRd _ _ => true
  | .rapWr _ _ => true
  | .eraRd _ _ => true
  | .eraWr _ _ => true
  | .clrFlags _ _ => true
  | .setFeed _ _ => true
  | .getAbs _ _ => true
  | .clip _ _ => true
  | .scale _ _ => true
  | .chkHover _ _ => true
  | .setAtten _ _ => true
  | .tuneEdge _ _ => true
  | .init _ _ => true
  | .setInd _ _ => true
  | .reservedF _ _ => true
  | .frameRapRead _ count => decide (count ≤ p.maxCount)
  | .frameRapWrite _ _ => true
  | .eraCodeWrite => true
  | .eraCodeRead => true
  | .eraCodeDone => true

end Sys2Proof
end

