-- ==== Sys2Proof/Decode.lean ====
section
/-!
DEFINITION. Decoding and encoding of the three forms of the opcode table (`30_encoding.md` R61 to
R63, R65, R70). Decoding is total; what is no encoding is rejected by name.
-/

namespace Sys2Proof

/-- Why a word is no encoding of the table. -/
inductive DecodeError where
  /-- A frame with no command byte. -/
  | emptyFrame
  /-- The command byte carries neither mask in bits 7:5 (R68). -/
  | unknownMask
  /-- A write frame not of 2 bytes (R62), or a read frame shorter than 3 (R61). -/
  | wrongLength
  /-- A read frame of more than `MAX_COUNT` data bytes (R61). -/
  | countAboveMax
  /-- A byte that is none of the three ERA codes (R65). -/
  | unknownEraCode
  deriving DecidableEq, Repr

/-- Bits 7:5 of a command byte, in place (R63). -/
def maskPart (b : Byte) : Byte := b &&& 0xE0

/-- Bits 4:0 of a command byte (R63). -/
def addressPart (b : Byte) : RegAddr := b.extractLsb' 0 5

/-- The command byte `mask | address` (R63). -/
def commandByte (mask : Byte) (address : RegAddr) : Byte := mask ||| address.setWidth 8

/-- `CW[35:32] = op`, `CW[31:16] = a`, `CW[15:0] = b` (R70). -/
def packCommand (op : BitVec 4) (a b : Word16) : CommandWord := op ++ (a ++ b)

/-- The fields of a command word. -/
def commandOp (cw : CommandWord) : BitVec 4 := cw.extractLsb' 32 4
/-- `CW[31:16]`. -/
def commandA (cw : CommandWord) : Word16 := cw.extractLsb' 16 16
/-- `CW[15:0]`. -/
def commandB (cw : CommandWord) : Word16 := cw.extractLsb' 0 16

/-- The host command a command word stands for (R70). Every word stands for one: op 0xF is the
reserved op. -/
def decodeCommand (cw : CommandWord) : Instr :=
  let a := commandA cw
  let b := commandB cw
  match (commandOp cw).toNat with
  | 0x0 => .nop a b
  | 0x1 => .rapRd a b
  | 0x2 => .rapWr a b
  | 0x3 => .eraRd a b
  | 0x4 => .eraWr a b
  | 0x5 => .clrFlags a b
  | 0x6 => .setFeed a b
  | 0x7 => .getAbs a b
  | 0x8 => .clip a b
  | 0x9 => .scale a b
  | 0xA => .chkHover a b
  | 0xB => .setAtten a b
  | 0xC => .tuneEdge a b
  | 0xD => .init a b
  | 0xE => .setInd a b
  | _ => .reservedF a b

/-- The frame a byte list stands for: the mask in bits 7:5 of the first byte, and the length (R61 to
R63, R75). Filler bytes carry no command and are not looked at (log 16). -/
def decodeFrame (p : Params) : List Byte → Except DecodeError Instr
  | [] => .error .emptyFrame
  | cmd :: rest =>
    if maskPart cmd = p.readMask then
      if rest.length < 2 then .error .wrongLength
      else if p.maxCount < rest.length - 2 then .error .countAboveMax
      else .ok (.frameRapRead (addressPart cmd) (rest.length - 2))
    else if maskPart cmd = p.writeMask then
      match rest with
      | [value] => .ok (.frameRapWrite (addressPart cmd) value)
      | _ => .error .wrongLength
    else .error .unknownMask

/-- The ERA code a byte at 0x1E stands for (R65). -/
def decodeEraCode (code : Byte) : Except DecodeError Instr :=
  if code = eraWriteCode then .ok .eraCodeWrite
  else if code = eraReadCode then .ok .eraCodeRead
  else if code = eraDoneCode then .ok .eraCodeDone
  else .error .unknownEraCode

/-- The instruction an encoding stands for, or why there is none. -/
def decode (p : Params) : Encoded → Except DecodeError Instr
  | .command cw => .ok (decodeCommand cw)
  | .frame bytes => decodeFrame p bytes
  | .eraCode code => decodeEraCode code

/-- The RAP read frame: `3 + count` bytes (R61). -/
def readFrame (p : Params) (address : RegAddr) (count : Nat) : List Byte :=
  [commandByte p.readMask address, p.filler, p.filler] ++ List.replicate count p.filler

/-- The RAP write frame: 2 bytes (R62). -/
def writeFrame (p : Params) (address : RegAddr) (value : Byte) : List Byte :=
  [commandByte p.writeMask address, value]

/-- The encoding of an instruction. -/
def encode (p : Params) : Instr → Encoded
  | .nop a b => .command (packCommand 0x0 a b)
  | .rapRd a b => .command (packCommand 0x1 a b)
  | .rapWr a b => .command (packCommand 0x2 a b)
  | .eraRd a b => .command (packCommand 0x3 a b)
  | .eraWr a b => .command (packCommand 0x4 a b)
  | .clrFlags a b => .command (packCommand 0x5 a b)
  | .setFeed a b => .command (packCommand 0x6 a b)
  | .getAbs a b => .command (packCommand 0x7 a b)
  | .clip a b => .command (packCommand 0x8 a b)
  | .scale a b => .command (packCommand 0x9 a b)
  | .chkHover a b => .command (packCommand 0xA a b)
  | .setAtten a b => .command (packCommand 0xB a b)
  | .tuneEdge a b => .command (packCommand 0xC a b)
  | .init a b => .command (packCommand 0xD a b)
  | .setInd a b => .command (packCommand 0xE a b)
  | .reservedF a b => .command (packCommand 0xF a b)
  | .frameRapRead address count => .frame (readFrame p address count)
  | .frameRapWrite address value => .frame (writeFrame p address value)
  | .eraCodeWrite => .eraCode eraWriteCode
  | .eraCodeRead => .eraCode eraReadCode
  | .eraCodeDone => .eraCode eraDoneCode

/-- The `n` bytes of a word, bits 7:0 first. -/
def bytesOfWord : Nat → Nat → List Byte
  | 0, _ => []
  | n + 1, w => BitVec.ofNat 8 w :: bytesOfWord n (w / 256)

/-- The bytes `bs` with zero bytes after them up to length `n`. -/
def padTo (n : Nat) (bs : List Byte) : List Byte := bs ++ List.replicate (n - bs.length) 0

/-- A word of the opcode table, numbered as the table numbers its bits, in the form it is presented
in (log 17): more than 32 bits are a host command word; fewer are a wire frame where the first byte
carries one of the two masks, with the operand bytes above `nbits` zero; else a byte at 0x1E. -/
def encodedOfTableWord (p : Params) (nbits w : Nat) : Encoded :=
  if 32 < nbits then .command (BitVec.ofNat 36 w)
  else
    let bs := bytesOfWord ((nbits + 7) / 8) w
    let cmd : Byte := BitVec.ofNat 8 w
    if maskPart cmd = p.readMask then .frame (padTo 3 bs)
    else if maskPart cmd = p.writeMask then .frame (padTo 2 bs)
    else if bs.length = 1 then .eraCode cmd
    else .frame bs

/-- The instruction the decoder reads from a word of the opcode table. The table's frame rows are
given under P0, so this reads them under P0 (log 16). -/
def decodeTableWord (nbits w : Nat) : Option Instr :=
  match decode Params.p0 (encodedOfTableWord Params.p0 nbits w) with
  | .ok i => some i
  | .error _ => none

end Sys2Proof
end

