-- ==== Sys2Proof/Machine/State.lean ====
section
/-!
DEFINITION. The engine's state (`10_state.md` R10) as plain data, the reasons a step can stop, and
the state after reset (R38, R200).
-/

namespace Sys2Proof.Machine

/-- The error kinds of `60_exceptions.md` R175, the values of `ERR` (R14). Codes 5 to 7 never occur,
so they have no name here (log 29). -/
inductive ErrKind where
  /-- 0: a command that ended normally. -/
  | none
  /-- 1: an exchange could not complete (R176). -/
  | busFailure
  /-- 2: an ERA poll exceeded its bound (R177). -/
  | deviceTimeout
  /-- 3: a zone index outside the hover map (R178). -/
  | outOfRange
  /-- 4: refused at acceptance (R179). -/
  | illegalCommand
  deriving DecidableEq, Repr

/-- `SEQ.op`: the command being run, or `IDLE` (R11). -/
inductive SeqOp where
  | idle
  | nop
  | rapRd
  | rapWr
  | eraRd
  | eraWr
  | clrFlags
  | setFeed
  | getAbs
  | clip
  | scale
  | chkHover
  | setAtten
  | tuneEdge
  | init
  | setInd
  deriving DecidableEq, Repr

/-- `SEQ.stage`: a numbered line of the running sequence's pseudocode (R11). `part` is the lettered part
of the line, 1 for `a` (the loops of R103 and R104), and 0 where a line has none (log 18). -/
structure Stage where
  line : Nat
  part : Nat
  deriving DecidableEq, Repr

/-- `SEQ`, the sequencer state (R11): the command, the step of the running sequence about to be
performed, the loop index, the reads made by the running poll, and the stages of the outer sequences to
return to. -/
structure Sequencer where
  op : SeqOp
  stage : Stage
  idx : Nat
  polls : Nat
  ret : List Stage
  deriving DecidableEq, Repr

/-- `SEQ` at rest: `op = IDLE`, stage, idx, polls 0 (R38). -/
def Sequencer.idle : Sequencer :=
  { op := .idle, stage := ⟨0, 0⟩, idx := 0, polls := 0, ret := [] }

/-- The chip's answer to one exchange (R8, R80). -/
inductive ChipReply where
  /-- The bytes clocked in; positions the list does not reach are free (log 4). -/
  | answer (bytes : List Byte)
  /-- The exchange fails (`XFAIL`, R80). -/
  | fail
  deriving DecidableEq, Repr

/-- What the host can ask to read (R168). `tmp` and `seq` are not host-visible (R20, R11). -/
inductive HostReg where
  | busy
  | done
  | err
  | errlog
  | opa
  | opb
  | opc
  | tmp
  | seq
  | feedSaved
  | rb (i : Nat)
  | rlen
  | btn
  | x
  | y
  | z
  | td
  | idle
  | hov
  | ox
  | oy
  | dr
  deriving DecidableEq, Repr

/-- What the host does in one step (R168, log 14). It has no move that writes an engine register, drives
`SEL` or puts bytes on the bus (R25, R168, D29). -/
inductive Move where
  /-- A command word with `CMD_VALID` (R69). -/
  | command (cw : CommandWord)
  /-- The host reads a register. -/
  | readReg (r : HostReg)
  /-- `RESET` between commands (R200). -/
  | reset
  /-- The host does nothing; `DR` is sampled again. -/
  | wait
  deriving DecidableEq, Repr

/-- Why the machine stops with a fault. -/
inductive Fault where
  /-- A command presented, or a register read, while `BUSY = 1`: the host has no such move (R69,
  R168, U7: stuck). Raised by every meaning and by `hostRead`. Safe: the model does less. -/
  | engineBusy
  /-- A host read of a register that holds no value: "the model faults such a read" (R168; R22, R23,
  R38, R200, U10). Raised by `hostRead`. Safe. -/
  | noValue (r : HostReg)
  /-- A host read of `TMP` or `SEQ` (R11, R20, R191). Raised by `hostRead`. Safe. -/
  | notHostVisible (r : HostReg)
  deriving DecidableEq, Repr

/-- Why a step is refused. -/
inductive Refusal where
  /-- An instruction with no meaning yet. Raised by no arm of `exec`. Safe. -/
  | notModelled (mnemonic : String)
  /-- The word is no encoding (R68). Raised by `step`. Safe. -/
  | undecodable (e : DecodeError)
  deriving DecidableEq, Repr

/-- The state (R10), the bus-event trace of R9, and the model's own fields. -/
structure State where
  /-- `SEQ` (R11). -/
  seq : Sequencer
  /-- `BUSY` (R13). -/
  busy : Bool
  /-- `DONE` (R13). -/
  done : Bool
  /-- `ERR` (R14). -/
  err : ErrKind
  /-- `ERRLOG`, bit `k` for kind `k` (R14). -/
  errlog : BitVec 5
  /-- `OPA` (R19). -/
  opa : Word16
  /-- `OPB` (R19). -/
  opb : Word16
  /-- `OPC` (R19). -/
  opc : BitVec 4
  /-- `TMP` (R20). -/
  tmp : Byte
  /-- `FEED_SAVED` (R21). -/
  feedSaved : Bool
  /-- `RB`, `MAX_COUNT` bytes (R22). -/
  rb : List Byte
  /-- `RLEN` (R22). -/
  rlen : Nat
  /-- `BTN` (R23). -/
  btn : Field6
  /-- `X` (R23). -/
  x : Coord
  /-- `Y` (R23). -/
  y : Coord
  /-- `Z` (R23). -/
  z : Field6
  /-- `TD` (R15). -/
  td : Bool
  /-- `IDLE` (R16). -/
  idle : Bool
  /-- `HOV` (R17). -/
  hov : Bool
  /-- `OX` (R24). -/
  ox : Word16
  /-- `OY` (R24). -/
  oy : Word16
  /-- `SEL`, output pin (R26). -/
  sel : Bool
  /-- `IND`, output pin (R28). -/
  ind : Bool
  /-- `DR`, input pin (R27). -/
  dr : Bool
  /-- Every bus event so far, first event first (R9). -/
  trace : List BusEvent
  /-- MODEL'S OWN: the configuration (R6, log 2). -/
  cfg : Config
  /-- MODEL'S OWN: the chip's coming answers (R8, log 4). -/
  chip : List ChipReply
  /-- MODEL'S OWN: when `RESET` is asserted inside a command: how many bus events happen before it,
  and after it how many before the next (R201, log 9). -/
  resets : List Nat
  /-- MODEL'S OWN: the host's moves still to come (log 14). -/
  moves : List Move
  /-- MODEL'S OWN: a wire frame or ERA code set to be performed by itself in the next step. Only
  `withFetchWord` puts one here: no move of the host and no instruction does (R168, log 15). -/
  stageWord : Option WireWord
  /-- MODEL'S OWN: steps taken, the index of the free level of `DR` (log 6). -/
  tick : Nat
  /-- MODEL'S OWN: `OPA`, `OPB`, `OPC` hold a value (R19, log 8). -/
  opsLoaded : Bool
  /-- MODEL'S OWN: the sample registers hold a value (R23, log 8). -/
  sampleHeld : Bool
  /-- MODEL'S OWN: `OX`, `OY` hold a value: a `SCALE` has written them since the last reset (R24, R38,
  log 8). -/
  scaledHeld : Bool
  deriving DecidableEq, Repr

/-- The state after reset under a configuration (R38, R200). The registers R38 calls unspecified are
zero here (DESIGN CHOICE, unsafe, log 7). -/
def State.resetWith (c : Config) : State where
  seq := Sequencer.idle
  busy := false
  done := false
  err := .none
  errlog := 0
  opa := 0
  opb := 0
  opc := 0
  tmp := 0
  feedSaved := false
  rb := List.replicate c.maxCount 0
  rlen := 0
  btn := 0
  x := 0
  y := 0
  z := 0
  td := false
  idle := false
  hov := false
  ox := 0
  oy := 0
  sel := false
  ind := false
  dr := false
  trace := []
  cfg := c
  chip := []
  resets := []
  moves := []
  stageWord := none
  tick := 0
  opsLoaded := false
  sampleHeld := false
  scaledHeld := false

/-- The machine right after reset, under P0 (log 2), with nothing placed: no move, no scripted
answer of the chip. -/
def State.reset : State := State.resetWith Config.p0

end Sys2Proof.Machine
end

