-- ==== Sys2Proof/Machine/Operands.lean ====
section
/-!
DEFINITION. Every operand form: the operand fields of a command (`30_encoding.md` R70, R71), the
checks at acceptance (R72), the bytes assembled for the wire (R67), the packed sample block (R66,
`44_sample_pipeline.md` R126), the clip window (R132), the scaler (R134, R135) and the zone index
(R130).
-/

namespace Sys2Proof.Machine

/-- `address` of `RAP_RD` and `RAP_WR`: the 7-bit port `a[6:0]` (R71). -/
def addressPort (a : Word16) : BitVec 7 := a.extractLsb' 0 7

/-- The direct index placed in the command byte: `a[4:0]` (R63), used only when the port is legal. -/
def directIndex (a : Word16) : RegAddr := a.extractLsb' 0 5

/-- `count`, a data byte or a gain code: `b[7:0]` (R71). -/
def lowByte (b : Word16) : Byte := b.extractLsb' 0 8

/-- `count` of a read as a number (R71). -/
def countOf (b : Word16) : Nat := (lowByte b).toNat

/-- The boolean of `SET_FEED` and `SET_IND`: `b[0]` (R71). -/
def flagOf (b : Word16) : Bool := b.getLsbD 0

/-- `a[6:0] <= RAP_ADDR_MAX`, which is 0x1F (R6, R72 (b)). -/
def addressLegal (p : Params) (a : Word16) : Bool := decide ((addressPort a).toNat ≤ p.rapAddrMax)

/-- `count <= MAX_COUNT` (R72 (c)). -/
def countLegal (p : Params) (b : Word16) : Bool := decide (countOf b ≤ p.maxCount)

/-- `eaddr[15:8]`, sent to 0x1C (R42, R67). -/
def addrHigh (eaddr : Word16) : Byte := eaddr.extractLsb' 8 8

/-- `eaddr[7:0]`, sent to 0x1D (R42, R67). -/
def addrLow (eaddr : Word16) : Byte := eaddr.extractLsb' 0 8

/-- The feed byte at `FEED_REG` with the enable bit set or cleared, the others kept (R67, R116). -/
def feedByte (p : Params) (enable : Bool) (old : Byte) : Byte :=
  if enable then old ||| p.feedEnMask else old &&& ~~~p.feedEnMask

/-- The enable bit of a feed byte (R21). -/
def feedBit (p : Params) (t : Byte) : Bool := decide (t &&& p.feedEnMask ≠ 0)

/-- The attenuation byte: `(old & 0x3F) | gain` (R67, R150); the gain is OR'd in as given. -/
def attenByte (old gain : Byte) : Byte := (old &&& 0x3F) ||| gain

/-- The four fields of the packed block (R126). -/
structure Sample where
  btn : Field6
  x : Coord
  y : Coord
  z : Field6
  deriving DecidableEq, Repr

/-- Byte `i` of a list of received bytes. -/
def byteAt (d : List Byte) (i : Nat) : Byte := d.getD i 0

/-- `Decode(d)` (R126) on the six bytes of the absolute-data block. -/
def decodeBlock (d : List Byte) : Sample where
  btn := (byteAt d 0).extractLsb' 0 6
  x := (byteAt d 4).extractLsb' 0 4 ++ byteAt d 2
  y := (byteAt d 4).extractLsb' 4 4 ++ byteAt d 3
  z := (byteAt d 5).extractLsb' 0 6

/-- `Clamp(v, lo, hi)`, unsigned (R132). -/
def clamp (v lo hi : Coord) : Coord := if v < lo then lo else if v > hi then hi else v

/-- The X half of `ClipXY` (R132). -/
def clipX (p : Params) (v : Coord) : Coord := clamp v p.xLower p.xUpper

/-- The Y half of `ClipXY` (R132). -/
def clipY (p : Params) (v : Coord) : Coord := clamp v p.yLower p.yUpper

/-- One axis of the scaler on a clipped coordinate: `((v - lo) * res) div (hi - lo)`, exact product,
floor division (R134, R135). The quotient fits 16 bits because it is at most `res`. -/
def scaleAxis (v lo hi : Coord) (res : Word16) : Word16 :=
  BitVec.ofNat 16 ((v.toNat - lo.toNat) * res.toNat / (hi.toNat - lo.toNat))

/-- `position div ZONE_SCALE` (R130). -/
def zoneIndex (p : Params) (v : Coord) : Nat := v.toNat / p.zoneScale

/-- The hover threshold at a position, row first, or none outside the map (R130, R131). -/
def zoneThreshold (p : Params) (x y : Coord) : Option Nat :=
  if zoneIndex p x ≥ p.mapCols ∨ zoneIndex p y ≥ p.mapRows then none
  else some ((p.zhMap.getD (zoneIndex p y) []).getD (zoneIndex p x) 0)

end Sys2Proof.Machine
end

