-- ==== Sys2Proof/Machine/Flags.lean ====
section
/-!
DEFINITION. The flags: the presence predicates (`44_sample_pipeline.md` R127, R128), the hover test
(R131), and the error log bit (`10_state.md` R14).
-/

namespace Sys2Proof.Machine

/-- `TouchDown(X) = (X != 0)` (R127). -/
def touchDown (x : Coord) : Bool := decide (x ≠ 0)

/-- `IsIdle(X, Y, Z)` (R128). -/
def isIdle (x y : Coord) (z : Field6) : Bool := decide (x = 0 ∧ y = 0 ∧ z = 0)

/-- `HOV = not (Z > th)`, unsigned (R131). -/
def hovering (z : Field6) (threshold : Nat) : Bool := decide (¬z.toNat > threshold)

/-- The code of an error kind (R14, R175). -/
def errCode : ErrKind → BitVec 3
  | .none => 0
  | .busFailure => 1
  | .deviceTimeout => 2
  | .outOfRange => 3
  | .illegalCommand => 4

/-- `ERRLOG` after a command ended with kind `e`: bit `e` set unless `e` is `None` (R14, R180). -/
def logError (log : BitVec 5) (e : ErrKind) : BitVec 5 :=
  match e with
  | .none => log
  | .busFailure => log ||| 0b00010
  | .deviceTimeout => log ||| 0b00100
  | .outOfRange => log ||| 0b01000
  | .illegalCommand => log ||| 0b10000

end Sys2Proof.Machine
end

