-- ==== Sys2Proof/Machine/Ops.lean ====
section
/-!
DEFINITION. The operations every meaning is made of: ending a command (`60_exceptions.md` R180, this
block's one way of taking an exception; there is no return from one, R183), acceptance
(`30_encoding.md` R69, R72), reset (`70_reset_and_hazards.md` R200, R201), the transceiver
(`40_bus_transport.md`), and the procedures of RAP, feed and flags, ERA and tuning.
-/

namespace Sys2Proof.Machine

/-- What a meaning answers. -/
abbrev Outcome := Host.Outcome State Fault Refusal

/-- What leaves a sequence before its end: an error (`raise E`, R180), or `RESET` (R201). -/
inductive Abort where
  | raised (e : ErrKind)
  | reset
  deriving DecidableEq, Repr

/-- A part of a command's sequence: it runs on the state and ends normally or leaves early; the
registers then hold exactly the writes of the steps that ran (R181). -/
abbrev Sequence := EStateM Abort State

/-! ### Register updates -/

/-- `end with ERR = e` (R180). -/
def State.endWith (s : State) (e : ErrKind) : State :=
  { s with err := e, errlog := logError s.errlog e, seq := Sequencer.idle, busy := false, done := true }

/-- Acceptance of a legal command: the latches, `BUSY`, `DONE`, and the first stage (R69). -/
def State.accept (s : State) (op : SeqOp) (code : BitVec 4) (a b : Word16) : State :=
  { s with
    opc := code, opa := a, opb := b, opsLoaded := true, busy := true, done := false,
    seq := { Sequencer.idle with op := op, stage := ⟨1, 0⟩ } }

/-- `RESET` (R38, R200, R201): every engine register as after reset. `SEL` falls at once, which the
trace shows when it was asserted (DESIGN CHOICE, log 9). `IND` falls to 0 too, and the trace shows no
`IND(0)` for it: the rules say no event (DESIGN CHOICE, log 31). The chip, the host's moves and later
resets, and the configuration are not the engine's and stay (R201, log 10). -/
def State.resetEngine (s : State) : State :=
  { State.resetWith s.cfg with
    dr := s.dr
    trace := s.trace ++ (if s.sel then [BusEvent.sel false] else [])
    chip := s.chip
    resets := s.resets
    moves := s.moves
    stageWord := s.stageWord
    tick := s.tick }

/-- `RB[0 .. n-1] <- d`, `RLEN <- n` (R22, R95). -/
def State.storeRead (s : State) (d : List Byte) : State :=
  { s with rb := d ++ s.rb.drop d.length, rlen := d.length }

/-- Lines 4 to 7 of `GET_ABS`: all seven sample registers afresh (R23, R125). -/
def State.storeSample (s : State) (v : Sample) : State :=
  { s with
    btn := v.btn, x := v.x, y := v.y, z := v.z,
    td := touchDown v.x, idle := isIdle v.x v.y v.z, hov := false, sampleHeld := true }

/-- `(X, Y) <- ClipXY(X, Y)` (R133). -/
def State.clipXY (s : State) : State :=
  { s with x := clipX s.cfg.toParams s.x, y := clipY s.cfg.toParams s.y }

/-- Lines 2 to 4 of `SCALE`, on clipped `X`, `Y` (R134). `SCALE` is the command that writes `OX`, `OY`
(R24), so they hold a value from now on (R38, U10, log 8). -/
def State.scaleXY (s : State) (rx ry : Word16) : State :=
  { s with
    ox := scaleAxis s.x s.cfg.xLower s.cfg.xUpper rx
    oy := scaleAxis s.y s.cfg.yLower s.cfg.yUpper ry
    scaledHeld := true }

/-! ### Sequencer -/

/-- `raise E` (R180). -/
def raise {α : Type} (e : ErrKind) : Sequence α := throw (.raised e)

/-- Move `SEQ` to line `line`, or to its lettered part `part`, of the running sequence: the step about to
be performed (R11, log 18). -/
def atStage (line : Nat) (part : Nat := 0) : Sequence Unit :=
  modify fun s => { s with seq := { s.seq with stage := ⟨line, part⟩ } }

/-- `SEQ.idx <- n` (R11). -/
def setIdx (n : Nat) : Sequence Unit := modify fun s => { s with seq := { s.seq with idx := n } }

/-- `SEQ.polls <- n` (R11, R104). -/
def setPolls (n : Nat) : Sequence Unit := modify fun s => { s with seq := { s.seq with polls := n } }

/-- Enter an inner sequence: the stage of the outer one goes on the return stack (R11). -/
def Sequencer.push (q : Sequencer) : Sequencer :=
  { q with stage := ⟨1, 0⟩, ret := q.stage :: q.ret }

/-- Return from an inner sequence (R11). -/
def Sequencer.pop (q : Sequencer) : Sequencer :=
  { q with stage := q.ret.headD ⟨0, 0⟩, ret := q.ret.tail }

/-- Back in a sequence whose return stack is `ret`, at line `line`, whatever was running inside it: the
loops inside are left (R11, R180). -/
def Sequencer.unwindTo (q : Sequencer) (line : Nat) (ret : List Stage) : Sequencer :=
  { q with stage := ⟨line, 0⟩, idx := 0, ret := ret }

/-- Go into an inner sequence (R11). -/
def enter : Sequence Unit := modify fun s => { s with seq := s.seq.push }

/-- Come back from an inner sequence (R11). -/
def leave : Sequence Unit := modify fun s => { s with seq := s.seq.pop }

/-- Run an inner sequence of a composite one (R11, R74). -/
def inner {α : Type} (m : Sequence α) : Sequence α := do
  enter
  let r ← m
  leave
  return r

/-! ### Bus events and the transceiver (R80 to R83) -/

/-- A bus event happens, unless `RESET` is asserted first (R9, R201, log 9). -/
def emit (e : BusEvent) : Sequence Unit := fun s =>
  match s.resets with
  | [] => .ok () { s with trace := s.trace ++ [e] }
  | 0 :: later => .error .reset (State.resetEngine { s with resets := later })
  | (n + 1) :: later => .ok () { s with resets := n :: later, trace := s.trace ++ [e] }

/-- The bytes clocked in while `out` is clocked out: as scripted, free where the script gives none
(R80, log 4). `sent` are the bytes of this exchange already sent. -/
def replyBytes (history : List BusEvent) (sent : List Byte) : List Byte → List Byte → List Byte
  | [], _ => []
  | o :: out, b :: script => b :: replyBytes history (sent ++ [o]) out script
  | o :: out, [] =>
    Config.chipByte history (sent ++ [o]) :: replyBytes history (sent ++ [o]) out []

/-- The chip's answer to an exchange of `out`: `len(out)` bytes, or failure (R80, R81). -/
def chipAnswer (s : State) (out : List Byte) : Option (List Byte) :=
  match s.chip with
  | .answer script :: _ => some (replyBytes s.trace [] out script)
  | .fail :: _ => none
  | [] =>
    if Config.exchangeFails s.trace out then none else some (replyBytes s.trace [] out [])

/-- The event of an exchange (R9, R81, log 5). -/
def exchangeEvent (out : List Byte) : Option (List Byte) → BusEvent
  | some inp => .xchg out inp
  | none => .xchgFailed out

/-- `exchange(out) -> in | fail`, one atomic event (R80). -/
def exchange (out : List Byte) : Sequence (Option (List Byte)) := do
  let s ← get
  emit (exchangeEvent out (chipAnswer s out))
  modify fun t => { t with chip := t.chip.tail }
  return chipAnswer s out

/-- `SEL <- level` with its event (R81). -/
def driveSelect (level : Bool) : Sequence Unit := do
  emit (.sel level)
  modify fun s => { s with sel := level }

/-- `Transact(out)` (R81): select falls before `BusFailure` is raised. -/
def transact (out : List Byte) : Sequence (List Byte) := do
  driveSelect true
  let r ← exchange out
  driveSelect false
  match r with
  | some inp => return inp
  | none => raise .busFailure

/-! ### RAP (R91, R92) -/

/-- `RapRead(address, count)` (R91): `in[3 .. 3 + count - 1]`. -/
def rapRead (address : RegAddr) (count : Nat) : Sequence (List Byte) := do
  let s ← get
  let inp ← transact (readFrame s.cfg.toParams address count)
  return (inp.drop 3).take count

/-- `RapRead(address, 1)[0]`. -/
def rapReadByte (address : RegAddr) : Sequence Byte := do
  let d ← rapRead address 1
  return byteAt d 0

/-- `RapWrite(address, value)` (R92). -/
def rapWrite (address : RegAddr) (value : Byte) : Sequence Unit := do
  let s ← get
  let _ ← transact (writeFrame s.cfg.toParams address value)
  return ()

/-- `TMP <- v` (R20). -/
def setTmp (v : Byte) : Sequence Unit := modify fun s => { s with tmp := v }

/-! ### Feed and flags (R115, R116) -/

/-- `Settle()`: `DELAY(SETTLE_TIME)` (R115). -/
def settle : Sequence Unit := do
  let s ← get
  emit (.delay s.cfg.settleTime)

/-- `ClearFlags()` (R115). -/
def clearFlags : Sequence Unit := do
  rapWrite regStatus 0x00
  atStage 2
  settle

/-- `SetFeed(enable)` (R116). -/
def setFeed (enable : Bool) : Sequence Unit := do
  let s ← get
  let t ← rapReadByte s.cfg.feedReg
  setTmp t
  atStage 2
  let t' := feedByte s.cfg.toParams enable t
  atStage 3
  rapWrite s.cfg.feedReg t'

/-! ### ERA (R101 to R106) -/

/-- `EraBegin` lines 1 and 2: read 0x04 and remember the prior feed bit (R101). -/
def eraCapture : Sequence Byte := do
  let s ← get
  let t ← rapReadByte s.cfg.feedReg
  setTmp t
  atStage 2
  modify fun u => { u with feedSaved := feedBit u.cfg.toParams t }
  atStage 3
  return t

/-- `EraBegin` line 3: clear the enable bit, keep the others (R101). -/
def eraDisableFeed (t : Byte) : Sequence Unit := do
  let s ← get
  rapWrite s.cfg.feedReg (feedByte s.cfg.toParams false t)

/-- `EraLoadAddr(eaddr)` (R101). -/
def eraLoadAddr (eaddr : Word16) : Sequence Unit := do
  rapWrite regEraAddrHi (addrHigh eaddr)
  atStage 2
  rapWrite regEraAddrLo (addrLow eaddr)

/-- The loop of `Poll()` with `left` reads of 0x1E still allowed (R104): none left is line 2a's
`SEQ.polls = POLL_BOUND`. -/
def pollLoop : Nat → Sequence Unit
  | 0 => do
    atStage 2 1
    raise .deviceTimeout
  | left + 1 => do
    atStage 2 1
    atStage 2 2
    let c ← rapReadByte regEraCtl
    setTmp c
    let s ← get
    setPolls (s.seq.polls + 1)
    atStage 2 3
    if c = eraDoneCode then return () else pollLoop left

/-- `Poll()` (R104). -/
def poll : Sequence Unit := do
  setPolls 0
  let s ← get
  pollLoop s.cfg.pollBound

/-- Line 1 of `EraExit`: restore the feed bit if the configuration asks for it and it was set
(R106). -/
def eraRestore : Sequence Unit := do
  let s ← get
  if s.cfg.eraRestoreFeed && s.feedSaved then inner (setFeed true) else return ()

/-- `SEQ` at line `line` of the ERA operation whose return stack is `ret` (R106, R180). -/
def State.unwindTo (s : State) (line : Nat) (ret : List Stage) : State :=
  { s with seq := s.seq.unwindTo line ret }

/-- Run `body` and leave through `EraExit`, line `line` of the operation, on every path (R106): an error
of the restore counts only if the operation had none of its own (R182). `RESET` is no exit path
(R201). -/
def eraExit {α : Type} (line : Nat) (ret : List Stage) (body : Sequence α) : Sequence α := fun s =>
  match body s with
  | .ok a t =>
    match eraRestore (t.unwindTo line ret) with
    | .ok _ u => .ok a u
    | .error e u => .error e u
  | .error (.raised e) t =>
    match eraRestore (t.unwindTo line ret) with
    | .ok _ u => .error (.raised e) u
    | .error (.raised _) u => .error (.raised e) u
    | .error .reset u => .error .reset u
  | .error .reset t => .error .reset t

/-- An ERA operation: `EraBegin`, `body`, and `EraExit` as line `exit`. The exit restores only once
`EraBegin` line 2 has run, so it guards `EraBegin` from its line 3 on (R106, log 21). -/
def eraOperation {α : Type} (exit : Nat) (body : Sequence α) : Sequence α := do
  let s ← get
  enter
  let t ← eraCapture
  eraExit exit s.seq.ret do
    eraDisableFeed t
    leave
    body

/-- `EraWrite(eaddr, value)` (R102): data staged before the address (R107, C2). -/
def eraWrite (eaddr : Word16) (value : Byte) : Sequence Unit :=
  eraOperation 7 do
    atStage 2
    rapWrite regEraData value
    atStage 3
    inner (eraLoadAddr eaddr)
    atStage 4
    rapWrite regEraCtl eraWriteCode
    atStage 5
    inner poll
    atStage 6
    inner clearFlags

/-- Line 3 of `EraRead`: `left` more trigger, poll, fetch, clear cycles from index `i` (R103, C4). -/
def eraCycles : Nat → Nat → Sequence (List Byte)
  | 0, _ => return []
  | left + 1, i => do
    setIdx i
    atStage 3 1
    rapWrite regEraCtl eraReadCode
    atStage 3 2
    inner poll
    atStage 3 3
    let b ← rapReadByte regEraData
    atStage 3 4
    inner clearFlags
    let rest ← eraCycles left (i + 1)
    return b :: rest

/-- `EraRead(eaddr, count)` (R103): the bytes are returned only if all cycles succeed (R105). -/
def eraRead (eaddr : Word16) (count : Nat) : Sequence (List Byte) :=
  eraOperation 4 do
    atStage 2
    inner (eraLoadAddr eaddr)
    atStage 3
    eraCycles count 0

/-! ### Tuning (R150 to R153) -/

/-- Lines 1 to 5 of `SET_ATTEN` (R150). -/
def attenuationTuning (gain : Byte) : Sequence Unit := do
  let s ← get
  let d ← inner (eraRead s.cfg.attenAddr 1)
  setTmp (byteAt d 0)
  atStage 2
  let t' := attenByte (byteAt d 0) gain
  atStage 3
  inner (eraWrite s.cfg.attenAddr t')
  atStage 4
  let c ← inner (eraRead s.cfg.attenAddr 1)
  atStage 5
  modify fun s => s.storeRead [byteAt c 0]

/-- Lines 1 and 2 of `TUNE_EDGE` (R151). -/
def edgeTuning : Sequence Unit := do
  let s ← get
  inner (eraWrite s.cfg.edgeAAddr s.cfg.edgeAVal)
  atStage 2
  inner (eraWrite s.cfg.edgeBAddr s.cfg.edgeBVal)

/-- Line 2 of `INIT`: the base configuration writes from entry `j` on (R152, R153). -/
def baseWrites : List (RegAddr × Byte) → Nat → Sequence Unit
  | [], _ => return ()
  | (a, v) :: rest, j => do
    setIdx j
    rapWrite a v
    baseWrites rest (j + 1)

/-! ### Running a command -/

/-- The state a sequence leaves behind: a command ends (R180); after `RESET` no command does (R201). -/
def finish : EStateM.Result Abort State Unit → State
  | .ok _ s => s.endWith .none
  | .error (.raised e) s => s.endWith e
  | .error .reset s => s

/-- Run a command from its acceptance to its end (R69, R72, R180). A busy port takes no command
(R69, U7, log 11); an illegal one is refused before any other effect (R72, R179, log 12). -/
def runCommand (op : SeqOp) (code : BitVec 4) (legal : Bool) (a b : Word16)
    (body : Sequence Unit) (s : State) : Outcome :=
  if s.busy then .fault .engineBusy
  else if legal then .next (finish (body (s.accept op code a b)))
  else .next (s.endWith .illegalCommand)

/-- The state a stage run by itself leaves behind: no command was accepted, so on success none ends;
a raised error is recorded as R180 says (log 15). -/
def finishStage : EStateM.Result Abort State Unit → State
  | .ok _ s => { s with seq := Sequencer.idle }
  | .error (.raised e) s => s.endWith e
  | .error .reset s => s

/-- Run one stage of the sequencer by itself (log 15). -/
def runStage (body : Sequence Unit) (s : State) : Outcome :=
  if s.busy then .fault .engineBusy else .next (finishStage (body s))

end Sys2Proof.Machine
end

