-- ==== Sys2Proof/Machine/Era.lean ====
section
/-!
DEFINITION. ERA: the host commands `ERA_RD` and `ERA_WR` (`42_era.md` R102, R103, R105), and the
stages that use the three ERA codes, run by themselves (`30_encoding.md` R65).
-/

namespace Sys2Proof.Machine

/-- `ERA_RD eaddr, count` (R103, R105). -/
def execEraRd (a b : Word16) (s : State) : Outcome :=
  runCommand .eraRd 0x3 (countLegal s.cfg.toParams b) a b
    (do
      let t ← get
      let d ← inner (eraRead t.opa (countOf t.opb))
      atStage 2
      modify fun u => u.storeRead d
      atStage 4)
    s

/-- `ERA_WR eaddr, value` (R102, R105). -/
def execEraWr (a b : Word16) (s : State) : Outcome :=
  runCommand .eraWr 0x4 true a b
    (do
      let t ← get
      inner (eraWrite t.opa (lowByte t.opb))
      atStage 2)
    s

/-- Code 0x02, the write trigger: `RapWrite(0x1E, 0x02)` (R65, R102 line 4, log 15). -/
def execEraCodeWrite (s : State) : Outcome := runStage (rapWrite regEraCtl eraWriteCode) s

/-- Code 0x05, the read trigger: `RapWrite(0x1E, 0x05)` (R65, R103 line 3a, log 15). -/
def execEraCodeRead (s : State) : Outcome := runStage (rapWrite regEraCtl eraReadCode) s

/-- Code 0x00, completion: `Poll()` reads 0x1E for it (R65, R104, log 15). -/
def execEraCodeDone (s : State) : Outcome := runStage poll s

end Sys2Proof.Machine
end

