-- ==== Sys2Proof/Machine/Feed.lean ====
section
/-!
DEFINITION. Feed control and flag management: `CLR_FLAGS` and `SET_FEED` (`43_feed_flags.md` R115,
R116).
-/

namespace Sys2Proof.Machine

/-- `CLR_FLAGS` (R115). -/
def execClrFlags (a b : Word16) (s : State) : Outcome :=
  runCommand .clrFlags 0x5 true a b clearFlags s

/-- `SET_FEED enable` (R116). -/
def execSetFeed (a b : Word16) (s : State) : Outcome :=
  runCommand .setFeed 0x6 true a b
    (do
      let t ← get
      setFeed (flagOf t.opb))
    s

end Sys2Proof.Machine
end

