-- ==== Sys2Proof/Machine/HostPins.lean ====
section
/-!
DEFINITION. `NOP`, `SET_IND` (`46_host_pins.md` R165, R166), the reserved op (`30_encoding.md` R72),
and the host's side of the port: reading a register and sampling `DR` (R167, R168).
-/

namespace Sys2Proof.Machine

/-- `NOP` (R165). -/
def execNop (a b : Word16) (s : State) : Outcome := runCommand .nop 0x0 true a b (return ()) s

/-- `SET_IND level` (R166). -/
def execSetInd (a b : Word16) (s : State) : Outcome :=
  runCommand .setInd 0xE true a b
    (do
      let t ← get
      modify fun u => { u with ind := flagOf t.opb }
      emit (.ind (flagOf t.opb)))
    s

/-- The reserved op 0xF: `IllegalCommand` (R72 (a), R179). -/
def execReservedF (a b : Word16) (s : State) : Outcome :=
  runCommand .idle 0xF false a b (return ()) s

/-- A value the host may see, or the fault of a register that holds none: the host must "not read a
register that holds no value", and "the model faults such a read" (R168; R22, R38, U10, log 8). -/
def heldValue (held : Bool) (r : HostReg) (v : Nat) : Except Fault Nat :=
  if held then .ok v else .error (.noValue r)

/-- A register as the host sees it at an idle port (R22, R23, R168, log 22). -/
def readIdle (s : State) (r : HostReg) : Except Fault Nat :=
  match r with
  | .busy => .ok s.busy.toNat
  | .done => .ok s.done.toNat
  | .err => .ok (errCode s.err).toNat
  | .errlog => .ok s.errlog.toNat
  | .opa => heldValue s.opsLoaded r s.opa.toNat
  | .opb => heldValue s.opsLoaded r s.opb.toNat
  | .opc => heldValue s.opsLoaded r s.opc.toNat
  | .tmp => .error (.notHostVisible r)
  | .seq => .error (.notHostVisible r)
  | .feedSaved => .ok s.feedSaved.toNat
  | .rb i => heldValue (decide (i < s.rlen)) r (byteAt s.rb i).toNat
  | .rlen => .ok s.rlen
  | .btn => heldValue s.sampleHeld r s.btn.toNat
  | .x => heldValue s.sampleHeld r s.x.toNat
  | .y => heldValue s.sampleHeld r s.y.toNat
  | .z => heldValue s.sampleHeld r s.z.toNat
  | .td => heldValue s.sampleHeld r s.td.toNat
  | .idle => heldValue s.sampleHeld r s.idle.toNat
  | .hov => heldValue s.sampleHeld r s.hov.toNat
  | .ox => heldValue s.scaledHeld r s.ox.toNat
  | .oy => heldValue s.scaledHeld r s.oy.toNat
  | .dr => .ok s.dr.toNat

/-- A host read: results only while `BUSY = 0`; `BUSY`, `DONE` and the pin `DR` at any time (R69,
R167, R168, log 22). -/
def hostRead (s : State) (r : HostReg) : Except Fault Nat :=
  if s.busy then
    match r with
    | .busy => .ok s.busy.toNat
    | .done => .ok s.done.toNat
    | .dr => .ok s.dr.toNat
    | .tmp => .error (.notHostVisible r)
    | .seq => .error (.notHostVisible r)
    | _ => .error .engineBusy
  else readIdle s r

/-- A step is over: `DR` takes whatever level the chip drives (R27, R186, log 6). -/
def State.sampleDr (s : State) : State :=
  { s with tick := s.tick + 1, dr := Config.dataReady (s.tick + 1) s.trace }

/-- The end of a step around a meaning: `DR` is sampled again. -/
def afterMeaning : Outcome → Outcome
  | .next s => .next s.sampleDr
  | .fault f => .fault f
  | .refused r => .refused r

/-- A step in which the host reads a register: nothing changes, or the read faults (R168). -/
def stepRead (r : HostReg) (s : State) : Outcome :=
  match hostRead s r with
  | .ok _ => .next s.sampleDr
  | .error f => .fault f

/-- `s` with a word of the opcode table as the next thing to run: a command word as the host's next
move, a wire frame or an ERA code as the stage to perform by itself (log 14, log 15, log 17). -/
def placeWord (s : State) (nbits w : Nat) : State :=
  match encodedOfTableWord s.cfg.toParams nbits w with
  | .command cw => { s with stageWord := none, moves := .command cw :: s.moves }
  | .frame bytes => { s with stageWord := some (.frame bytes) }
  | .eraCode code => { s with stageWord := some (.eraCode code) }

end Sys2Proof.Machine
end

