-- ==== Sys2Proof/Machine/Rap.lean ====
section
/-!
DEFINITION. RAP: the host commands `RAP_RD` and `RAP_WR` (`41_rap.md` R91 to R95), and the two wire
frames run by themselves (`30_encoding.md` R61, R62).
-/

namespace Sys2Proof.Machine

/-- `RAP_RD address, count` (R91, R95). -/
def execRapRd (a b : Word16) (s : State) : Outcome :=
  runCommand .rapRd 0x1 (addressLegal s.cfg.toParams a && countLegal s.cfg.toParams b) a b
    (do
      let t ← get
      let d ← rapRead (directIndex t.opa) (countOf t.opb)
      atStage 2
      modify fun u => u.storeRead d
      atStage 4)
    s

/-- `RAP_WR address, value` (R92, R95). -/
def execRapWr (a b : Word16) (s : State) : Outcome :=
  runCommand .rapWr 0x2 (addressLegal s.cfg.toParams a) a b
    (do
      let t ← get
      rapWrite (directIndex t.opa) (lowByte t.opb)
      atStage 2)
    s

/-- The RAP read frame run by itself: `RapRead` (R61, R91); the bytes are in the trace only
(log 15). -/
def execFrameRapRead (address : RegAddr) (count : Nat) (s : State) : Outcome :=
  runStage
    (do
      let _ ← rapRead address count
      return ())
    s

/-- The RAP write frame run by itself: `RapWrite` (R62, R92, log 15). -/
def execFrameRapWrite (address : RegAddr) (value : Byte) (s : State) : Outcome :=
  runStage (rapWrite address value) s

end Sys2Proof.Machine
end

