-- ==== Sys2Proof/Machine/Sample.lean ====
section
/-!
DEFINITION. The absolute sample pipeline: `GET_ABS`, `CLIP`, `SCALE`, `CHK_HOVER`
(`44_sample_pipeline.md` R125, R131, R133, R134).
-/

namespace Sys2Proof.Machine

/-- `GET_ABS` (R125). -/
def execGetAbs (a b : Word16) (s : State) : Outcome :=
  runCommand .getAbs 0x7 true a b
    (do
      let d ← rapRead regAbsData 6
      atStage 2
      inner clearFlags
      atStage 3
      modify fun t => t.storeRead d
      atStage 4
      modify fun t => t.storeSample (decodeBlock d)
      atStage 8)
    s

/-- `CLIP` (R133). -/
def execClip (a b : Word16) (s : State) : Outcome :=
  runCommand .clip 0x8 true a b (modify fun t => t.clipXY) s

/-- `SCALE out_x_res, out_y_res` (R134). -/
def execScale (a b : Word16) (s : State) : Outcome :=
  runCommand .scale 0x9 true a b
    (do
      modify fun t => t.clipXY
      atStage 2
      modify fun t => t.scaleXY t.opa t.opb
      atStage 5)
    s

/-- `CHK_HOVER` (R131). -/
def execChkHover (a b : Word16) (s : State) : Outcome :=
  runCommand .chkHover 0xA true a b
    (do
      let t ← get
      atStage 2
      match zoneThreshold t.cfg.toParams t.x t.y with
      | none => raise .outOfRange
      | some th =>
        modify fun u => { u with hov := hovering u.z th }
        atStage 5)
    s

end Sys2Proof.Machine
end

