-- ==== Sys2Proof/Machine/Tuning.lean ====
section
/-!
DEFINITION. Tuning and initialisation: `SET_ATTEN`, `TUNE_EDGE`, `INIT` (`45_tuning_init.md` R150 to
R152).
-/

namespace Sys2Proof.Machine

/-- `SET_ATTEN gain_code` (R150). -/
def execSetAtten (a b : Word16) (s : State) : Outcome :=
  runCommand .setAtten 0xB true a b
    (do
      let t ← get
      attenuationTuning (lowByte t.opb)
      atStage 6)
    s

/-- `TUNE_EDGE` (R151). -/
def execTuneEdge (a b : Word16) (s : State) : Outcome :=
  runCommand .tuneEdge 0xC true a b
    (do
      edgeTuning
      atStage 3)
    s

/-- `INIT` (R152): clear flags, base configuration writes, attenuation tuning, edge tuning. -/
def execInit (a b : Word16) (s : State) : Outcome :=
  runCommand .init 0xD true a b
    (do
      inner clearFlags
      atStage 2
      let t ← get
      baseWrites t.cfg.baseCfg 0
      setIdx 0
      atStage 3
      inner (attenuationTuning t.cfg.initGain)
      atStage 4
      inner edgeTuning
      atStage 5)
    s

end Sys2Proof.Machine
end

