-- ==== Sys2Proof/Machine/Dispatch.lean ====
section
/-!
DEFINITION. The meaning of every instruction, one arm per constructor.
-/

namespace Sys2Proof.Machine

def exec (i : Instr) (s : State) : Host.Outcome State Fault Refusal :=
  match i with
  | .nop a b => Sys2Proof.Machine.execNop a b s
  | .rapRd a b => Sys2Proof.Machine.execRapRd a b s
  | .rapWr a b => Sys2Proof.Machine.execRapWr a b s
  | .eraRd a b => Sys2Proof.Machine.execEraRd a b s
  | .eraWr a b => Sys2Proof.Machine.execEraWr a b s
  | .clrFlags a b => Sys2Proof.Machine.execClrFlags a b s
  | .setFeed a b => Sys2Proof.Machine.execSetFeed a b s
  | .getAbs a b => Sys2Proof.Machine.execGetAbs a b s
  | .clip a b => Sys2Proof.Machine.execClip a b s
  | .scale a b => Sys2Proof.Machine.execScale a b s
  | .chkHover a b => Sys2Proof.Machine.execChkHover a b s
  | .setAtten a b => Sys2Proof.Machine.execSetAtten a b s
  | .tuneEdge a b => Sys2Proof.Machine.execTuneEdge a b s
  | .init a b => Sys2Proof.Machine.execInit a b s
  | .setInd a b => Sys2Proof.Machine.execSetInd a b s
  | .reservedF a b => Sys2Proof.Machine.execReservedF a b s
  | .frameRapRead address count => Sys2Proof.Machine.execFrameRapRead address count s
  | .frameRapWrite address value => Sys2Proof.Machine.execFrameRapWrite address value s
  | .eraCodeWrite => Sys2Proof.Machine.execEraCodeWrite s
  | .eraCodeRead => Sys2Proof.Machine.execEraCodeRead s
  | .eraCodeDone => Sys2Proof.Machine.execEraCodeDone s

end Sys2Proof.Machine
end

