-- ==== Sys2Proof/Machine/Step.lean ====
section
/-!
DEFINITION. One step: the next move of the host, run to its end (`00_scope.md` R8, R9, log 1,
log 14). With no move the engine waits (`70_reset_and_hazards.md` R200).
-/

namespace Sys2Proof.Machine

/-- Run the instruction a word stands for, then sample `DR`. -/
def runWord (word : Encoded) (s : State) : Host.Outcome State Fault Refusal :=
  match decode s.cfg.toParams word with
  | .ok i => afterMeaning (exec i s)
  | .error e => .refused (.undecodable e)

/-- One step: the stage set to be performed by itself, if there is one (log 15), else the host's next
move. -/
def step (s : State) : Host.Outcome State Fault Refusal :=
  match s.stageWord with
  | some w => runWord w.encoded { s with stageWord := none }
  | none =>
    match s.moves with
    | [] => .next s.sampleDr
    | .command cw :: rest => runWord (.command cw) { s with moves := rest }
    | .readReg r :: rest => stepRead r { s with moves := rest }
    | .reset :: rest => .next (State.sampleDr (State.resetEngine { s with moves := rest }))
    | .wait :: rest => .next (State.sampleDr { s with moves := rest })

/-- `s` with a word of the opcode table stored where `step` fetches its next instruction: a host
command at the head of the host's moves, a wire word as the stage to perform (log 14, log 15). -/
def State.withFetchWord (s : State) (nbits w : Nat) : State := placeWord s nbits w

end Sys2Proof.Machine
end

