-- ==== Sys2Proof/Safety.lean ====
section
/-!
DEFINITION. The words claims are stated in: what the chip sees of a run (`00_scope.md` R9), the
shape of a trace (`40_bus_transport.md` R83, `30_encoding.md` R60), the registers a claim says are
kept, the chip's answers a claim asks for, and the invariant of a machine between two steps.
-/

namespace Sys2Proof.Machine

/-! ### The transactions and delays of a trace -/

/-- What happens on the bus, in the notation of R9: a frame exchanged in one transaction, `SETTLE`, or
a frame whose exchange failed (R81). -/
inductive Act where
  | frame (out : List Byte)
  | failed (out : List Byte)
  | settle
  deriving DecidableEq, Repr

/-- `R(a, n)` of R9. -/
def Act.R (p : Params) (a : RegAddr) (n : Nat) : Act := .frame (readFrame p a n)

/-- `W(a, v)` of R9. -/
def Act.W (p : Params) (a : RegAddr) (v : Byte) : Act := .frame (writeFrame p a v)

/-- The failed exchange of a write frame. -/
def Act.WFail (p : Params) (a : RegAddr) (v : Byte) : Act := .failed (writeFrame p a v)

/-- The failed exchange of a read frame. -/
def Act.RFail (p : Params) (a : RegAddr) (n : Nat) : Act := .failed (readFrame p a n)

/-- One event as an act. -/
def actOf : BusEvent → List Act
  | .sel _ => []
  | .xchg out _ => [.frame out]
  | .xchgFailed out => [.failed out]
  | .delay _ => [.settle]
  | .ind _ => []

/-- The frames and delays of a trace, in order. -/
def actsOf (tr : List BusEvent) : List Act := tr.flatMap actOf

/-- How many frames a trace has sent (R214 counts these). -/
def frameCount (tr : List BusEvent) : Nat :=
  (actsOf tr).countP fun x => match x with | .frame _ => true | .failed _ => true | .settle => false

/-- `ClearFlags` as the chip sees it (R115). -/
def clearActs (p : Params) : List Act := [Act.W p regStatus 0x00, .settle]

/-- `EraBegin` as the chip sees it, the chip answering `feed` (R101). -/
def beginActs (p : Params) (feed : Byte) : List Act :=
  [Act.R p 0x04 1, Act.W p 0x04 (feed &&& ~~~p.feedEnMask)]

/-- `EraLoadAddr` as the chip sees it (R101). -/
def addrActs (p : Params) (eaddr : Word16) : List Act :=
  [Act.W p regEraAddrHi (addrHigh eaddr), Act.W p regEraAddrLo (addrLow eaddr)]

/-- A poll of `k` reads (R104). -/
def pollActs (p : Params) (k : Nat) : List Act := List.replicate k (Act.R p regEraCtl 1)

/-- What the chip says in one ERA operation: the feed byte `EraBegin` reads, how many reads each poll
makes until it finds 0x00, the bytes fetched, and the feed byte a restore reads. -/
structure EraTalk where
  feed : Byte
  polls : List Nat
  data : List Byte
  after : Byte
  deriving DecidableEq, Repr

/-- `EraExit` restores the feed bit (R106). -/
def EraTalk.restores (p : Params) (c : EraTalk) : Bool := p.eraRestoreFeed && feedBit p c.feed

/-- Every poll ends within the bound (R104). -/
def EraTalk.InBound (p : Params) (c : EraTalk) : Prop := ∀ k ∈ c.polls, k ≤ p.pollBound

/-- `TMP` after the operation: the restore's feed byte, or the last poll's 0x00, or the feed byte of
`EraBegin` (R20). -/
def EraTalk.lastTmp (p : Params) (c : EraTalk) : Byte :=
  if c.restores p then c.after else if c.polls = [] then c.feed else 0x00

/-- The restore of `EraExit` as the chip sees it (R106). -/
def restoreActs (p : Params) (c : EraTalk) : List Act :=
  if c.restores p then [Act.R p 0x04 1, Act.W p 0x04 (c.after ||| p.feedEnMask)] else []

/-- An ERA write as the chip sees it (R102, R106, R107). -/
def eraWriteActs (p : Params) (eaddr : Word16) (value : Byte) (c : EraTalk) : List Act :=
  beginActs p c.feed ++ [Act.W p regEraData value] ++ addrActs p eaddr ++
    [Act.W p regEraCtl 0x02] ++ c.polls.flatMap (pollActs p) ++ clearActs p ++ restoreActs p c

/-- The trigger, poll, fetch, clear cycles of an ERA read, polls making `ks` reads (R103). -/
def cyclesActs (p : Params) (ks : List Nat) : List Act :=
  ks.flatMap fun k =>
    [Act.W p regEraCtl 0x05] ++ pollActs p k ++ [Act.R p regEraData 1] ++ clearActs p

/-- An ERA read as the chip sees it (R103, R106). -/
def eraReadActs (p : Params) (eaddr : Word16) (c : EraTalk) : List Act :=
  beginActs p c.feed ++ addrActs p eaddr ++ cyclesActs p c.polls ++ restoreActs p c

/-- `SET_ATTEN` as the chip sees it: read, write the new byte, read to confirm (R150). -/
def attenActs (p : Params) (gain : Byte) (c1 c2 c3 : EraTalk) : List Act :=
  eraReadActs p 0x0187 c1 ++
    eraWriteActs p 0x0187 ((byteAt c1.data 0 &&& 0x3F) ||| gain) c2 ++
    eraReadActs p 0x0187 c3

/-- `TUNE_EDGE` as the chip sees it (R151). -/
def edgeActs (p : Params) (c1 c2 : EraTalk) : List Act :=
  eraWriteActs p 0x0149 p.edgeAVal c1 ++ eraWriteActs p 0x0168 p.edgeBVal c2

/-- The base configuration writes as the chip sees them (R152, R153). -/
def baseActs (p : Params) : List Act := p.baseCfg.map fun e => Act.W p e.1 e.2

/-- The events of `A`: a frame is `SEL(1)`, `XCHG` with as many bytes in as out, `SEL(0)`; a failed
frame `SEL(1)`, the failed exchange, `SEL(0)`; a settle `DELAY(SETTLE_TIME)` (R9, R81, R115). -/
def Shows (settle : Nat) : List Act → List BusEvent → Prop
  | [], ev => ev = []
  | .frame out :: A, ev => ∃ inp more, inp.length = out.length ∧
      ev = .sel true :: .xchg out inp :: .sel false :: more ∧ Shows settle A more
  | .failed out :: A, ev => ∃ more,
      ev = .sel true :: .xchgFailed out :: .sel false :: more ∧ Shows settle A more
  | .settle :: A, ev => ∃ more, ev = .delay settle :: more ∧ Shows settle A more

/-- From `s` to `t` exactly the frames and delays `A` happened on the bus, and `SEL` is low after. -/
def Sent (s t : State) (A : List Act) : Prop :=
  t.sel = false ∧ ∃ ev, t.trace = s.trace ++ ev ∧ Shows s.cfg.settleTime A ev

/-! ### The shape of a trace -/

/-- Every exchange stands in a select bracket of its own, and brings as many bytes as it sent; a
bracket a reset cut short holds none (R80, R83, R201). -/
def bracketed : List BusEvent → Bool
  | [] => true
  | .delay _ :: r => bracketed r
  | .ind _ :: r => bracketed r
  | .sel true :: .xchg out inp :: .sel false :: r =>
    decide (out.length = inp.length) && bracketed r
  | .sel true :: .xchgFailed _ :: .sel false :: r => bracketed r
  | .sel true :: .sel false :: r => bracketed r
  | _ => false

/-- A RAP read frame or a RAP write frame (R60). -/
def IsFrame (p : Params) (out : List Byte) : Prop :=
  (∃ a n, out = readFrame p a n) ∨ (∃ a v, out = writeFrame p a v)

/-- Every exchange of a trace sends one of the two frames (R60). -/
def FramesOnly (p : Params) (tr : List BusEvent) : Prop :=
  ∀ out, Act.frame out ∈ actsOf tr ∨ Act.failed out ∈ actsOf tr → IsFrame p out

/-- Every settle delay follows a completed write of 0x00 to 0x02 at once (R49, R115). -/
def settlesFollowClear (p : Params) : List Act → Bool
  | [] => true
  | .settle :: _ => false
  | [.frame _] => true
  | .frame out :: .settle :: r => decide (out = writeFrame p regStatus 0x00) && settlesFollowClear p r
  | .frame _ :: r => settlesFollowClear p r
  | .failed _ :: r => settlesFollowClear p r

/-! ### Registers kept -/

/-- The configuration, the host's moves, the stage set to run and the resets to come, and the input pin
are as before. -/
def SameWorld (s t : State) : Prop :=
  t.cfg = s.cfg ∧ t.moves = s.moves ∧ t.stageWord = s.stageWord ∧ t.resets = s.resets ∧
    t.dr = s.dr ∧ t.tick = s.tick

/-- The read buffer is as before (R22). -/
def SameBuffer (s t : State) : Prop := t.rb = s.rb ∧ t.rlen = s.rlen

/-- The seven sample registers, and whether they hold a value, are as before (R23). -/
def SameSample (s t : State) : Prop :=
  t.btn = s.btn ∧ t.x = s.x ∧ t.y = s.y ∧ t.z = s.z ∧ t.td = s.td ∧ t.idle = s.idle ∧
    t.hov = s.hov ∧ t.sampleHeld = s.sampleHeld

/-- The scaled outputs, and whether they hold a value, are as before (R24). -/
def SameScaled (s t : State) : Prop := t.ox = s.ox ∧ t.oy = s.oy ∧ t.scaledHeld = s.scaledHeld

/-- The operand latches are as before (R19). -/
def SameLatches (s t : State) : Prop :=
  t.opa = s.opa ∧ t.opb = s.opb ∧ t.opc = s.opc ∧ t.opsLoaded = s.opsLoaded

/-- The operand latches hold a command word (R69). -/
def Latched (t : State) (code : BitVec 4) (a b : Word16) : Prop :=
  t.opa = a ∧ t.opb = b ∧ t.opc = code ∧ t.opsLoaded = true

/-- The transient byte and the saved feed bit are as before (R20, R21). -/
def SameScratch (s t : State) : Prop := t.tmp = s.tmp ∧ t.feedSaved = s.feedSaved

/-- Nothing happened on the bus: no event, no answer taken, no change of `SEL` (R9). -/
def SameBus (s t : State) : Prop :=
  t.trace = s.trace ∧ t.chip = s.chip ∧ t.sel = s.sel ∧ t.resets = s.resets

/-- Nothing changed but the bus, the latches, the scratch registers, the read buffer and the status. -/
def SameBeyondBus (s t : State) : Prop :=
  SameWorld s t ∧ SameSample s t ∧ SameScaled s t ∧ t.ind = s.ind

/-- A command ended with `e`: the four writes of R180, `SEQ` at rest. -/
def Ended (s t : State) (e : ErrKind) : Prop :=
  t.err = e ∧ t.errlog = logError s.errlog e ∧ t.busy = false ∧ t.done = true ∧
    t.seq = Sequencer.idle

/-! ### The chip's answers -/

/-- The chip answers this exchange, with any bytes. -/
def Answers (r : ChipReply) : Prop := ∃ bs, r = .answer bs

/-- The chip answers a read frame with the data bytes `d`; the discarded bytes and any bytes past
the frame are arbitrary (R64). -/
def AnswersData (d : List Byte) (r : ChipReply) : Prop :=
  ∃ junk more, junk.length = 3 ∧ r = .answer (junk ++ d ++ more)

/-- The chip's answers to a poll that finds 0x00 at its `k`-th read (R104). -/
def PollReplies (k : Nat) (rs : List ChipReply) : Prop :=
  ∃ busy last, rs = busy ++ [last] ∧ busy.length + 1 = k ∧ AnswersData [0x00] last ∧
    ∀ r ∈ busy, ∃ c : Byte, c ≠ 0 ∧ AnswersData [c] r

/-- The chip's answers to the restore of `EraExit` (R106). -/
def RestoreReplies (p : Params) (c : EraTalk) (rs : List ChipReply) : Prop :=
  if c.restores p then ∃ r w, rs = [r, w] ∧ AnswersData [c.after] r ∧ Answers w else rs = []

/-- The chip's answers to a restore of `EraExit` that fails, and what the chip sees of it: its read fails,
or its write does (R106, R116). -/
def RestoreFails (p : Params) (rs : List ChipReply) (A : List Act) : Prop :=
  (rs = [.fail] ∧ A = [Act.RFail p 0x04 1]) ∨
  ∃ old r, rs = [r, .fail] ∧ AnswersData [old] r ∧
    A = [Act.R p 0x04 1, Act.WFail p 0x04 (old ||| p.feedEnMask)]

/-- The chip's answers to an ERA write (R102). -/
def EraWriteReplies (p : Params) (c : EraTalk) (rs : List ChipReply) : Prop :=
  ∃ k r0 ws ps w xs, rs = r0 :: ws ++ ps ++ w :: xs ∧ c.polls = [k] ∧ AnswersData [c.feed] r0 ∧
    ws.length = 5 ∧ (∀ r ∈ ws, Answers r) ∧ PollReplies k ps ∧ Answers w ∧ RestoreReplies p c xs

/-- The chip's answers to the cycles of an ERA read that fetch `d`, with polls of `ks` reads. -/
def CycleReplies : List Nat → List Byte → List ChipReply → Prop
  | [], [], rs => rs = []
  | k :: ks, b :: d, rs => ∃ w ps f c more, rs = w :: ps ++ f :: c :: more ∧ Answers w ∧
      PollReplies k ps ∧ AnswersData [b] f ∧ Answers c ∧ CycleReplies ks d more
  | _, _, _ => False

/-- The chip's answers to an ERA read (R103). -/
def EraReadReplies (p : Params) (c : EraTalk) (rs : List ChipReply) : Prop :=
  ∃ r0 ws cs xs, rs = r0 :: ws ++ cs ++ xs ∧ AnswersData [c.feed] r0 ∧ ws.length = 3 ∧
    (∀ r ∈ ws, Answers r) ∧ CycleReplies c.polls c.data cs ∧ RestoreReplies p c xs

/-- The chip's answers to `SET_ATTEN` (R150): each read fetches one byte. -/
def AttenReplies (p : Params) (c1 c2 c3 : EraTalk) (rs : List ChipReply) : Prop :=
  ∃ r1 r2 r3, rs = r1 ++ r2 ++ r3 ∧ c1.data.length = 1 ∧ c3.data.length = 1 ∧
    EraReadReplies p c1 r1 ∧ EraWriteReplies p c2 r2 ∧ EraReadReplies p c3 r3

/-- The chip's answers to `TUNE_EDGE` (R151). -/
def EdgeReplies (p : Params) (c1 c2 : EraTalk) (rs : List ChipReply) : Prop :=
  ∃ r1 r2, rs = r1 ++ r2 ∧ EraWriteReplies p c1 r1 ∧ EraWriteReplies p c2 r2

/-- The chip's answers to a poll that never ends: `n` reads, none of 0x00, the last of `last`
(R104). -/
def BusyReplies (n : Nat) (last : Byte) (rs : List ChipReply) : Prop :=
  ∃ before r, rs = before ++ [r] ∧ rs.length = n ∧ last ≠ 0 ∧ AnswersData [last] r ∧
    ∀ x ∈ before, ∃ c : Byte, c ≠ 0 ∧ AnswersData [c] x

/-- The chip's answers to an ERA write up to its poll: the feed byte, then five writes (R102). -/
def TriggerReplies (feed : Byte) (rs : List ChipReply) : Prop :=
  ∃ r0 ws, rs = r0 :: ws ∧ AnswersData [feed] r0 ∧ ws.length = 5 ∧ ∀ r ∈ ws, Answers r

/-- An ERA write up to its poll as the chip sees it (R102). -/
def triggerActs (p : Params) (eaddr : Word16) (value feed : Byte) : List Act :=
  beginActs p feed ++ [Act.W p regEraData value] ++ addrActs p eaddr ++ [Act.W p regEraCtl 0x02]

/-! ### Kinds of instruction -/

/-- A host command word, the reserved op among them: not a wire frame, not an ERA code (R70). -/
def isHostCommand : Instr → Bool
  | .nop _ _ => true
  | .rapRd _ _ => true
  | .rapWr _ _ => true
  | .eraRd _ _ => true
  | .eraWr _ _ => true
  | .clrFlags _ _ => true
  | .setFeed _ _ => true
  | .getAbs _ _ => true
  | .clip _ _ => true
  | .scale _ _ => true
  | .chkHover _ _ => true
  | .setAtten _ _ => true
  | .tuneEdge _ _ => true
  | .init _ _ => true
  | .setInd _ _ => true
  | .reservedF _ _ => true
  | .frameRapRead _ _ => false
  | .frameRapWrite _ _ => false
  | .eraCodeWrite => false
  | .eraCodeRead => false
  | .eraCodeDone => false

/-- The kinds R175 lets a command end with. The wire frames and ERA codes are not commands: run by
themselves they can only raise (log 15). -/
def possibleErrors : Instr → List ErrKind
  | .nop _ _ => [.none]
  | .rapRd _ _ => [.none, .busFailure, .illegalCommand]
  | .rapWr _ _ => [.none, .busFailure, .illegalCommand]
  | .eraRd _ _ => [.none, .busFailure, .deviceTimeout, .illegalCommand]
  | .eraWr _ _ => [.none, .busFailure, .deviceTimeout]
  | .clrFlags _ _ => [.none, .busFailure]
  | .setFeed _ _ => [.none, .busFailure]
  | .getAbs _ _ => [.none, .busFailure]
  | .clip _ _ => [.none]
  | .scale _ _ => [.none]
  | .chkHover _ _ => [.none, .outOfRange]
  | .setAtten _ _ => [.none, .busFailure, .deviceTimeout]
  | .tuneEdge _ _ => [.none, .busFailure, .deviceTimeout]
  | .init _ _ => [.none, .busFailure, .deviceTimeout]
  | .setInd _ _ => [.none]
  | .reservedF _ _ => [.illegalCommand]
  | .frameRapRead _ _ => [.busFailure]
  | .frameRapWrite _ _ => [.busFailure]
  | .eraCodeWrite => [.busFailure]
  | .eraCodeRead => [.busFailure]
  | .eraCodeDone => [.busFailure, .deviceTimeout]

/-- Most frames an ERA write sends (R214). -/
def eraWriteBound (p : Params) : Nat := 6 + p.pollBound + 1 + if p.eraRestoreFeed then 2 else 0

/-- Most frames an ERA read of `count` bytes sends (R214). -/
def eraReadBound (p : Params) (count : Nat) : Nat :=
  4 + count * (p.pollBound + 3) + if p.eraRestoreFeed then 2 else 0

/-- Most frames an instruction sends (R214, and the sequences of R91 to R152). -/
def frameBound (p : Params) : Instr → Nat
  | .nop _ _ => 0
  | .rapRd _ _ => 1
  | .rapWr _ _ => 1
  | .eraRd _ b => eraReadBound p (countOf b)
  | .eraWr _ _ => eraWriteBound p
  | .clrFlags _ _ => 1
  | .setFeed _ _ => 2
  | .getAbs _ _ => 2
  | .clip _ _ => 0
  | .scale _ _ => 0
  | .chkHover _ _ => 0
  | .setAtten _ _ => 2 * eraReadBound p 1 + eraWriteBound p
  | .tuneEdge _ _ => 2 * eraWriteBound p
  | .init _ _ => 1 + p.baseCfg.length + (2 * eraReadBound p 1 + eraWriteBound p) + 2 * eraWriteBound p
  | .setInd _ _ => 0
  | .reservedF _ _ => 0
  | .frameRapRead _ _ => 1
  | .frameRapWrite _ _ => 1
  | .eraCodeWrite => 1
  | .eraCodeRead => 1
  | .eraCodeDone => p.pollBound

/-! ### Two chips a command cannot tell apart -/

/-- Two answers that agree where a read frame carries data: both fail, or both are long enough for
the longest read and agree from byte 3 on (R64). -/
def Alike : ChipReply → ChipReply → Prop
  | .fail, .fail => True
  | .answer x, .answer y => 258 ≤ x.length ∧ 258 ≤ y.length ∧ x.drop 3 = y.drop 3
  | _, _ => False

/-- `s` and `t` are the same but for the bytes clocked in: what is still to come agrees where it
counts, and the same frames were sent. -/
def SameButReplies (s t : State) : Prop :=
  List.Forall₂ Alike s.chip t.chip ∧ actsOf t.trace = actsOf s.trace ∧
    t = { s with chip := t.chip, trace := t.trace }

/-! ### Between two steps -/

/-- The machine between two commands (R11, R13, R22, R83), and what its registers say of its past
(R14, R16). -/
structure State.Inv (s : State) : Prop where
  /-- `SEQ.op = IDLE` exactly when `BUSY = 0` (R11); between two steps no command runs (R8). -/
  atRest : s.busy = false ∧ s.seq = Sequencer.idle
  /-- Between two transactions `SEL = 0` (R83). -/
  deselected : s.sel = false
  /-- `RB` has `MAX_COUNT` bytes and `RLEN` is at most that (R22). -/
  buffer : s.rb.length = s.cfg.maxCount ∧ s.rlen ≤ s.cfg.maxCount
  /-- Bit 0 of `ERRLOG` is always 0 (R14). -/
  logBitZero : s.errlog.getLsbD 0 = false
  /-- The error kind of the last command is in `ERRLOG` (R14, R180). -/
  logged : s.err ≠ .none → s.errlog.getLsbD (errCode s.err).toNat = true
  /-- `IDLE = 1` implies `TD = 0` (R16). -/
  idleNoTouch : s.idle = true → s.td = false
  /-- Every exchange so far stood in a bracket of its own (R83). -/
  shape : bracketed s.trace = true
  /-- Every frame so far was one of the two (R60). -/
  frames : FramesOnly s.cfg.toParams s.trace
  /-- Every delay so far followed a flag clear (R49). -/
  settles : settlesFollowClear s.cfg.toParams (actsOf s.trace) = true

end Sys2Proof.Machine
end

