-- ==== Sys2Proof/Certificates/Slice0/Obligations.lean ====
section
/-!
DEFINITION. The statements for the provers, in the order of OBLIGATIONS.json. `p` is the parameter
set of the state's configuration; `s.resets = []` says that no `RESET` is asserted inside the command
(R200, R201, log 9); `s.busy = false` that the port is free (R69). A chip script fixes what the chip
answers; where a statement fixes no script the chip may do anything (R8).
-/

open Sys2Proof Sys2Proof.Machine

/-! ### Encoding and decoding -/

/-- R61, R62, R65, R70: decoding the encoding of a well-formed instruction gives it back, under every
configuration, with every operand. -/
def Obligations.DecodeEncodeAgree : Prop :=
  ∀ (c : Config) (i : Instr), i.wellFormed c.toParams = true →
    decode c.toParams (encode c.toParams i) = .ok i

/-- R69, R70: every 36-bit command word stands for one instruction, which is encoded as that word;
no operand bit is dropped. -/
def Obligations.EveryCommandWordHasOneReading : Prop :=
  ∀ (p : Params) (cw : CommandWord),
    ∃ i, decode p (.command cw) = .ok i ∧ encode p i = .command cw ∧
      ∀ j, encode p j = .command cw → j = i

/-- R61, R62, R68: which byte lists decode as a read frame, which as a write frame, and that nothing
else decodes. Filler bytes are not compared (the model's choice, log 16). -/
def Obligations.FramesDecodeExactly : Prop :=
  ∀ (c : Config) (bs : List Byte),
    (∀ a n, decode c.toParams (.frame bs) = .ok (.frameRapRead a n) ↔
      n ≤ c.maxCount ∧ bs.length = 3 + n ∧ bs.head? = some (commandByte c.readMask a)) ∧
    (∀ a v, decode c.toParams (.frame bs) = .ok (.frameRapWrite a v) ↔
      bs = [commandByte c.writeMask a, v]) ∧
    (∀ i, decode c.toParams (.frame bs) = .ok i →
      (∃ a n, i = .frameRapRead a n) ∨ ∃ a v, i = .frameRapWrite a v)

/-- R63: the command byte is `MASK | address`, its bits 4:0 are the address and its bits 7:5 the
mask, a read command byte is never a write command byte; under P0 they are `101aaaaa`, `100aaaaa`. -/
def Obligations.CommandByteIsMaskThenAddress : Prop :=
  ∀ (c : Config) (a b : RegAddr),
    (∀ mask, mask = c.readMask ∨ mask = c.writeMask →
      commandByte mask a = mask ||| a.setWidth 8 ∧
      (commandByte mask a).extractLsb' 0 5 = a ∧
      (commandByte mask a).extractLsb' 5 3 = mask.extractLsb' 5 3) ∧
    commandByte c.readMask a ≠ commandByte c.writeMask b ∧
    commandByte Params.p0.readMask a = (0b101 : BitVec 3) ++ a ∧
    commandByte Params.p0.writeMask a = (0b100 : BitVec 3) ++ a

/-- R70, R61, R62, R65: words written out from the spec's encodings, one of each form and more,
decode to the instruction they stand for (95_test_vectors.md V1, V5, V47, V49, P1, P2, P5, P6). -/
def Obligations.SpecWordsDecode : Prop :=
  decode Params.p0 (.command 0x4018700AB) = .ok (.eraWr 0x0187 0x00AB) ∧
  decode Params.p0 (.command 0x1FF840001) = .ok (.rapRd 0xFF84 0x0001) ∧
  decode Params.p0 (.command 0x904000300) = .ok (.scale 0x0400 0x0300) ∧
  decode Params.p0 (.command 0x600000001) = .ok (.setFeed 0 1) ∧
  decode Params.p0 (.command 0xF00000000) = .ok (.reservedF 0 0) ∧
  decode Params.p0 (.frame [0xA4, 0xFC, 0xFC, 0xFC]) = .ok (.frameRapRead 0x04 1) ∧
  decode Params.p0 (.frame [0x82, 0x00]) = .ok (.frameRapWrite 0x02 0x00) ∧
  decode Params.p0 (.eraCode 0x02) = .ok .eraCodeWrite ∧
  decode Params.p0 (.eraCode 0x05) = .ok .eraCodeRead ∧
  decode Params.p0 (.eraCode 0x00) = .ok .eraCodeDone

/-! ### The step and the host's moves -/

/-- R69, log 14, log 15: a step runs the instruction its word decodes to, and a next state then has `DR`
sampled anew and is otherwise `exec`'s. The word is the host's next move, a command; or, where one is set
to be performed by itself, a wire frame or an ERA code, which is refused by name if it is no
encoding. -/
def Obligations.StepRunsTheDecodedInstruction : Prop :=
  ∀ s : State,
    let ran : Outcome → Outcome := fun o =>
      match o with
      | .next t => .next { t with tick := t.tick + 1, dr := Config.dataReady (t.tick + 1) t.trace }
      | .fault f => .fault f
      | .refused r => .refused r
    (∀ cw rest i, s.stageWord = none → s.moves = .command cw :: rest →
      decode s.cfg.toParams (.command cw) = .ok i →
      step s = ran (exec i { s with moves := rest })) ∧
    (∀ w i, s.stageWord = some w → decode s.cfg.toParams w.encoded = .ok i →
      step s = ran (exec i { s with stageWord := none })) ∧
    (∀ w e, s.stageWord = some w → decode s.cfg.toParams w.encoded = .error e →
      step s = .refused (.undecodable e))

/-- Log 14, log 15, log 17: the word placed by `withFetchWord` is the one the very next step runs. -/
def Obligations.FetchWordRunsNext : Prop :=
  ∀ (s : State) (nbits w : Nat) (i : Instr), s.cfg.toParams = Params.p0 →
    decodeTableWord nbits w = some i → ∀ t, exec i { s with stageWord := none } = .next t →
      step (s.withFetchWord nbits w) =
        .next { t with tick := t.tick + 1, dr := Config.dataReady (t.tick + 1) t.trace }

/-- R167, R168, R186, R200: without a command the engine waits: a step then only samples `DR`. No move of
the host but a command puts anything on the bus, takes an answer of the chip, raises `SEL` or sets a wire
word to run. -/
def Obligations.StepWithoutCommandOnlySamplesDr : Prop :=
  ∀ s : State, s.stageWord = none →
    (s.moves = [] → step s =
      .next { s with tick := s.tick + 1, dr := Config.dataReady (s.tick + 1) s.trace }) ∧
    (∀ rest, s.moves = .wait :: rest → step s =
      .next { s with moves := rest, tick := s.tick + 1,
                     dr := Config.dataReady (s.tick + 1) s.trace }) ∧
    ((∀ cw rest, s.moves ≠ .command cw :: rest) → ∀ t, step s = .next t →
      actsOf t.trace = actsOf s.trace ∧ t.chip = s.chip ∧ (t.sel = true → s.sel = true) ∧
        t.stageWord = none)

/-- R38, R14, R22, R23, R24: the values the spec gives for reset, and that every register it calls
unspecified faults a host read; under every configuration. -/
def Obligations.ResetValuesAndUnheldRegisters : Prop :=
  ∀ c : Config,
    let s := State.resetWith c
    s.seq.op = .idle ∧ s.seq.stage = ⟨0, 0⟩ ∧ s.seq.idx = 0 ∧ s.seq.polls = 0 ∧
    s.busy = false ∧ s.done = false ∧ s.err = .none ∧ s.errlog = 0 ∧ s.feedSaved = false ∧
    s.rlen = 0 ∧ s.sel = false ∧ s.ind = false ∧ s.rb.length = c.maxCount ∧
    (∀ r, r ∈ [HostReg.opa, .opb, .opc, .btn, .x, .y, .z, .td, .idle, .hov, .ox, .oy] →
      hostRead s r = .error (.noValue r)) ∧
    (∀ i, hostRead s (.rb i) = .error (.noValue (.rb i)))

/-- R200, R38: `RESET` between commands gives the reset registers (those R38 calls unspecified have the
values of log 7), shows `SEL(0)` only if select was high (log 9) and no `IND(0)` (log 31), and touches
neither the chip nor the configuration (log 10). -/
def Obligations.ResetMoveGivesResetState : Prop :=
  ∀ (s : State) (rest : List Move), s.stageWord = none → s.moves = .reset :: rest →
    step s = .next { State.resetWith s.cfg with
      trace := s.trace ++ (if s.sel then [.sel false] else [])
      chip := s.chip
      resets := s.resets
      moves := rest
      tick := s.tick + 1
      dr := Config.dataReady (s.tick + 1)
        (s.trace ++ (if s.sel then [.sel false] else [])) }

/-- R201, R200: whatever command or stage runs and whatever the chip does, if a `RESET` struck inside
it (one is used up) the engine's registers are those of reset: no error is recorded, select is low,
and the trace only grew. Where it can strike is the model's choice (log 9); the registers R38 calls
unspecified have the values of log 7; that the rest of the state is left alone is read by inference
(log 10). -/
def Obligations.ResetInsideACommandAbandonsIt : Prop :=
  ∀ (i : Instr) (s t : State), exec i s = .next t → t.resets.length < s.resets.length →
    ∃ ev, t = { State.resetWith s.cfg with
      trace := s.trace ++ ev, chip := t.chip, resets := t.resets,
      moves := s.moves, stageWord := s.stageWord, tick := s.tick, dr := s.dr }

/-- R201, R81: where `RESET` can cut a one-frame command: before `SEL(1)`, after it, and after the
exchange; select falls at once. A reset due later is still due after the command. The cuts between
the events are the model's choice (log 9), and so are the zeros the cut leaves in the registers R38
calls unspecified (log 7), and that no `IND(0)` shows where the reset takes `IND` from 1 to 0 (log 31).
That the rest of the state is left alone is read by inference (log 10). -/
def Obligations.ResetCutsAWriteCommandAtEachEvent : Prop :=
  ∀ (a b : Word16) (s : State) (bs : List Byte) (rest : List ChipReply) (later : List Nat),
    s.busy = false → s.sel = false → s.chip = .answer bs :: rest → 2 ≤ bs.length →
    a.toNat % 128 ≤ 0x1F →
    let out := writeFrame s.cfg.toParams (directIndex a) (lowByte b)
    let gone : List BusEvent → List ChipReply → State := fun ev c =>
      { State.resetWith s.cfg with
        trace := s.trace ++ ev, chip := c, resets := later, moves := s.moves,
        stageWord := s.stageWord, tick := s.tick, dr := s.dr }
    (s.resets = 0 :: later → exec (.rapWr a b) s = .next (gone [] s.chip)) ∧
    (s.resets = 1 :: later →
      exec (.rapWr a b) s = .next (gone [.sel true, .sel false] s.chip)) ∧
    (s.resets = 2 :: later →
      exec (.rapWr a b) s = .next (gone [.sel true, .xchg out (bs.take 2), .sel false] rest)) ∧
    (∀ n, s.resets = (n + 3) :: later → ∃ t, exec (.rapWr a b) s = .next t ∧
      Ended s t .none ∧ t.resets = n :: later)

/-- R22, R23, R24, R69, R167, R168: what a host read of each register gives at an idle port, a fault where
the register holds no value; and that at a busy port only `BUSY`, `DONE` and `DR` can be read (log 22,
log 23). Which registers hold a value is kept in the model's flags (log 8). -/
def Obligations.HostReadsFollowTheRules : Prop :=
  ∀ s : State,
    (s.busy = false →
      (∀ i, i < s.rlen → hostRead s (.rb i) = .ok (byteAt s.rb i).toNat) ∧
      (∀ i, s.rlen ≤ i → hostRead s (.rb i) = .error (.noValue (.rb i))) ∧
      hostRead s .rlen = .ok s.rlen ∧ hostRead s .errlog = .ok s.errlog.toNat ∧
      hostRead s .err = .ok (errCode s.err).toNat ∧
      hostRead s .feedSaved = .ok s.feedSaved.toNat ∧
      (s.opsLoaded = true → hostRead s .opa = .ok s.opa.toNat ∧
        hostRead s .opb = .ok s.opb.toNat ∧ hostRead s .opc = .ok s.opc.toNat) ∧
      (s.opsLoaded = false → ∀ r, r ∈ [HostReg.opa, .opb, .opc] →
        hostRead s r = .error (.noValue r)) ∧
      (s.sampleHeld = true → hostRead s .x = .ok s.x.toNat ∧ hostRead s .y = .ok s.y.toNat ∧
        hostRead s .z = .ok s.z.toNat ∧ hostRead s .btn = .ok s.btn.toNat ∧
        hostRead s .td = .ok s.td.toNat ∧ hostRead s .idle = .ok s.idle.toNat ∧
        hostRead s .hov = .ok s.hov.toNat) ∧
      (s.sampleHeld = false → ∀ r, r ∈ [HostReg.x, .y, .z, .btn, .td, .idle, .hov] →
        hostRead s r = .error (.noValue r)) ∧
      (s.scaledHeld = true → hostRead s .ox = .ok s.ox.toNat ∧ hostRead s .oy = .ok s.oy.toNat) ∧
      (s.scaledHeld = false → ∀ r, r ∈ [HostReg.ox, .oy] → hostRead s r = .error (.noValue r))) ∧
    hostRead s .busy = .ok s.busy.toNat ∧ hostRead s .done = .ok s.done.toNat ∧
    hostRead s .dr = .ok s.dr.toNat ∧
    (∀ r, r = .tmp ∨ r = .seq → hostRead s r = .error (.notHostVisible r)) ∧
    (s.busy = true → ∀ r, r ∉ [HostReg.busy, .done, .dr, .tmp, .seq] →
      hostRead s r = .error .engineBusy)

/-- R25, R168: a host read changes nothing but the sampled `DR`, or faults as the read does. -/
def Obligations.HostReadMoveChangesNothing : Prop :=
  ∀ (s : State) (r : HostReg) (rest : List Move), s.stageWord = none →
    s.moves = .readReg r :: rest →
    (∀ v, hostRead s r = .ok v → step s =
      .next { s with moves := rest, tick := s.tick + 1,
                     dr := Config.dataReady (s.tick + 1) s.trace }) ∧
    (∀ f, hostRead s r = .error f → step s = .fault f)

/-- R69, U7, log 11: no instruction runs at a busy port. -/
def Obligations.BusyPortTakesNoCommand : Prop :=
  ∀ (i : Instr) (s : State), s.busy = true → exec i s = .fault .engineBusy

/-! ### Ending a command -/

/-- R180, R14: the writes of `end with ERR = e`; bit `k` of `ERRLOG` is set if it was, or if `k` is the
code of the error; bit 0 is never set by it. -/
def Obligations.EndingACommandWritesTheStatus : Prop :=
  ∀ (s : State) (e : ErrKind),
    (s.endWith e = { s with err := e, errlog := (s.endWith e).errlog, seq := Sequencer.idle,
                            busy := false, done := true }) ∧
    (∀ k : Fin 5, (s.endWith e).errlog.getLsbD k = true ↔
      s.errlog.getLsbD k = true ∨ (e ≠ .none ∧ (errCode e).toNat = k)) ∧
    (errCode .none = 0 ∧ errCode .busFailure = 1 ∧ errCode .deviceTimeout = 2 ∧
      errCode .outOfRange = 3 ∧ errCode .illegalCommand = 4)

/-- R180, R69, R214: every host command, with any operands, at a free port and whatever the chip does,
ends in a next state with the four writes of R180. -/
def Obligations.EveryCommandEnds : Prop :=
  ∀ (i : Instr) (s : State), isHostCommand i = true → s.busy = false → s.resets = [] →
    ∃ t, exec i s = .next t ∧ Ended s t t.err ∧ t.resets = []

/-- R175: the kinds of error each command can end with, whatever the chip does. -/
def Obligations.ErrorKindsByCommand : Prop :=
  ∀ (i : Instr) (s t : State), s.resets = [] → exec i s = .next t →
    (isHostCommand i = true → t.err ∈ possibleErrors i) ∧
    (isHostCommand i = false → t.err = s.err ∨ t.err ∈ possibleErrors i)

/-- R14, R180: across any instruction that no reset cuts, a bit of `ERRLOG` is never cleared, and a
bit newly set is the code of the new `ERR`. -/
def Obligations.ErrlogIsSticky : Prop :=
  ∀ (i : Instr) (s t : State), s.resets = [] → exec i s = .next t → ∀ k : Fin 5,
    (s.errlog.getLsbD k = true → t.errlog.getLsbD k = true) ∧
    (s.errlog.getLsbD k = false → t.errlog.getLsbD k = true →
      (errCode t.err).toNat = k ∧ t.err ≠ .none)

/-! ### Commands without a transaction -/

/-- R165, R69: `NOP` ends with `ERR = 0` and writes nothing else but the latches of acceptance, which
R165's "writes no register but" does not name (log 13). -/
def Obligations.NopCompletes : Prop :=
  ∀ (a b : Word16) (s : State), s.busy = false →
    exec (.nop a b) s = .next { s with
      opa := a, opb := b, opc := 0x0, opsLoaded := true,
      err := .none, done := true, seq := Sequencer.idle }

/-- R166: `SET_IND level` drives the pin with `b[0]`, shows `IND(level)`, and ends with `ERR = 0`; no
transaction, no other register than those every command writes. -/
def Obligations.SetIndCompletes : Prop :=
  ∀ (a b : Word16) (s : State), s.busy = false → s.resets = [] →
    exec (.setInd a b) s = .next { s with
      opa := a, opb := b, opc := 0xE, opsLoaded := true,
      ind := b.getLsbD 0, trace := s.trace ++ [.ind (b.getLsbD 0)],
      err := .none, done := true, seq := Sequencer.idle }

/-- R72 (a), R179: the reserved op ends with `IllegalCommand`, and nothing but the status changes
(the latches do not: log 12). -/
def Obligations.ReservedOpEndsIllegal : Prop :=
  ∀ (a b : Word16) (s : State), s.busy = false →
    exec (.reservedF a b) s = .next { s with
      err := .illegalCommand, errlog := s.errlog ||| 0b10000, done := true, seq := Sequencer.idle }

/-- R72 (b), (c), R93, R179, C1: `RAP_RD` and `RAP_WR` with `a[6:0] > 0x1F`, and a read with
`count > MAX_COUNT`, end with `IllegalCommand` and no bus event; nothing but the status changes (the
latches do not: log 12). -/
def Obligations.IllegalOperandsAreRefused : Prop :=
  ∀ (a b : Word16) (s t : State), s.busy = false →
    t = { s with
      err := .illegalCommand, errlog := s.errlog ||| 0b10000, done := true, seq := Sequencer.idle } →
    (0x1F < a.toNat % 128 → exec (.rapRd a b) s = .next t ∧ exec (.rapWr a b) s = .next t) ∧
    (s.cfg.maxCount < b.toNat % 256 → exec (.rapRd a b) s = .next t ∧ exec (.eraRd a b) s = .next t)

/-- R133, R132: `CLIP` clamps `X` and `Y` into the window and changes no other register than those
every command writes; `TD`, `IDLE`, `HOV` keep describing the decoded sample, and what held no value
holds none. No bus event. -/
def Obligations.ClipCompletes : Prop :=
  ∀ (a b : Word16) (s : State), s.busy = false →
    exec (.clip a b) s = .next { s with
      opa := a, opb := b, opc := 0x8, opsLoaded := true,
      x := clamp s.x s.cfg.xLower s.cfg.xUpper, y := clamp s.y s.cfg.yLower s.cfg.yUpper,
      err := .none, done := true, seq := Sequencer.idle }

/-- R134: `SCALE rx, ry` clips `X`, `Y`, writes the floored quotients to `OX`, `OY`, and changes no
other register than those every command writes; no bus event. `OX`, `OY` are held after it,
whatever the sample registers held (log 8). -/
def Obligations.ScaleCompletes : Prop :=
  ∀ (a b : Word16) (s : State), s.busy = false → ∃ t, exec (.scale a b) s = .next t ∧
    t.x = clamp s.x s.cfg.xLower s.cfg.xUpper ∧ t.y = clamp s.y s.cfg.yLower s.cfg.yUpper ∧
    t.ox.toNat = (t.x.toNat - s.cfg.xLower.toNat) * a.toNat /
      (s.cfg.xUpper.toNat - s.cfg.xLower.toNat) ∧
    t.oy.toNat = (t.y.toNat - s.cfg.yLower.toNat) * b.toNat /
      (s.cfg.yUpper.toNat - s.cfg.yLower.toNat) ∧
    t = { s with
      opa := a, opb := b, opc := 0x9, opsLoaded := true,
      x := t.x, y := t.y, ox := t.ox, oy := t.oy, scaledHeld := true,
      err := .none, done := true, seq := Sequencer.idle }

/-- R131, R130, R178: `CHK_HOVER` sets `HOV` exactly when `Z` is at most the threshold of the zone,
row from `Y`, column from `X`; outside the map it ends with `OutOfRange` and `HOV` is unchanged. No
bus event, no other register than those every command writes. -/
def Obligations.ChkHoverCompletes : Prop :=
  ∀ (a b : Word16) (s : State), s.busy = false →
    let zx := s.x.toNat / s.cfg.zoneScale
    let zy := s.y.toNat / s.cfg.zoneScale
    (∀ row th, zx < s.cfg.mapCols → zy < s.cfg.mapRows → s.cfg.zhMap[zy]? = some row →
      row[zx]? = some th →
      exec (.chkHover a b) s = .next { s with
        opa := a, opb := b, opc := 0xA, opsLoaded := true, hov := decide (s.z.toNat ≤ th),
        err := .none, done := true, seq := Sequencer.idle }) ∧
    (s.cfg.mapCols ≤ zx ∨ s.cfg.mapRows ≤ zy →
      exec (.chkHover a b) s = .next { s with
        opa := a, opb := b, opc := 0xA, opsLoaded := true,
        err := .outOfRange, errlog := s.errlog ||| 0b01000, done := true, seq := Sequencer.idle })

/-- R178, R136: after `CLIP` or `SCALE`, `CHK_HOVER` never ends with `OutOfRange`: it ends with
`ERR = 0`, whatever the sample and the configuration. -/
def Obligations.HoverAfterClipIsInRange : Prop :=
  ∀ (a b a' b' : Word16) (s t : State), s.busy = false →
    (exec (.clip a b) s = .next t ∨ exec (.scale a b) s = .next t) →
    ∃ u, exec (.chkHover a' b') t = .next u ∧ u.err = .none ∧ u.errlog = s.errlog

/-! ### The pure functions -/

/-- R126, R66, C3: the packed decoder, with the fields written as the rule writes them, and the bits
it ignores; with the rule's example. -/
def Obligations.DecodeUnpacksTheBlock : Prop :=
  ∀ d0 d1 d2 d3 d4 d5 : Byte,
    let v := decodeBlock [d0, d1, d2, d3, d4, d5]
    v.btn.toNat = (d0 &&& 0x3F).toNat ∧
    v.x = d2.setWidth 12 ||| ((d4 &&& 0x0F).setWidth 12 <<< 8) ∧
    v.y = d3.setWidth 12 ||| ((d4 &&& 0xF0).setWidth 12 <<< 4) ∧
    v.z.toNat = (d5 &&& 0x3F).toNat ∧
    (∀ e0 e1 e5 : Byte, e0 &&& 0x3F = d0 &&& 0x3F → e5 &&& 0x3F = d5 &&& 0x3F →
      decodeBlock [e0, e1, d2, d3, d4, e5] = v) ∧
    decodeBlock [0x3F, 0xAA, 0xFF, 0x00, 0xF0, 0xC0] =
      { btn := 0x3F, x := 0x0FF, y := 0xF00, z := 0x00 }

/-- R127, R128, R16: the two presence predicates, that idle implies no touch, and where they differ. -/
def Obligations.PresencePredicatesDiffer : Prop :=
  ∀ (x y : Coord) (z : Field6),
    (touchDown x = true ↔ x ≠ 0) ∧ (isIdle x y z = true ↔ x = 0 ∧ y = 0 ∧ z = 0) ∧
    (isIdle x y z = true → touchDown x = false) ∧
    (touchDown x = false → isIdle x y z = false → x = 0 ∧ (y ≠ 0 ∨ z ≠ 0))

/-- R132: the clamp, both bounds inclusive, idempotent, inside the window, each axis by itself. -/
def Obligations.ClampStaysInTheWindow : Prop :=
  ∀ v lo hi : Coord, lo.toNat ≤ hi.toNat →
    (v.toNat < lo.toNat → clamp v lo hi = lo) ∧
    (hi.toNat < v.toNat → clamp v lo hi = hi) ∧
    (lo.toNat ≤ v.toNat → v.toNat ≤ hi.toNat → clamp v lo hi = v) ∧
    lo.toNat ≤ (clamp v lo hi).toNat ∧ (clamp v lo hi).toNat ≤ hi.toNat ∧
    clamp (clamp v lo hi) lo hi = clamp v lo hi ∧
    (∀ c : Config, clipX c.toParams v = clamp v c.xLower c.xUpper ∧
      clipY c.toParams v = clamp v c.yLower c.yUpper)

/-- R135, R134: on a clipped coordinate the scaler is the exact floor of the product by the range (it
never wraps), at most the resolution, 0 at the lower bound, the resolution at the upper, 0 for
resolution 0, and monotone. -/
def Obligations.ScalerIsExactAndBounded : Prop :=
  ∀ (lo hi v w : Coord) (res : Word16), lo.toNat < hi.toNat → lo.toNat ≤ v.toNat →
    v.toNat ≤ w.toNat → w.toNat ≤ hi.toNat →
    (scaleAxis v lo hi res).toNat =
      (v.toNat - lo.toNat) * res.toNat / (hi.toNat - lo.toNat) ∧
    (v.toNat - lo.toNat) * res.toNat ≤ 268365825 ∧
    (scaleAxis v lo hi res).toNat ≤ res.toNat ∧
    (scaleAxis v lo hi res).toNat ≤ (scaleAxis w lo hi res).toNat ∧
    scaleAxis lo lo hi res = 0 ∧ scaleAxis hi lo hi res = res ∧ scaleAxis v lo hi 0 = 0

/-- R67, R116, R150, R42: the bytes assembled for the wire: the feed byte differs from the one read in
at most the enable bit, which is as asked; the attenuation byte keeps bits 5:0 where the gain has
none and takes bits 7:6 from the gain; the address splits high byte and low byte. -/
def Obligations.AssembledBytesKeepOtherBits : Prop :=
  ∀ (c : Config) (old gain : Byte) (eaddr : Word16),
    (∀ e : Bool, feedByte c.toParams e old &&& ~~~c.feedEnMask = old &&& ~~~c.feedEnMask ∧
      feedBit c.toParams (feedByte c.toParams e old) = e) ∧
    (∀ k : Fin 8, (attenByte old gain).getLsbD k =
      ((decide (k.val < 6) && old.getLsbD k) || gain.getLsbD k)) ∧
    addrHigh eaddr ++ addrLow eaddr = eaddr

/-! ### RAP -/

/-- R91, R95, R61, R71, V49: `RAP_RD` with a legal address and count sends one read frame and leaves
the `count` data bytes in `RB`, whatever bytes come before and after them on the wire. That the latches
hold the command is log 13; that bytes of `RB` past the count are as before is log 19. -/
def Obligations.RapRdCompletes : Prop :=
  ∀ (a b : Word16) (s : State) (d : List Byte) (r : ChipReply) (rest : List ChipReply),
    s.busy = false → s.resets = [] → a.toNat % 128 ≤ 0x1F → b.toNat % 256 ≤ s.cfg.maxCount →
    s.chip = r :: rest → d.length = b.toNat % 256 → AnswersData d r →
    ∃ t, exec (.rapRd a b) s = .next t ∧ Ended s t .none ∧ Latched t 0x1 a b ∧
      t.rb = d ++ s.rb.drop d.length ∧ t.rlen = d.length ∧ t.chip = rest ∧
      (directIndex a).toNat = a.toNat % 128 ∧
      Sent s t [Act.R s.cfg.toParams (directIndex a) (b.toNat % 256)] ∧
      SameBeyondBus s t ∧ SameScratch s t

/-- R92, R95, R62, V3: `RAP_WR` with a legal address sends one write frame with the low byte of `b`
and writes no register but the status (and the latches of acceptance, log 13). -/
def Obligations.RapWrCompletes : Prop :=
  ∀ (a b : Word16) (s : State) (r : ChipReply) (rest : List ChipReply),
    s.busy = false → s.resets = [] → a.toNat % 128 ≤ 0x1F → s.chip = r :: rest → Answers r →
    ∃ t, exec (.rapWr a b) s = .next t ∧ Ended s t .none ∧ Latched t 0x2 a b ∧ t.chip = rest ∧
      (directIndex a).toNat = a.toNat % 128 ∧
      Sent s t [Act.W s.cfg.toParams (directIndex a) (b.extractLsb' 0 8)] ∧
      SameBeyondBus s t ∧ SameBuffer s t ∧ SameScratch s t

/-- R94, R95, R176, R181, V10: when the exchange fails, `RAP_RD` and `RAP_WR` end with `BusFailure`
after one frame, select low, `RB` and `RLEN` unchanged; the frame is not sent again. That the trace shows
the failed frame, and that it uses up an answer, is the model's choice (log 5). -/
def Obligations.RapFailureEndsTheCommand : Prop :=
  ∀ (a b : Word16) (s : State) (rest : List ChipReply),
    s.busy = false → s.resets = [] → a.toNat % 128 ≤ 0x1F → s.chip = .fail :: rest →
    (b.toNat % 256 ≤ s.cfg.maxCount →
      ∃ t, exec (.rapRd a b) s = .next t ∧ Ended s t .busFailure ∧ t.chip = rest ∧
      Sent s t [Act.RFail s.cfg.toParams (directIndex a) (b.toNat % 256)] ∧
      SameBeyondBus s t ∧ SameBuffer s t ∧ SameScratch s t) ∧
    (∃ t, exec (.rapWr a b) s = .next t ∧ Ended s t .busFailure ∧ t.chip = rest ∧
      Sent s t [Act.WFail s.cfg.toParams (directIndex a) (b.extractLsb' 0 8)] ∧
      SameBeyondBus s t ∧ SameBuffer s t ∧ SameScratch s t)

/-- R61, R62, R91, R92: the two wire frames run by themselves send exactly their frame and change
nothing else but `SEQ`, which is at rest after (what such a run does is the model's choice, log 15). -/
def Obligations.WireFramesComplete : Prop :=
  ∀ (k : RegAddr) (n : Nat) (v : Byte) (s : State) (r : ChipReply) (rest : List ChipReply),
    s.busy = false → s.resets = [] → s.chip = r :: rest → Answers r →
    (∃ t, exec (.frameRapRead k n) s = .next t ∧ Sent s t [Act.R s.cfg.toParams k n] ∧
      t = { s with seq := Sequencer.idle, chip := rest, trace := t.trace, sel := false }) ∧
    (∃ t, exec (.frameRapWrite k v) s = .next t ∧ Sent s t [Act.W s.cfg.toParams k v] ∧
      t = { s with seq := Sequencer.idle, chip := rest, trace := t.trace, sel := false })

/-! ### Feed and flags -/

/-- R115, R49: `CLR_FLAGS` writes 0x00 to 0x02, then settles, and writes no register but the status
(and the latches, log 13). -/
def Obligations.ClrFlagsCompletes : Prop :=
  ∀ (a b : Word16) (s : State) (r : ChipReply) (rest : List ChipReply),
    s.busy = false → s.resets = [] → s.chip = r :: rest → Answers r →
    ∃ t, exec (.clrFlags a b) s = .next t ∧ Ended s t .none ∧ Latched t 0x5 a b ∧ t.chip = rest ∧
      Sent s t [Act.W s.cfg.toParams 0x02 0x00, .settle] ∧
      SameBeyondBus s t ∧ SameBuffer s t ∧ SameScratch s t

/-- R115, V12: when the write of `CLR_FLAGS` fails there is no settle delay, and the command ends with
`BusFailure`. That the trace shows the failed write is the model's choice (log 5). -/
def Obligations.ClrFlagsFailureHasNoSettle : Prop :=
  ∀ (a b : Word16) (s : State) (rest : List ChipReply),
    s.busy = false → s.resets = [] → s.chip = .fail :: rest →
    ∃ t, exec (.clrFlags a b) s = .next t ∧ Ended s t .busFailure ∧ t.chip = rest ∧
      Sent s t [Act.WFail s.cfg.toParams 0x02 0x00] ∧
      SameBeyondBus s t ∧ SameBuffer s t ∧ SameScratch s t

/-- R116, D30, V13 to V16: `SET_FEED` reads 0x04 and writes the byte back with the enable bit as `b[0]`
says, the other bits kept, also when nothing changes; `TMP` holds the byte read, `FEED_SAVED` is
kept. -/
def Obligations.SetFeedCompletes : Prop :=
  ∀ (a b : Word16) (s : State) (old : Byte) (r w : ChipReply) (rest : List ChipReply),
    s.busy = false → s.resets = [] → s.chip = r :: w :: rest → AnswersData [old] r → Answers w →
    ∃ t, exec (.setFeed a b) s = .next t ∧ Ended s t .none ∧ Latched t 0x6 a b ∧ t.chip = rest ∧
      Sent s t [Act.R s.cfg.toParams 0x04 1,
        Act.W s.cfg.toParams 0x04
          (if b.getLsbD 0 then old ||| s.cfg.feedEnMask else old &&& ~~~s.cfg.feedEnMask)] ∧
      t.tmp = old ∧ t.feedSaved = s.feedSaved ∧ SameBeyondBus s t ∧ SameBuffer s t

/-- R116, V17, V18: `SET_FEED` with a failing read sends no write and keeps `TMP`; with a failing write
`TMP` holds the byte read. Both end with `BusFailure`. That the trace shows the failed frame is the model's
choice (log 5). -/
def Obligations.SetFeedFailures : Prop :=
  ∀ (a b : Word16) (s : State) (rest : List ChipReply), s.busy = false → s.resets = [] →
    (s.chip = .fail :: rest →
      ∃ t, exec (.setFeed a b) s = .next t ∧ Ended s t .busFailure ∧ t.chip = rest ∧
        Sent s t [Act.RFail s.cfg.toParams 0x04 1] ∧
        SameBeyondBus s t ∧ SameBuffer s t ∧ SameScratch s t) ∧
    (∀ old r, s.chip = r :: .fail :: rest → AnswersData [old] r →
      ∃ t, exec (.setFeed a b) s = .next t ∧ Ended s t .busFailure ∧ t.chip = rest ∧
        Sent s t [Act.R s.cfg.toParams 0x04 1,
          Act.WFail s.cfg.toParams 0x04 (feedByte s.cfg.toParams (b.getLsbD 0) old)] ∧
        t.tmp = old ∧ t.feedSaved = s.feedSaved ∧ SameBeyondBus s t ∧ SameBuffer s t)

/-! ### The sample -/

/-- R125, R126, R127, R128, R15 to R17: `GET_ABS` reads six bytes at 0x12, clears the flags, keeps the
raw bytes in `RB[0..5]`, and writes the seven sample registers afresh; `OX`, `OY` are untouched. That bytes
of `RB` past the sixth are as before is log 19. -/
def Obligations.GetAbsCompletes : Prop :=
  ∀ (a b : Word16) (s : State) (d : List Byte) (r w : ChipReply) (rest : List ChipReply),
    s.busy = false → s.resets = [] → s.chip = r :: w :: rest → d.length = 6 →
    AnswersData d r → Answers w →
    let v := decodeBlock d
    ∃ t, exec (.getAbs a b) s = .next t ∧ Ended s t .none ∧ Latched t 0x7 a b ∧ t.chip = rest ∧
      Sent s t [Act.R s.cfg.toParams 0x12 6, Act.W s.cfg.toParams 0x02 0x00, .settle] ∧
      t.rb = d ++ s.rb.drop 6 ∧ t.rlen = 6 ∧
      t.btn = v.btn ∧ t.x = v.x ∧ t.y = v.y ∧ t.z = v.z ∧
      t.td = decide (v.x ≠ 0) ∧ t.idle = decide (v.x = 0 ∧ v.y = 0 ∧ v.z = 0) ∧ t.hov = false ∧
      t.sampleHeld = true ∧
      SameWorld s t ∧ SameScaled s t ∧ t.ind = s.ind ∧ SameScratch s t

/-- R125, R181: `GET_ABS` with a failing read or a failing flag clear ends with `BusFailure`, the
sample registers, `RB` and `RLEN` as before; a sample read before the clear failed is dropped. That the
trace shows the failed frame is the model's choice (log 5). -/
def Obligations.GetAbsFailuresKeepTheSample : Prop :=
  ∀ (a b : Word16) (s : State) (rest : List ChipReply), s.busy = false → s.resets = [] →
    (s.chip = .fail :: rest →
      ∃ t, exec (.getAbs a b) s = .next t ∧ Ended s t .busFailure ∧ t.chip = rest ∧
        Sent s t [Act.RFail s.cfg.toParams 0x12 6] ∧
        SameBeyondBus s t ∧ SameBuffer s t ∧ SameScratch s t) ∧
    (∀ r, s.chip = r :: .fail :: rest → Answers r →
      ∃ t, exec (.getAbs a b) s = .next t ∧ Ended s t .busFailure ∧ t.chip = rest ∧
        Sent s t [Act.R s.cfg.toParams 0x12 6, Act.WFail s.cfg.toParams 0x02 0x00] ∧
        SameBeyondBus s t ∧ SameBuffer s t ∧ SameScratch s t)

/-! ### ERA -/

/-- R102, R105, R107, R101, R104, R106, C2: `ERA_WR` sends exactly the trace of R102, data before
address, the poll making the reads the chip needs up to the bound, and restores the feed bit only if
the configuration asks and it was set; it writes `TMP` and `FEED_SAVED`, no `RB`, no sample
register. -/
def Obligations.EraWrCompletes : Prop :=
  ∀ (a b : Word16) (s : State) (c : EraTalk) (rs rest : List ChipReply),
    s.busy = false → s.resets = [] → s.chip = rs ++ rest → EraWriteReplies s.cfg.toParams c rs →
    c.InBound s.cfg.toParams →
    ∃ t, exec (.eraWr a b) s = .next t ∧ Ended s t .none ∧ Latched t 0x4 a b ∧ t.chip = rest ∧
      Sent s t (eraWriteActs s.cfg.toParams a (b.extractLsb' 0 8) c) ∧
      t.feedSaved = feedBit s.cfg.toParams c.feed ∧ t.tmp = c.lastTmp s.cfg.toParams ∧
      SameBeyondBus s t ∧ SameBuffer s t

/-- R103, R105, R101, R104, R106, C4: `ERA_RD` loads the address once, runs `count` full cycles of
trigger, poll, fetch and flag clear (none for count 0), and leaves the bytes fetched in `RB`. That bytes of
`RB` past the count are as before is log 19. -/
def Obligations.EraRdCompletes : Prop :=
  ∀ (a b : Word16) (s : State) (c : EraTalk) (rs rest : List ChipReply),
    s.busy = false → s.resets = [] → b.toNat % 256 ≤ s.cfg.maxCount → s.chip = rs ++ rest →
    c.data.length = b.toNat % 256 → EraReadReplies s.cfg.toParams c rs →
    c.InBound s.cfg.toParams →
    ∃ t, exec (.eraRd a b) s = .next t ∧ Ended s t .none ∧ Latched t 0x3 a b ∧ t.chip = rest ∧
      Sent s t (eraReadActs s.cfg.toParams a c) ∧
      t.rb = c.data ++ s.rb.drop c.data.length ∧ t.rlen = c.data.length ∧
      t.feedSaved = feedBit s.cfg.toParams c.feed ∧ t.tmp = c.lastTmp s.cfg.toParams ∧
      SameBeyondBus s t

/-- R104, R177, R106, R116, V20, P4, P4b: when `POLL_BOUND` reads of 0x1E all give a nonzero byte,
`ERA_WR` ends with `DeviceTimeout` after exactly those reads: no flag clear, no settle, nothing but the
restore of the feed bit where it is configured. `TMP` holds the last byte of the poll; or the byte the
restore read, since the restore is a `SetFeed`, which writes `TMP` (R106, R116; R175 names the poll's
byte only: log 32). -/
def Obligations.EraWrTimesOut : Prop :=
  ∀ (a b : Word16) (s : State) (c : EraTalk) (last : Byte) (r1 r2 r3 rest : List ChipReply),
    s.busy = false → s.resets = [] → s.chip = r1 ++ r2 ++ r3 ++ rest →
    TriggerReplies c.feed r1 → BusyReplies s.cfg.pollBound last r2 →
    RestoreReplies s.cfg.toParams c r3 →
    ∃ t, exec (.eraWr a b) s = .next t ∧ Ended s t .deviceTimeout ∧ t.chip = rest ∧
      Sent s t (triggerActs s.cfg.toParams a (b.extractLsb' 0 8) c.feed ++
        List.replicate s.cfg.pollBound (Act.R s.cfg.toParams 0x1E 1) ++
        restoreActs s.cfg.toParams c) ∧
      t.feedSaved = feedBit s.cfg.toParams c.feed ∧
      t.tmp = (if c.restores s.cfg.toParams then c.after else last) ∧
      SameBeyondBus s t ∧ SameBuffer s t

/-- R105, R104, R106, R181, V25: an `ERA_RD` whose poll times out after some whole cycles delivers none of
the bytes already fetched: `RB` and `RLEN` are unchanged. The feed bit is restored where that is
configured, and `TMP` then holds the byte the restore read (log 32). -/
def Obligations.EraRdTimeoutDeliversNothing : Prop :=
  ∀ (a b : Word16) (s : State) (c : EraTalk) (last : Byte) (r0 w : ChipReply)
    (ws cs ps xs rest : List ChipReply),
    s.busy = false → s.resets = [] → b.toNat % 256 ≤ s.cfg.maxCount →
    c.data.length < b.toNat % 256 →
    s.chip = r0 :: ws ++ cs ++ w :: ps ++ xs ++ rest →
    AnswersData [c.feed] r0 → ws.length = 3 → (∀ r ∈ ws, Answers r) →
    CycleReplies c.polls c.data cs → c.InBound s.cfg.toParams →
    Answers w → BusyReplies s.cfg.pollBound last ps → RestoreReplies s.cfg.toParams c xs →
    ∃ t, exec (.eraRd a b) s = .next t ∧ Ended s t .deviceTimeout ∧ t.chip = rest ∧
      Sent s t (beginActs s.cfg.toParams c.feed ++ addrActs s.cfg.toParams a ++
        cyclesActs s.cfg.toParams c.polls ++ [Act.W s.cfg.toParams 0x1E 0x05] ++
        List.replicate s.cfg.pollBound (Act.R s.cfg.toParams 0x1E 1) ++
        restoreActs s.cfg.toParams c) ∧
      t.feedSaved = feedBit s.cfg.toParams c.feed ∧
      t.tmp = (if c.restores s.cfg.toParams then c.after else last) ∧
      SameBeyondBus s t ∧ SameBuffer s t

/-- R104, R182, R106, V21: a failing poll read within the bound ends `ERA_WR` with `BusFailure`, not
`DeviceTimeout`, and no further frame is sent but the restore of the feed bit where it is configured. That
the trace shows the failed read is the model's choice (log 5). -/
def Obligations.PollBusFailureWins : Prop :=
  ∀ (a b : Word16) (s : State) (c : EraTalk) (r1 r2 r3 rest : List ChipReply),
    s.busy = false → s.resets = [] → s.chip = r1 ++ r2 ++ .fail :: r3 ++ rest →
    TriggerReplies c.feed r1 → r2.length < s.cfg.pollBound →
    (∀ x ∈ r2, ∃ v : Byte, v ≠ 0 ∧ AnswersData [v] x) → RestoreReplies s.cfg.toParams c r3 →
    ∃ t, exec (.eraWr a b) s = .next t ∧ Ended s t .busFailure ∧ t.chip = rest ∧
      Sent s t (triggerActs s.cfg.toParams a (b.extractLsb' 0 8) c.feed ++
        List.replicate r2.length (Act.R s.cfg.toParams 0x1E 1) ++
        [Act.RFail s.cfg.toParams 0x1E 1] ++ restoreActs s.cfg.toParams c) ∧
      t.feedSaved = feedBit s.cfg.toParams c.feed ∧
      (c.restores s.cfg.toParams = true → t.tmp = c.after) ∧
      SameBeyondBus s t ∧ SameBuffer s t

/-- R106, R116, R182: with the feed restore configured and the bit set before, a restore that fails, in
its read or in its write, is the error of an `ERA_WR` that had none, and hides neither the `DeviceTimeout`
nor the `BusFailure` of one that had its own. That the trace shows the failed frames is the model's choice
(log 5). -/
def Obligations.RestoreFailureNeverHidesAnError : Prop :=
  ∀ (a b : Word16) (s : State) (feed : Byte) (r1 xs rest : List ChipReply) (X : List Act),
    s.busy = false → s.resets = [] → s.cfg.eraRestoreFeed = true →
    feedBit s.cfg.toParams feed = true → TriggerReplies feed r1 →
    RestoreFails s.cfg.toParams xs X →
    (∀ k r2 w, s.chip = r1 ++ r2 ++ w :: xs ++ rest → PollReplies k r2 → k ≤ s.cfg.pollBound →
      Answers w →
      ∃ t, exec (.eraWr a b) s = .next t ∧ Ended s t .busFailure ∧ t.chip = rest ∧
        Sent s t (triggerActs s.cfg.toParams a (b.extractLsb' 0 8) feed ++
          List.replicate k (Act.R s.cfg.toParams 0x1E 1) ++ clearActs s.cfg.toParams ++ X) ∧
        SameBeyondBus s t ∧ SameBuffer s t) ∧
    (∀ last r2, s.chip = r1 ++ r2 ++ xs ++ rest → BusyReplies s.cfg.pollBound last r2 →
      ∃ t, exec (.eraWr a b) s = .next t ∧ Ended s t .deviceTimeout ∧ t.chip = rest ∧
        Sent s t (triggerActs s.cfg.toParams a (b.extractLsb' 0 8) feed ++
          List.replicate s.cfg.pollBound (Act.R s.cfg.toParams 0x1E 1) ++ X) ∧
        SameBeyondBus s t ∧ SameBuffer s t) ∧
    (∀ r2, s.chip = r1 ++ r2 ++ .fail :: xs ++ rest → r2.length < s.cfg.pollBound →
      (∀ x ∈ r2, ∃ v : Byte, v ≠ 0 ∧ AnswersData [v] x) →
      ∃ t, exec (.eraWr a b) s = .next t ∧ Ended s t .busFailure ∧ t.chip = rest ∧
        Sent s t (triggerActs s.cfg.toParams a (b.extractLsb' 0 8) feed ++
          List.replicate r2.length (Act.R s.cfg.toParams 0x1E 1) ++
          [Act.RFail s.cfg.toParams 0x1E 1] ++ X) ∧
        SameBeyondBus s t ∧ SameBuffer s t)

/-- R65: the two trigger codes run by themselves write 0x02, 0x05 to 0x1E and change nothing else but
`SEQ`, which is at rest after (what such a run does is the model's choice, log 15). -/
def Obligations.EraTriggerCodesComplete : Prop :=
  ∀ (s : State) (r : ChipReply) (rest : List ChipReply),
    s.busy = false → s.resets = [] → s.chip = r :: rest → Answers r →
    (∃ t, exec .eraCodeWrite s = .next t ∧ Sent s t [Act.W s.cfg.toParams 0x1E 0x02] ∧
      t = { s with seq := Sequencer.idle, chip := rest, trace := t.trace, sel := false }) ∧
    (∃ t, exec .eraCodeRead s = .next t ∧ Sent s t [Act.W s.cfg.toParams 0x1E 0x05] ∧
      t = { s with seq := Sequencer.idle, chip := rest, trace := t.trace, sel := false })

/-- R65, R104, R50, R177: the completion code run by itself is the poll: it reads 0x1E until it finds
0x00, here at its `k`-th read within the bound; after `POLL_BOUND` nonzero bytes it raises
`DeviceTimeout` (what such a run does is the model's choice, log 15). -/
def Obligations.EraDoneCodePolls : Prop :=
  ∀ (s : State) (rs rest : List ChipReply), s.busy = false → s.resets = [] →
    s.chip = rs ++ rest →
    (∀ k, PollReplies k rs → k ≤ s.cfg.pollBound →
      ∃ t, exec .eraCodeDone s = .next t ∧
        Sent s t (List.replicate k (Act.R s.cfg.toParams 0x1E 1)) ∧
        t = { s with
          seq := Sequencer.idle, tmp := 0x00, chip := rest, trace := t.trace, sel := false }) ∧
    (∀ last, BusyReplies s.cfg.pollBound last rs →
      ∃ t, exec .eraCodeDone s = .next t ∧ Ended s t .deviceTimeout ∧
        Sent s t (List.replicate s.cfg.pollBound (Act.R s.cfg.toParams 0x1E 1)) ∧
        t.tmp = last ∧ t.chip = rest ∧ t.feedSaved = s.feedSaved ∧ SameLatches s t ∧
        SameBeyondBus s t ∧ SameBuffer s t)

/-! ### Tuning and initialisation -/

/-- R150, R36, U13, U17: `SET_ATTEN` reads 0x0187, writes it back with bits 7:6 replaced and the gain
code OR'd in as given, reads it again, and leaves the byte of that last read in `RB[0]`, `RLEN = 1`,
without comparing it. That bytes of `RB` past the first are as before is log 19. -/
def Obligations.SetAttenCompletes : Prop :=
  ∀ (a b : Word16) (s : State) (c1 c2 c3 : EraTalk) (rs rest : List ChipReply),
    s.busy = false → s.resets = [] → s.chip = rs ++ rest →
    AttenReplies s.cfg.toParams c1 c2 c3 rs → c1.InBound s.cfg.toParams →
    c2.InBound s.cfg.toParams → c3.InBound s.cfg.toParams →
    ∃ t, exec (.setAtten a b) s = .next t ∧ Ended s t .none ∧ Latched t 0xB a b ∧ t.chip = rest ∧
      Sent s t (attenActs s.cfg.toParams (b.extractLsb' 0 8) c1 c2 c3) ∧
      t.rb = c3.data ++ s.rb.drop 1 ∧ t.rlen = 1 ∧
      t.feedSaved = feedBit s.cfg.toParams c3.feed ∧ t.tmp = c3.lastTmp s.cfg.toParams ∧
      SameBeyondBus s t

/-- R151, R36: `TUNE_EDGE` writes `EDGE_A_VAL` to 0x0149, then `EDGE_B_VAL` to 0x0168, each by one ERA
write, with no read-back. -/
def Obligations.TuneEdgeCompletes : Prop :=
  ∀ (a b : Word16) (s : State) (c1 c2 : EraTalk) (rs rest : List ChipReply),
    s.busy = false → s.resets = [] → s.chip = rs ++ rest →
    EdgeReplies s.cfg.toParams c1 c2 rs → c1.InBound s.cfg.toParams → c2.InBound s.cfg.toParams →
    ∃ t, exec (.tuneEdge a b) s = .next t ∧ Ended s t .none ∧ Latched t 0xC a b ∧ t.chip = rest ∧
      Sent s t (eraWriteActs s.cfg.toParams 0x0149 s.cfg.edgeAVal c1 ++
        eraWriteActs s.cfg.toParams 0x0168 s.cfg.edgeBVal c2) ∧
      t.feedSaved = feedBit s.cfg.toParams c2.feed ∧ t.tmp = c2.lastTmp s.cfg.toParams ∧
      SameBeyondBus s t ∧ SameBuffer s t

/-- R152, R153, R203: `INIT` clears the flags, writes `BASE_CFG` in list order, tunes the attenuation
with `INIT_GAIN`, then the edges, in that order and nothing after; its `RB`, `RLEN` are those of the
attenuation part. That bytes of `RB` past the first are as before is log 19. -/
def Obligations.InitCompletes : Prop :=
  ∀ (a b : Word16) (s : State) (c1 c2 c3 c4 c5 : EraTalk) (w : ChipReply)
    (bs r1 r2 rest : List ChipReply),
    s.busy = false → s.resets = [] → s.chip = w :: bs ++ r1 ++ r2 ++ rest →
    Answers w → bs.length = s.cfg.baseCfg.length → (∀ r ∈ bs, Answers r) →
    AttenReplies s.cfg.toParams c1 c2 c3 r1 → EdgeReplies s.cfg.toParams c4 c5 r2 →
    (∀ c ∈ [c1, c2, c3, c4, c5], c.InBound s.cfg.toParams) →
    ∃ t, exec (.init a b) s = .next t ∧ Ended s t .none ∧ Latched t 0xD a b ∧ t.chip = rest ∧
      Sent s t (clearActs s.cfg.toParams ++ baseActs s.cfg.toParams ++
        attenActs s.cfg.toParams s.cfg.initGain c1 c2 c3 ++ edgeActs s.cfg.toParams c4 c5) ∧
      t.rb = c3.data ++ s.rb.drop 1 ∧ t.rlen = 1 ∧
      t.feedSaved = feedBit s.cfg.toParams c5.feed ∧ t.tmp = c5.lastTmp s.cfg.toParams ∧
      SameBeyondBus s t

/-- R181, R152, C10: once the attenuation part of `INIT` has run, its `RB[0]`, `RLEN` stand however the
edge tuning ends, whatever the chip does in it; and when the first frame of the edge tuning fails, `INIT`
ends with `BusFailure` and sends nothing more, no restore either (log 21). That the trace shows the failed
frame is the model's choice (log 5); that bytes of `RB` past the first are as before is log 19. -/
def Obligations.InitEdgeFailureKeepsTheConfirmation : Prop :=
  ∀ (a b : Word16) (s : State) (c1 c2 c3 : EraTalk) (w : ChipReply) (bs r1 more : List ChipReply),
    s.busy = false → s.resets = [] → s.chip = w :: bs ++ r1 ++ more →
    Answers w → bs.length = s.cfg.baseCfg.length → (∀ r ∈ bs, Answers r) →
    AttenReplies s.cfg.toParams c1 c2 c3 r1 →
    (∀ c ∈ [c1, c2, c3], c.InBound s.cfg.toParams) →
    let sent := clearActs s.cfg.toParams ++ baseActs s.cfg.toParams ++
      attenActs s.cfg.toParams s.cfg.initGain c1 c2 c3
    ∃ t, exec (.init a b) s = .next t ∧ Ended s t t.err ∧
      t.err ∈ [ErrKind.none, .busFailure, .deviceTimeout] ∧
      (∃ edge, actsOf t.trace = actsOf s.trace ++ sent ++ edge) ∧
      t.rb = c3.data ++ s.rb.drop 1 ∧ t.rlen = 1 ∧ SameBeyondBus s t ∧
      (∀ rest, more = .fail :: rest → t.err = .busFailure ∧ t.chip = rest ∧
        Sent s t (sent ++ [Act.RFail s.cfg.toParams 0x04 1]))

/-! ### The whole machine -/

/-- R181, R95, R105, R125: whatever the chip does, a command of R181's list that ends with an error
leaves `RB`, `RLEN` and the sample registers as they were. -/
def Obligations.ErrorsKeepTheResultRegisters : Prop :=
  ∀ (a b : Word16) (i : Instr) (s t : State),
    i ∈ [Instr.rapRd a b, .eraRd a b, .getAbs a b, .setAtten a b] → s.resets = [] →
    exec i s = .next t → t.err ≠ .none → SameBuffer s t ∧ SameSample s t

/-- R15 to R17, R21 to R24, R28: whatever the chip does, a register changes only under the commands its
rule names (a reset aside). -/
def Obligations.RegistersChangeOnlyUnderTheirCommands : Prop :=
  ∀ (i : Instr) (s t : State), s.resets = [] → exec i s = .next t →
    (t.btn ≠ s.btn ∨ t.z ≠ s.z ∨ t.td ≠ s.td ∨ t.idle ≠ s.idle → ∃ a b, i = .getAbs a b) ∧
    (t.hov ≠ s.hov → ∃ a b, i = .getAbs a b ∨ i = .chkHover a b) ∧
    (t.x ≠ s.x ∨ t.y ≠ s.y → ∃ a b, i = .getAbs a b ∨ i = .clip a b ∨ i = .scale a b) ∧
    (t.ox ≠ s.ox ∨ t.oy ≠ s.oy → ∃ a b, i = .scale a b) ∧
    (t.ind ≠ s.ind → ∃ a b, i = .setInd a b) ∧
    (t.rb ≠ s.rb ∨ t.rlen ≠ s.rlen → ∃ a b,
      i = .rapRd a b ∨ i = .eraRd a b ∨ i = .getAbs a b ∨ i = .setAtten a b ∨ i = .init a b) ∧
    (t.feedSaved ≠ s.feedSaved → ∃ a b,
      i = .eraRd a b ∨ i = .eraWr a b ∨ i = .setAtten a b ∨ i = .tuneEdge a b ∨ i = .init a b) ∧
    t.cfg = s.cfg ∧ t.moves = s.moves ∧ t.stageWord = s.stageWord ∧ t.dr = s.dr

/-- R64, R95, D25: whatever the chip clocks in at the positions the engine discards, a host command
leaves the same registers and sends the same frames (as long as the script answers all of it). -/
def Obligations.DiscardedBytesDoNotMatter : Prop :=
  ∀ (i : Instr) (s s' t : State), isHostCommand i = true → SameButReplies s s' →
    exec i s = .next t → t.chip ≠ [] → ∃ t', exec i s' = .next t' ∧ SameButReplies t t'

/-- R214, R104: every instruction is bounded: whatever the chip does it sends at most so many frames,
the bounds of R214 for the ERA operations and their sums for the composite commands. The bounds of the wire
frames and ERA codes run by themselves are those of the model's choice of what they do (log 15). -/
def Obligations.FramesAreBounded : Prop :=
  ∀ (i : Instr) (s t : State), exec i s = .next t →
    ∃ ev, t.trace = s.trace ++ ev ∧ frameCount ev ≤ frameBound s.cfg.toParams i

/-- R11, R13, R14, R16, R22, R49, R60, R83: every step, of any instruction, host read or reset, and
whatever the chip does, keeps the invariant of a machine between two commands. -/
def Obligations.StepKeepsTheInvariant : Prop :=
  ∀ s t : State, s.Inv → step s = .next t → t.Inv

/-- R38: the machine after reset has the invariant, under every configuration. The registers R38 calls
unspecified have the values of log 7. -/
def Obligations.ResetHasTheInvariant : Prop :=
  (∀ c : Config, (State.resetWith c).Inv) ∧ State.reset.Inv
end

