-- ==== Sys2Proof/Laws/State.lean ====
section
/-!
SUPPORT. The parameters with a fixed value, and one lemma per field per register update: what `endWith`, `accept`, `resetEngine`,
`storeRead`, `storeSample`, `clipXY`, `scaleXY` and `sampleDr` leave in each field of the state.
-/

namespace Sys2Proof.Machine

variable (s : State)

/-! ### The fixed parameters (R6, R32, R36) -/

/-- Every configuration has the values R6 calls fixed. -/
theorem config_fixed (c : Config) :
    (c.rapAddrMax = 0x1F ∧ c.feedReg = 0x04) ∧
      (c.attenAddr = 0x0187 ∧ c.edgeAAddr = 0x0149 ∧ c.edgeBAddr = 0x0168) := by
  obtain ⟨-, -, -, -, -, -, -, -, -, h, h'⟩ := c.wf
  exact ⟨h, h'⟩

@[simp] theorem config_rapAddrMax (c : Config) : c.rapAddrMax = 0x1F := (config_fixed c).1.1
@[simp] theorem config_feedReg (c : Config) : c.feedReg = 0x04 := (config_fixed c).1.2
@[simp] theorem config_attenAddr (c : Config) : c.attenAddr = 0x0187 := (config_fixed c).2.1
@[simp] theorem config_edgeAAddr (c : Config) : c.edgeAAddr = 0x0149 := (config_fixed c).2.2.1
@[simp] theorem config_edgeBAddr (c : Config) : c.edgeBAddr = 0x0168 := (config_fixed c).2.2.2

/-! ### `endWith` -/

@[simp] theorem State.endWith_seq (e : ErrKind) : (s.endWith e).seq = Sequencer.idle := rfl
@[simp] theorem State.endWith_busy (e : ErrKind) : (s.endWith e).busy = false := rfl
@[simp] theorem State.endWith_done (e : ErrKind) : (s.endWith e).done = true := rfl
@[simp] theorem State.endWith_err (e : ErrKind) : (s.endWith e).err = e := rfl
@[simp] theorem State.endWith_errlog (e : ErrKind) :
    (s.endWith e).errlog = logError s.errlog e := rfl
@[simp] theorem State.endWith_opa (e : ErrKind) : (s.endWith e).opa = s.opa := rfl
@[simp] theorem State.endWith_opb (e : ErrKind) : (s.endWith e).opb = s.opb := rfl
@[simp] theorem State.endWith_opc (e : ErrKind) : (s.endWith e).opc = s.opc := rfl
@[simp] theorem State.endWith_tmp (e : ErrKind) : (s.endWith e).tmp = s.tmp := rfl
@[simp] theorem State.endWith_feedSaved (e : ErrKind) : (s.endWith e).feedSaved = s.feedSaved := rfl
@[simp] theorem State.endWith_rb (e : ErrKind) : (s.endWith e).rb = s.rb := rfl
@[simp] theorem State.endWith_rlen (e : ErrKind) : (s.endWith e).rlen = s.rlen := rfl
@[simp] theorem State.endWith_btn (e : ErrKind) : (s.endWith e).btn = s.btn := rfl
@[simp] theorem State.endWith_x (e : ErrKind) : (s.endWith e).x = s.x := rfl
@[simp] theorem State.endWith_y (e : ErrKind) : (s.endWith e).y = s.y := rfl
@[simp] theorem State.endWith_z (e : ErrKind) : (s.endWith e).z = s.z := rfl
@[simp] theorem State.endWith_td (e : ErrKind) : (s.endWith e).td = s.td := rfl
@[simp] theorem State.endWith_idle (e : ErrKind) : (s.endWith e).idle = s.idle := rfl
@[simp] theorem State.endWith_hov (e : ErrKind) : (s.endWith e).hov = s.hov := rfl
@[simp] theorem State.endWith_ox (e : ErrKind) : (s.endWith e).ox = s.ox := rfl
@[simp] theorem State.endWith_oy (e : ErrKind) : (s.endWith e).oy = s.oy := rfl
@[simp] theorem State.endWith_sel (e : ErrKind) : (s.endWith e).sel = s.sel := rfl
@[simp] theorem State.endWith_ind (e : ErrKind) : (s.endWith e).ind = s.ind := rfl
@[simp] theorem State.endWith_dr (e : ErrKind) : (s.endWith e).dr = s.dr := rfl
@[simp] theorem State.endWith_trace (e : ErrKind) : (s.endWith e).trace = s.trace := rfl
@[simp] theorem State.endWith_cfg (e : ErrKind) : (s.endWith e).cfg = s.cfg := rfl
@[simp] theorem State.endWith_chip (e : ErrKind) : (s.endWith e).chip = s.chip := rfl
@[simp] theorem State.endWith_resets (e : ErrKind) : (s.endWith e).resets = s.resets := rfl
@[simp] theorem State.endWith_moves (e : ErrKind) : (s.endWith e).moves = s.moves := rfl
@[simp] theorem State.endWith_stageWord (e : ErrKind) : (s.endWith e).stageWord = s.stageWord := rfl
@[simp] theorem State.endWith_tick (e : ErrKind) : (s.endWith e).tick = s.tick := rfl
@[simp] theorem State.endWith_opsLoaded (e : ErrKind) : (s.endWith e).opsLoaded = s.opsLoaded := rfl
@[simp] theorem State.endWith_sampleHeld (e : ErrKind) :
    (s.endWith e).sampleHeld = s.sampleHeld := rfl
@[simp] theorem State.endWith_scaledHeld (e : ErrKind) :
    (s.endWith e).scaledHeld = s.scaledHeld := rfl

/-! ### `accept` -/

@[simp] theorem State.accept_seq (op : SeqOp) (code : BitVec 4) (a b : Word16) :
    (s.accept op code a b).seq = { Sequencer.idle with op := op, stage := ⟨1, 0⟩ } := rfl
@[simp] theorem State.accept_busy (op : SeqOp) (code : BitVec 4) (a b : Word16) :
    (s.accept op code a b).busy = true := rfl
@[simp] theorem State.accept_done (op : SeqOp) (code : BitVec 4) (a b : Word16) :
    (s.accept op code a b).done = false := rfl
@[simp] theorem State.accept_err (op : SeqOp) (code : BitVec 4) (a b : Word16) :
    (s.accept op code a b).err = s.err := rfl
@[simp] theorem State.accept_errlog (op : SeqOp) (code : BitVec 4) (a b : Word16) :
    (s.accept op code a b).errlog = s.errlog := rfl
@[simp] theorem State.accept_opa (op : SeqOp) (code : BitVec 4) (a b : Word16) :
    (s.accept op code a b).opa = a := rfl
@[simp] theorem State.accept_opb (op : SeqOp) (code : BitVec 4) (a b : Word16) :
    (s.accept op code a b).opb = b := rfl
@[simp] theorem State.accept_opc (op : SeqOp) (code : BitVec 4) (a b : Word16) :
    (s.accept op code a b).opc = code := rfl
@[simp] theorem State.accept_tmp (op : SeqOp) (code : BitVec 4) (a b : Word16) :
    (s.accept op code a b).tmp = s.tmp := rfl
@[simp] theorem State.accept_feedSaved (op : SeqOp) (code : BitVec 4) (a b : Word16) :
    (s.accept op code a b).feedSaved = s.feedSaved := rfl
@[simp] theorem State.accept_rb (op : SeqOp) (code : BitVec 4) (a b : Word16) :
    (s.accept op code a b).rb = s.rb := rfl
@[simp] theorem State.accept_rlen (op : SeqOp) (code : BitVec 4) (a b : Word16) :
    (s.accept op code a b).rlen = s.rlen := rfl
@[simp] theorem State.accept_btn (op : SeqOp) (code : BitVec 4) (a b : Word16) :
    (s.accept op code a b).btn = s.btn := rfl
@[simp] theorem State.accept_x (op : SeqOp) (code : BitVec 4) (a b : Word16) :
    (s.accept op code a b).x = s.x := rfl
@[simp] theorem State.accept_y (op : SeqOp) (code : BitVec 4) (a b : Word16) :
    (s.accept op code a b).y = s.y := rfl
@[simp] theorem State.accept_z (op : SeqOp) (code : BitVec 4) (a b : Word16) :
    (s.accept op code a b).z = s.z := rfl
@[simp] theorem State.accept_td (op : SeqOp) (code : BitVec 4) (a b : Word16) :
    (s.accept op code a b).td = s.td := rfl
@[simp] theorem State.accept_idle (op : SeqOp) (code : BitVec 4) (a b : Word16) :
    (s.accept op code a b).idle = s.idle := rfl
@[simp] theorem State.accept_hov (op : SeqOp) (code : BitVec 4) (a b : Word16) :
    (s.accept op code a b).hov = s.hov := rfl
@[simp] theorem State.accept_ox (op : SeqOp) (code : BitVec 4) (a b : Word16) :
    (s.accept op code a b).ox = s.ox := rfl
@[simp] theorem State.accept_oy (op : SeqOp) (code : BitVec 4) (a b : Word16) :
    (s.accept op code a b).oy = s.oy := rfl
@[simp] theorem State.accept_sel (op : SeqOp) (code : BitVec 4) (a b : Word16) :
    (s.accept op code a b).sel = s.sel := rfl
@[simp] theorem State.accept_ind (op : SeqOp) (code : BitVec 4) (a b : Word16) :
    (s.accept op code a b).ind = s.ind := rfl
@[simp] theorem State.accept_dr (op : SeqOp) (code : BitVec 4) (a b : Word16) :
    (s.accept op code a b).dr = s.dr := rfl
@[simp] theorem State.accept_trace (op : SeqOp) (code : BitVec 4) (a b : Word16) :
    (s.accept op code a b).trace = s.trace := rfl
@[simp] theorem State.accept_cfg (op : SeqOp) (code : BitVec 4) (a b : Word16) :
    (s.accept op code a b).cfg = s.cfg := rfl
@[simp] theorem State.accept_chip (op : SeqOp) (code : BitVec 4) (a b : Word16) :
    (s.accept op code a b).chip = s.chip := rfl
@[simp] theorem State.accept_resets (op : SeqOp) (code : BitVec 4) (a b : Word16) :
    (s.accept op code a b).resets = s.resets := rfl
@[simp] theorem State.accept_moves (op : SeqOp) (code : BitVec 4) (a b : Word16) :
    (s.accept op code a b).moves = s.moves := rfl
@[simp] theorem State.accept_stageWord (op : SeqOp) (code : BitVec 4) (a b : Word16) :
    (s.accept op code a b).stageWord = s.stageWord := rfl
@[simp] theorem State.accept_tick (op : SeqOp) (code : BitVec 4) (a b : Word16) :
    (s.accept op code a b).tick = s.tick := rfl
@[simp] theorem State.accept_opsLoaded (op : SeqOp) (code : BitVec 4) (a b : Word16) :
    (s.accept op code a b).opsLoaded = true := rfl
@[simp] theorem State.accept_sampleHeld (op : SeqOp) (code : BitVec 4) (a b : Word16) :
    (s.accept op code a b).sampleHeld = s.sampleHeld := rfl
@[simp] theorem State.accept_scaledHeld (op : SeqOp) (code : BitVec 4) (a b : Word16) :
    (s.accept op code a b).scaledHeld = s.scaledHeld := rfl

/-! ### `resetEngine` -/

@[simp] theorem State.resetEngine_seq : (s.resetEngine).seq = Sequencer.idle := rfl
@[simp] theorem State.resetEngine_busy : (s.resetEngine).busy = false := rfl
@[simp] theorem State.resetEngine_done : (s.resetEngine).done = false := rfl
@[simp] theorem State.resetEngine_err : (s.resetEngine).err = .none := rfl
@[simp] theorem State.resetEngine_errlog : (s.resetEngine).errlog = 0 := rfl
@[simp] theorem State.resetEngine_opa : (s.resetEngine).opa = 0 := rfl
@[simp] theorem State.resetEngine_opb : (s.resetEngine).opb = 0 := rfl
@[simp] theorem State.resetEngine_opc : (s.resetEngine).opc = 0 := rfl
@[simp] theorem State.resetEngine_tmp : (s.resetEngine).tmp = 0 := rfl
@[simp] theorem State.resetEngine_feedSaved : (s.resetEngine).feedSaved = false := rfl
@[simp] theorem State.resetEngine_rb : (s.resetEngine).rb = List.replicate s.cfg.maxCount 0 := rfl
@[simp] theorem State.resetEngine_rlen : (s.resetEngine).rlen = 0 := rfl
@[simp] theorem State.resetEngine_btn : (s.resetEngine).btn = 0 := rfl
@[simp] theorem State.resetEngine_x : (s.resetEngine).x = 0 := rfl
@[simp] theorem State.resetEngine_y : (s.resetEngine).y = 0 := rfl
@[simp] theorem State.resetEngine_z : (s.resetEngine).z = 0 := rfl
@[simp] theorem State.resetEngine_td : (s.resetEngine).td = false := rfl
@[simp] theorem State.resetEngine_idle : (s.resetEngine).idle = false := rfl
@[simp] theorem State.resetEngine_hov : (s.resetEngine).hov = false := rfl
@[simp] theorem State.resetEngine_ox : (s.resetEngine).ox = 0 := rfl
@[simp] theorem State.resetEngine_oy : (s.resetEngine).oy = 0 := rfl
@[simp] theorem State.resetEngine_sel : (s.resetEngine).sel = false := rfl
@[simp] theorem State.resetEngine_ind : (s.resetEngine).ind = false := rfl
@[simp] theorem State.resetEngine_dr : (s.resetEngine).dr = s.dr := rfl
@[simp] theorem State.resetEngine_trace :
    (s.resetEngine).trace = s.trace ++ (if s.sel then [BusEvent.sel false] else []) := rfl
@[simp] theorem State.resetEngine_cfg : (s.resetEngine).cfg = s.cfg := rfl
@[simp] theorem State.resetEngine_chip : (s.resetEngine).chip = s.chip := rfl
@[simp] theorem State.resetEngine_resets : (s.resetEngine).resets = s.resets := rfl
@[simp] theorem State.resetEngine_moves : (s.resetEngine).moves = s.moves := rfl
@[simp] theorem State.resetEngine_stageWord : (s.resetEngine).stageWord = s.stageWord := rfl
@[simp] theorem State.resetEngine_tick : (s.resetEngine).tick = s.tick := rfl
@[simp] theorem State.resetEngine_opsLoaded : (s.resetEngine).opsLoaded = false := rfl
@[simp] theorem State.resetEngine_sampleHeld : (s.resetEngine).sampleHeld = false := rfl
@[simp] theorem State.resetEngine_scaledHeld : (s.resetEngine).scaledHeld = false := rfl

/-! ### `storeRead` -/

@[simp] theorem State.storeRead_seq (d : List Byte) : (s.storeRead d).seq = s.seq := rfl
@[simp] theorem State.storeRead_busy (d : List Byte) : (s.storeRead d).busy = s.busy := rfl
@[simp] theorem State.storeRead_done (d : List Byte) : (s.storeRead d).done = s.done := rfl
@[simp] theorem State.storeRead_err (d : List Byte) : (s.storeRead d).err = s.err := rfl
@[simp] theorem State.storeRead_errlog (d : List Byte) : (s.storeRead d).errlog = s.errlog := rfl
@[simp] theorem State.storeRead_opa (d : List Byte) : (s.storeRead d).opa = s.opa := rfl
@[simp] theorem State.storeRead_opb (d : List Byte) : (s.storeRead d).opb = s.opb := rfl
@[simp] theorem State.storeRead_opc (d : List Byte) : (s.storeRead d).opc = s.opc := rfl
@[simp] theorem State.storeRead_tmp (d : List Byte) : (s.storeRead d).tmp = s.tmp := rfl
@[simp] theorem State.storeRead_feedSaved (d : List Byte) :
    (s.storeRead d).feedSaved = s.feedSaved := rfl
@[simp] theorem State.storeRead_rb (d : List Byte) :
    (s.storeRead d).rb = d ++ s.rb.drop d.length := rfl
@[simp] theorem State.storeRead_rlen (d : List Byte) : (s.storeRead d).rlen = d.length := rfl
@[simp] theorem State.storeRead_btn (d : List Byte) : (s.storeRead d).btn = s.btn := rfl
@[simp] theorem State.storeRead_x (d : List Byte) : (s.storeRead d).x = s.x := rfl
@[simp] theorem State.storeRead_y (d : List Byte) : (s.storeRead d).y = s.y := rfl
@[simp] theorem State.storeRead_z (d : List Byte) : (s.storeRead d).z = s.z := rfl
@[simp] theorem State.storeRead_td (d : List Byte) : (s.storeRead d).td = s.td := rfl
@[simp] theorem State.storeRead_idle (d : List Byte) : (s.storeRead d).idle = s.idle := rfl
@[simp] theorem State.storeRead_hov (d : List Byte) : (s.storeRead d).hov = s.hov := rfl
@[simp] theorem State.storeRead_ox (d : List Byte) : (s.storeRead d).ox = s.ox := rfl
@[simp] theorem State.storeRead_oy (d : List Byte) : (s.storeRead d).oy = s.oy := rfl
@[simp] theorem State.storeRead_sel (d : List Byte) : (s.storeRead d).sel = s.sel := rfl
@[simp] theorem State.storeRead_ind (d : List Byte) : (s.storeRead d).ind = s.ind := rfl
@[simp] theorem State.storeRead_dr (d : List Byte) : (s.storeRead d).dr = s.dr := rfl
@[simp] theorem State.storeRead_trace (d : List Byte) : (s.storeRead d).trace = s.trace := rfl
@[simp] theorem State.storeRead_cfg (d : List Byte) : (s.storeRead d).cfg = s.cfg := rfl
@[simp] theorem State.storeRead_chip (d : List Byte) : (s.storeRead d).chip = s.chip := rfl
@[simp] theorem State.storeRead_resets (d : List Byte) : (s.storeRead d).resets = s.resets := rfl
@[simp] theorem State.storeRead_moves (d : List Byte) : (s.storeRead d).moves = s.moves := rfl
@[simp] theorem State.storeRead_stageWord (d : List Byte) : (s.storeRead d).stageWord = s.stageWord := rfl
@[simp] theorem State.storeRead_tick (d : List Byte) : (s.storeRead d).tick = s.tick := rfl
@[simp] theorem State.storeRead_opsLoaded (d : List Byte) :
    (s.storeRead d).opsLoaded = s.opsLoaded := rfl
@[simp] theorem State.storeRead_sampleHeld (d : List Byte) :
    (s.storeRead d).sampleHeld = s.sampleHeld := rfl
@[simp] theorem State.storeRead_scaledHeld (d : List Byte) :
    (s.storeRead d).scaledHeld = s.scaledHeld := rfl

/-! ### `storeSample` -/

@[simp] theorem State.storeSample_seq (v : Sample) : (s.storeSample v).seq = s.seq := rfl
@[simp] theorem State.storeSample_busy (v : Sample) : (s.storeSample v).busy = s.busy := rfl
@[simp] theorem State.storeSample_done (v : Sample) : (s.storeSample v).done = s.done := rfl
@[simp] theorem State.storeSample_err (v : Sample) : (s.storeSample v).err = s.err := rfl
@[simp] theorem State.storeSample_errlog (v : Sample) : (s.storeSample v).errlog = s.errlog := rfl
@[simp] theorem State.storeSample_opa (v : Sample) : (s.storeSample v).opa = s.opa := rfl
@[simp] theorem State.storeSample_opb (v : Sample) : (s.storeSample v).opb = s.opb := rfl
@[simp] theorem State.storeSample_opc (v : Sample) : (s.storeSample v).opc = s.opc := rfl
@[simp] theorem State.storeSample_tmp (v : Sample) : (s.storeSample v).tmp = s.tmp := rfl
@[simp] theorem State.storeSample_feedSaved (v : Sample) :
    (s.storeSample v).feedSaved = s.feedSaved := rfl
@[simp] theorem State.storeSample_rb (v : Sample) : (s.storeSample v).rb = s.rb := rfl
@[simp] theorem State.storeSample_rlen (v : Sample) : (s.storeSample v).rlen = s.rlen := rfl
@[simp] theorem State.storeSample_btn (v : Sample) : (s.storeSample v).btn = v.btn := rfl
@[simp] theorem State.storeSample_x (v : Sample) : (s.storeSample v).x = v.x := rfl
@[simp] theorem State.storeSample_y (v : Sample) : (s.storeSample v).y = v.y := rfl
@[simp] theorem State.storeSample_z (v : Sample) : (s.storeSample v).z = v.z := rfl
@[simp] theorem State.storeSample_td (v : Sample) : (s.storeSample v).td = touchDown v.x := rfl
@[simp] theorem State.storeSample_idle (v : Sample) :
    (s.storeSample v).idle = isIdle v.x v.y v.z := rfl
@[simp] theorem State.storeSample_hov (v : Sample) : (s.storeSample v).hov = false := rfl
@[simp] theorem State.storeSample_ox (v : Sample) : (s.storeSample v).ox = s.ox := rfl
@[simp] theorem State.storeSample_oy (v : Sample) : (s.storeSample v).oy = s.oy := rfl
@[simp] theorem State.storeSample_sel (v : Sample) : (s.storeSample v).sel = s.sel := rfl
@[simp] theorem State.storeSample_ind (v : Sample) : (s.storeSample v).ind = s.ind := rfl
@[simp] theorem State.storeSample_dr (v : Sample) : (s.storeSample v).dr = s.dr := rfl
@[simp] theorem State.storeSample_trace (v : Sample) : (s.storeSample v).trace = s.trace := rfl
@[simp] theorem State.storeSample_cfg (v : Sample) : (s.storeSample v).cfg = s.cfg := rfl
@[simp] theorem State.storeSample_chip (v : Sample) : (s.storeSample v).chip = s.chip := rfl
@[simp] theorem State.storeSample_resets (v : Sample) : (s.storeSample v).resets = s.resets := rfl
@[simp] theorem State.storeSample_moves (v : Sample) : (s.storeSample v).moves = s.moves := rfl
@[simp] theorem State.storeSample_stageWord (v : Sample) : (s.storeSample v).stageWord = s.stageWord := rfl
@[simp] theorem State.storeSample_tick (v : Sample) : (s.storeSample v).tick = s.tick := rfl
@[simp] theorem State.storeSample_opsLoaded (v : Sample) :
    (s.storeSample v).opsLoaded = s.opsLoaded := rfl
@[simp] theorem State.storeSample_sampleHeld (v : Sample) :
    (s.storeSample v).sampleHeld = true := rfl
@[simp] theorem State.storeSample_scaledHeld (v : Sample) :
    (s.storeSample v).scaledHeld = s.scaledHeld := rfl

/-! ### `clipXY` -/

@[simp] theorem State.clipXY_seq : (s.clipXY).seq = s.seq := rfl
@[simp] theorem State.clipXY_busy : (s.clipXY).busy = s.busy := rfl
@[simp] theorem State.clipXY_done : (s.clipXY).done = s.done := rfl
@[simp] theorem State.clipXY_err : (s.clipXY).err = s.err := rfl
@[simp] theorem State.clipXY_errlog : (s.clipXY).errlog = s.errlog := rfl
@[simp] theorem State.clipXY_opa : (s.clipXY).opa = s.opa := rfl
@[simp] theorem State.clipXY_opb : (s.clipXY).opb = s.opb := rfl
@[simp] theorem State.clipXY_opc : (s.clipXY).opc = s.opc := rfl
@[simp] theorem State.clipXY_tmp : (s.clipXY).tmp = s.tmp := rfl
@[simp] theorem State.clipXY_feedSaved : (s.clipXY).feedSaved = s.feedSaved := rfl
@[simp] theorem State.clipXY_rb : (s.clipXY).rb = s.rb := rfl
@[simp] theorem State.clipXY_rlen : (s.clipXY).rlen = s.rlen := rfl
@[simp] theorem State.clipXY_btn : (s.clipXY).btn = s.btn := rfl
@[simp] theorem State.clipXY_x : (s.clipXY).x = clipX s.cfg.toParams s.x := rfl
@[simp] theorem State.clipXY_y : (s.clipXY).y = clipY s.cfg.toParams s.y := rfl
@[simp] theorem State.clipXY_z : (s.clipXY).z = s.z := rfl
@[simp] theorem State.clipXY_td : (s.clipXY).td = s.td := rfl
@[simp] theorem State.clipXY_idle : (s.clipXY).idle = s.idle := rfl
@[simp] theorem State.clipXY_hov : (s.clipXY).hov = s.hov := rfl
@[simp] theorem State.clipXY_ox : (s.clipXY).ox = s.ox := rfl
@[simp] theorem State.clipXY_oy : (s.clipXY).oy = s.oy := rfl
@[simp] theorem State.clipXY_sel : (s.clipXY).sel = s.sel := rfl
@[simp] theorem State.clipXY_ind : (s.clipXY).ind = s.ind := rfl
@[simp] theorem State.clipXY_dr : (s.clipXY).dr = s.dr := rfl
@[simp] theorem State.clipXY_trace : (s.clipXY).trace = s.trace := rfl
@[simp] theorem State.clipXY_cfg : (s.clipXY).cfg = s.cfg := rfl
@[simp] theorem State.clipXY_chip : (s.clipXY).chip = s.chip := rfl
@[simp] theorem State.clipXY_resets : (s.clipXY).resets = s.resets := rfl
@[simp] theorem State.clipXY_moves : (s.clipXY).moves = s.moves := rfl
@[simp] theorem State.clipXY_stageWord : (s.clipXY).stageWord = s.stageWord := rfl
@[simp] theorem State.clipXY_tick : (s.clipXY).tick = s.tick := rfl
@[simp] theorem State.clipXY_opsLoaded : (s.clipXY).opsLoaded = s.opsLoaded := rfl
@[simp] theorem State.clipXY_sampleHeld : (s.clipXY).sampleHeld = s.sampleHeld := rfl
@[simp] theorem State.clipXY_scaledHeld : (s.clipXY).scaledHeld = s.scaledHeld := rfl

/-! ### `scaleXY` -/

@[simp] theorem State.scaleXY_seq (rx ry : Word16) : (s.scaleXY rx ry).seq = s.seq := rfl
@[simp] theorem State.scaleXY_busy (rx ry : Word16) : (s.scaleXY rx ry).busy = s.busy := rfl
@[simp] theorem State.scaleXY_done (rx ry : Word16) : (s.scaleXY rx ry).done = s.done := rfl
@[simp] theorem State.scaleXY_err (rx ry : Word16) : (s.scaleXY rx ry).err = s.err := rfl
@[simp] theorem State.scaleXY_errlog (rx ry : Word16) : (s.scaleXY rx ry).errlog = s.errlog := rfl
@[simp] theorem State.scaleXY_opa (rx ry : Word16) : (s.scaleXY rx ry).opa = s.opa := rfl
@[simp] theorem State.scaleXY_opb (rx ry : Word16) : (s.scaleXY rx ry).opb = s.opb := rfl
@[simp] theorem State.scaleXY_opc (rx ry : Word16) : (s.scaleXY rx ry).opc = s.opc := rfl
@[simp] theorem State.scaleXY_tmp (rx ry : Word16) : (s.scaleXY rx ry).tmp = s.tmp := rfl
@[simp] theorem State.scaleXY_feedSaved (rx ry : Word16) :
    (s.scaleXY rx ry).feedSaved = s.feedSaved := rfl
@[simp] theorem State.scaleXY_rb (rx ry : Word16) : (s.scaleXY rx ry).rb = s.rb := rfl
@[simp] theorem State.scaleXY_rlen (rx ry : Word16) : (s.scaleXY rx ry).rlen = s.rlen := rfl
@[simp] theorem State.scaleXY_btn (rx ry : Word16) : (s.scaleXY rx ry).btn = s.btn := rfl
@[simp] theorem State.scaleXY_x (rx ry : Word16) : (s.scaleXY rx ry).x = s.x := rfl
@[simp] theorem State.scaleXY_y (rx ry : Word16) : (s.scaleXY rx ry).y = s.y := rfl
@[simp] theorem State.scaleXY_z (rx ry : Word16) : (s.scaleXY rx ry).z = s.z := rfl
@[simp] theorem State.scaleXY_td (rx ry : Word16) : (s.scaleXY rx ry).td = s.td := rfl
@[simp] theorem State.scaleXY_idle (rx ry : Word16) : (s.scaleXY rx ry).idle = s.idle := rfl
@[simp] theorem State.scaleXY_hov (rx ry : Word16) : (s.scaleXY rx ry).hov = s.hov := rfl
@[simp] theorem State.scaleXY_ox (rx ry : Word16) :
    (s.scaleXY rx ry).ox = scaleAxis s.x s.cfg.xLower s.cfg.xUpper rx := rfl
@[simp] theorem State.scaleXY_oy (rx ry : Word16) :
    (s.scaleXY rx ry).oy = scaleAxis s.y s.cfg.yLower s.cfg.yUpper ry := rfl
@[simp] theorem State.scaleXY_sel (rx ry : Word16) : (s.scaleXY rx ry).sel = s.sel := rfl
@[simp] theorem State.scaleXY_ind (rx ry : Word16) : (s.scaleXY rx ry).ind = s.ind := rfl
@[simp] theorem State.scaleXY_dr (rx ry : Word16) : (s.scaleXY rx ry).dr = s.dr := rfl
@[simp] theorem State.scaleXY_trace (rx ry : Word16) : (s.scaleXY rx ry).trace = s.trace := rfl
@[simp] theorem State.scaleXY_cfg (rx ry : Word16) : (s.scaleXY rx ry).cfg = s.cfg := rfl
@[simp] theorem State.scaleXY_chip (rx ry : Word16) : (s.scaleXY rx ry).chip = s.chip := rfl
@[simp] theorem State.scaleXY_resets (rx ry : Word16) : (s.scaleXY rx ry).resets = s.resets := rfl
@[simp] theorem State.scaleXY_moves (rx ry : Word16) : (s.scaleXY rx ry).moves = s.moves := rfl
@[simp] theorem State.scaleXY_stageWord (rx ry : Word16) : (s.scaleXY rx ry).stageWord = s.stageWord := rfl
@[simp] theorem State.scaleXY_tick (rx ry : Word16) : (s.scaleXY rx ry).tick = s.tick := rfl
@[simp] theorem State.scaleXY_opsLoaded (rx ry : Word16) :
    (s.scaleXY rx ry).opsLoaded = s.opsLoaded := rfl
@[simp] theorem State.scaleXY_sampleHeld (rx ry : Word16) :
    (s.scaleXY rx ry).sampleHeld = s.sampleHeld := rfl
@[simp] theorem State.scaleXY_scaledHeld (rx ry : Word16) :
    (s.scaleXY rx ry).scaledHeld = true := rfl

/-! ### `sampleDr` -/

@[simp] theorem State.sampleDr_seq : (s.sampleDr).seq = s.seq := rfl
@[simp] theorem State.sampleDr_busy : (s.sampleDr).busy = s.busy := rfl
@[simp] theorem State.sampleDr_done : (s.sampleDr).done = s.done := rfl
@[simp] theorem State.sampleDr_err : (s.sampleDr).err = s.err := rfl
@[simp] theorem State.sampleDr_errlog : (s.sampleDr).errlog = s.errlog := rfl
@[simp] theorem State.sampleDr_opa : (s.sampleDr).opa = s.opa := rfl
@[simp] theorem State.sampleDr_opb : (s.sampleDr).opb = s.opb := rfl
@[simp] theorem State.sampleDr_opc : (s.sampleDr).opc = s.opc := rfl
@[simp] theorem State.sampleDr_tmp : (s.sampleDr).tmp = s.tmp := rfl
@[simp] theorem State.sampleDr_feedSaved : (s.sampleDr).feedSaved = s.feedSaved := rfl
@[simp] theorem State.sampleDr_rb : (s.sampleDr).rb = s.rb := rfl
@[simp] theorem State.sampleDr_rlen : (s.sampleDr).rlen = s.rlen := rfl
@[simp] theorem State.sampleDr_btn : (s.sampleDr).btn = s.btn := rfl
@[simp] theorem State.sampleDr_x : (s.sampleDr).x = s.x := rfl
@[simp] theorem State.sampleDr_y : (s.sampleDr).y = s.y := rfl
@[simp] theorem State.sampleDr_z : (s.sampleDr).z = s.z := rfl
@[simp] theorem State.sampleDr_td : (s.sampleDr).td = s.td := rfl
@[simp] theorem State.sampleDr_idle : (s.sampleDr).idle = s.idle := rfl
@[simp] theorem State.sampleDr_hov : (s.sampleDr).hov = s.hov := rfl
@[simp] theorem State.sampleDr_ox : (s.sampleDr).ox = s.ox := rfl
@[simp] theorem State.sampleDr_oy : (s.sampleDr).oy = s.oy := rfl
@[simp] theorem State.sampleDr_sel : (s.sampleDr).sel = s.sel := rfl
@[simp] theorem State.sampleDr_ind : (s.sampleDr).ind = s.ind := rfl
@[simp] theorem State.sampleDr_dr : (s.sampleDr).dr = Config.dataReady (s.tick + 1) s.trace := rfl
@[simp] theorem State.sampleDr_trace : (s.sampleDr).trace = s.trace := rfl
@[simp] theorem State.sampleDr_cfg : (s.sampleDr).cfg = s.cfg := rfl
@[simp] theorem State.sampleDr_chip : (s.sampleDr).chip = s.chip := rfl
@[simp] theorem State.sampleDr_resets : (s.sampleDr).resets = s.resets := rfl
@[simp] theorem State.sampleDr_moves : (s.sampleDr).moves = s.moves := rfl
@[simp] theorem State.sampleDr_stageWord : (s.sampleDr).stageWord = s.stageWord := rfl
@[simp] theorem State.sampleDr_tick : (s.sampleDr).tick = s.tick + 1 := rfl
@[simp] theorem State.sampleDr_opsLoaded : (s.sampleDr).opsLoaded = s.opsLoaded := rfl
@[simp] theorem State.sampleDr_sampleHeld : (s.sampleDr).sampleHeld = s.sampleHeld := rfl
@[simp] theorem State.sampleDr_scaledHeld : (s.sampleDr).scaledHeld = s.scaledHeld := rfl

end Sys2Proof.Machine
end

