-- ==== Sys2Proof/Laws/Bits.lean ====
section
/-!
SUPPORT. The bit fields: the three parts of a command word, the two parts of a command byte, the two
bytes of an extended address, and the packed coordinates, each said once.
-/

namespace Sys2Proof

/-- Bit `k` of a packed command word (R70). -/
theorem packCommand_bit (op : BitVec 4) (a b : Word16) (k : Nat) :
    (packCommand op a b).getLsbD k =
      if k < 16 then b.getLsbD k
      else if k < 32 then a.getLsbD (k - 16)
      else op.getLsbD (k - 32) := by
  have h2 := BitVec.getLsbD_append (x := a) (y := b) (i := k)
  refine (BitVec.getLsbD_append (x := op) (y := a ++ b) (i := k)).trans ?_
  split <;> rename_i h <;> simp at h
  · refine h2.trans ?_
    split <;> simp [*]
  · simp [show ¬ k < 16 by omega]

@[simp] theorem commandOp_packCommand (op : BitVec 4) (a b : Word16) :
    commandOp (packCommand op a b) = op := by
  apply BitVec.eq_of_getLsbD_eq
  intro k hk
  simp [commandOp, packCommand_bit, hk]
  intro h
  omega

@[simp] theorem commandA_packCommand (op : BitVec 4) (a b : Word16) :
    commandA (packCommand op a b) = a := by
  apply BitVec.eq_of_getLsbD_eq
  intro k hk
  simp [commandA, packCommand_bit, hk]
  intro h
  omega

@[simp] theorem commandB_packCommand (op : BitVec 4) (a b : Word16) :
    commandB (packCommand op a b) = b := by
  apply BitVec.eq_of_getLsbD_eq
  intro k hk
  simp [commandB, packCommand_bit, hk]

/-- A command word is its three fields. -/
theorem packCommand_fields (cw : CommandWord) :
    packCommand (commandOp cw) (commandA cw) (commandB cw) = cw := by
  apply BitVec.eq_of_getLsbD_eq
  intro k hk
  rw [packCommand_bit]
  simp only [commandOp, commandA, commandB, BitVec.getLsbD_extractLsb']
  split
  · simp [*]
  · split
    · rw [show 16 + (k - 16) = k by omega]; simp; omega
    · rw [show 32 + (k - 32) = k by omega]; simp; omega

/-- The two parts of a command byte, for a mask clear of the address bits (R63). -/
theorem commandByte_parts (mask : Byte) (address : RegAddr) (h : mask &&& 0x1F = 0) :
    maskPart (commandByte mask address) = mask ∧ addressPart (commandByte mask address) = address ∧
      (commandByte mask address).extractLsb' 5 3 = mask.extractLsb' 5 3 := by
  revert h mask address
  decide +kernel

/-- A byte is the command byte of its parts (R63). -/
theorem commandByte_of_parts (cmd : Byte) :
    commandByte (maskPart cmd) (addressPart cmd) = cmd := by
  revert cmd
  decide +kernel

namespace Machine

/-- The two bytes of an extended address are the address (R42). -/
theorem addrHigh_append_addrLow (eaddr : Word16) : addrHigh eaddr ++ addrLow eaddr = eaddr := by
  apply BitVec.eq_of_getLsbD_eq
  intro k hk
  refine (BitVec.getLsbD_append (x := addrHigh eaddr) (y := addrLow eaddr) (i := k)).trans ?_
  simp only [addrHigh, addrLow, BitVec.getLsbD_extractLsb']
  split
  · simp [*]
  · rw [show 8 + (k - 8) = k by omega]; simp; omega

/-- `a[6:0]` as a number (R71). -/
theorem addressLegal_eq (c : Config) (a : Word16) :
    addressLegal c.toParams a = decide (a.toNat % 128 ≤ 0x1F) := by
  simp only [addressLegal, addressPort, BitVec.extractLsb'_toNat, Nat.shiftRight_zero,
    config_rapAddrMax]

/-- `b[7:0]` as a number (R71). -/
theorem countOf_eq (b : Word16) : countOf b = b.toNat % 256 := by
  simp only [countOf, lowByte, BitVec.extractLsb'_toNat, Nat.shiftRight_zero]

/-- The clamp is inside its bounds (R132). -/
theorem clamp_bounds {v lo hi : Coord} (h : lo.toNat ≤ hi.toNat) :
    lo.toNat ≤ (clamp v lo hi).toNat ∧ (clamp v lo hi).toNat ≤ hi.toNat := by
  unfold clamp
  split <;> rename_i h1 <;> simp only [BitVec.lt_def, gt_iff_lt] at *
  · omega
  · split <;> omega

/-- The scaler's quotient, which fits its 16 bits (R135). -/
theorem scaleAxis_toNat {lo hi v : Coord} (res : Word16) (h : lo.toNat < hi.toNat)
    (hv : v.toNat ≤ hi.toNat) :
    (scaleAxis v lo hi res).toNat = (v.toNat - lo.toNat) * res.toNat / (hi.toNat - lo.toNat) := by
  have h1 : (v.toNat - lo.toNat) * res.toNat / (hi.toNat - lo.toNat) ≤ res.toNat :=
    Nat.div_le_of_le_mul (Nat.mul_le_mul_right _ (by omega))
  have h2 := res.isLt
  simp only [scaleAxis, BitVec.toNat_ofNat]
  exact Nat.mod_eq_of_lt (by omega)

end Machine

end Sys2Proof
end

