-- ==== Sys2Proof/Laws/Sequence.lean ====
section
/-!
SUPPORT. How a sequence runs: each building block applied to a state, so that proofs never unfold
the monad. A sequence on a state gives `.ok value state` or `.error abort state`.
-/

namespace Sys2Proof.Machine

variable {α β : Type}

@[simp] theorem bind_run (m : Sequence α) (f : α → Sequence β) (s : State) :
    (m >>= f) s = match m s with
      | .ok a t => f a t
      | .error e t => .error e t := by
  show EStateM.bind m f s = _
  unfold EStateM.bind
  split <;> rename_i h <;> simp [h]

@[simp] theorem pure_run (a : α) (s : State) : (pure a : Sequence α) s = .ok a s := rfl

@[simp] theorem map_run (f : α → β) (m : Sequence α) (s : State) :
    (f <$> m) s = match m s with
      | .ok a t => .ok (f a) t
      | .error e t => .error e t := by
  show EStateM.map f m s = _
  unfold EStateM.map
  split <;> rename_i h <;> simp [h]

@[simp] theorem get_run (s : State) : (get : Sequence State) s = .ok s s := rfl

@[simp] theorem modify_run (f : State → State) (s : State) :
    (modify f : Sequence Unit) s = .ok () (f s) := rfl

@[simp] theorem raise_run (e : ErrKind) (s : State) :
    (raise e : Sequence α) s = .error (.raised e) s := rfl

@[simp] theorem atStage_run (line part : Nat) (s : State) :
    atStage line part s = .ok () { s with seq := { s.seq with stage := ⟨line, part⟩ } } := rfl

@[simp] theorem enter_run (s : State) : enter s = .ok () { s with seq := s.seq.push } := rfl

@[simp] theorem leave_run (s : State) : leave s = .ok () { s with seq := s.seq.pop } := rfl

@[simp] theorem setIdx_run (n : Nat) (s : State) :
    setIdx n s = .ok () { s with seq := { s.seq with idx := n } } := rfl

@[simp] theorem setPolls_run (n : Nat) (s : State) :
    setPolls n s = .ok () { s with seq := { s.seq with polls := n } } := rfl

@[simp] theorem setTmp_run (v : Byte) (s : State) : setTmp v s = .ok () { s with tmp := v } := rfl

@[simp] theorem finish_ok (a : Unit) (s : State) : finish (.ok a s) = s.endWith .none := rfl

@[simp] theorem finish_raised (e : ErrKind) (s : State) :
    finish (.error (.raised e) s) = s.endWith e := rfl

@[simp] theorem finish_reset (s : State) : finish (.error .reset s) = s := rfl

@[simp] theorem finishStage_ok (a : Unit) (s : State) :
    finishStage (.ok a s) = { s with seq := Sequencer.idle } := rfl

@[simp] theorem finishStage_raised (e : ErrKind) (s : State) :
    finishStage (.error (.raised e) s) = s.endWith e := rfl

@[simp] theorem finishStage_reset (s : State) : finishStage (.error .reset s) = s := rfl

/-- A command at an idle port with legal operands answers the state its sequence leaves. -/
theorem runCommand_legal (op : SeqOp) (code : BitVec 4) (a b : Word16) (body : Sequence Unit)
    {s : State} (h : s.busy = false) :
    runCommand op code true a b body s = .next (finish (body (s.accept op code a b))) := by
  simp [runCommand, h]

/-- A command at an idle port with an illegal operand ends at once (R72, R179). -/
theorem runCommand_illegal (op : SeqOp) (code : BitVec 4) (a b : Word16) (body : Sequence Unit)
    {s : State} (h : s.busy = false) :
    runCommand op code false a b body s = .next (s.endWith .illegalCommand) := by
  simp [runCommand, h]

/-- Everything `runCommand` can do. -/
theorem runCommand_cases {op : SeqOp} {code : BitVec 4} {legal : Bool} {a b : Word16}
    {body : Sequence Unit} {s t : State} (h : runCommand op code legal a b body s = .next t) :
    s.busy = false ∧
      ((legal = true ∧ t = finish (body (s.accept op code a b))) ∨
        (legal = false ∧ t = s.endWith .illegalCommand)) := by
  unfold runCommand at h
  split at h
  · cases h
  · rename_i hb
    cases legal <;> simp_all

/-- Everything `runStage` can do. -/
theorem runStage_cases {body : Sequence Unit} {s t : State} (h : runStage body s = .next t) :
    s.busy = false ∧ t = finishStage (body s) := by
  unfold runStage at h
  split at h <;> simp_all

/-- A stage run by itself at an idle port. -/
theorem runStage_idle (body : Sequence Unit) {s : State} (h : s.busy = false) :
    runStage body s = .next (finishStage (body s)) := by
  simp [runStage, h]

end Sys2Proof.Machine
end

