-- ==== Sys2Proof/Laws/Bus.lean ====
section
/-!
SUPPORT. What the transceiver and the RAP procedures do, said once: the bytes of a reply, one
transaction when the chip answers, when it fails, and under a reset, and the two RAP procedures.
-/

namespace Sys2Proof.Machine

/-! ### Replies -/

@[simp] theorem replyBytes_length (h : List BusEvent) :
    ∀ (sent out script : List Byte), (replyBytes h sent out script).length = out.length
  | _, [], _ => rfl
  | sent, o :: out, _ :: script => by simp [replyBytes, replyBytes_length h (sent ++ [o]) out script]
  | sent, o :: out, [] => by simp [replyBytes, replyBytes_length h (sent ++ [o]) out []]

/-- Where the script reaches, the reply is the script. -/
theorem replyBytes_take (h : List BusEvent) :
    ∀ (sent out script : List Byte),
      (replyBytes h sent out script).take script.length = script.take out.length
  | _, [], _ => by simp [replyBytes]
  | _, _ :: _, [] => by simp
  | sent, o :: out, b :: script => by
      simp [replyBytes, replyBytes_take h (sent ++ [o]) out script]

/-- A chip answer has as many bytes as were sent (R80). -/
theorem chipAnswer_length {s : State} {out inp : List Byte} (h : chipAnswer s out = some inp) :
    inp.length = out.length := by
  unfold chipAnswer at h
  split at h
  · cases h; simp
  · cases h
  · split at h
    · cases h
    · cases h; simp

theorem readFrame_length (p : Params) (a : RegAddr) (n : Nat) : (readFrame p a n).length = n + 3 := by
  simp [readFrame]

/-! ### One transaction -/

/-- The chip's answer inside an undisturbed transaction of `out`. -/
def transactAnswer (s : State) (out : List Byte) : Option (List Byte) :=
  chipAnswer { s with sel := true, trace := s.trace ++ [BusEvent.sel true] } out

/-- The state after an undisturbed transaction of `out` (R81). -/
def transactState (s : State) (out : List Byte) : State :=
  { s with
    sel := false
    chip := s.chip.tail
    trace := s.trace ++
      [.sel true,
        exchangeEvent out (transactAnswer s out),
        .sel false] }

section

variable (s : State) (out : List Byte)

@[simp] theorem transactState_seq : (transactState s out).seq = s.seq := rfl
@[simp] theorem transactState_busy : (transactState s out).busy = s.busy := rfl
@[simp] theorem transactState_done : (transactState s out).done = s.done := rfl
@[simp] theorem transactState_err : (transactState s out).err = s.err := rfl
@[simp] theorem transactState_errlog : (transactState s out).errlog = s.errlog := rfl
@[simp] theorem transactState_opa : (transactState s out).opa = s.opa := rfl
@[simp] theorem transactState_opb : (transactState s out).opb = s.opb := rfl
@[simp] theorem transactState_opc : (transactState s out).opc = s.opc := rfl
@[simp] theorem transactState_tmp : (transactState s out).tmp = s.tmp := rfl
@[simp] theorem transactState_feedSaved : (transactState s out).feedSaved = s.feedSaved := rfl
@[simp] theorem transactState_rb : (transactState s out).rb = s.rb := rfl
@[simp] theorem transactState_rlen : (transactState s out).rlen = s.rlen := rfl
@[simp] theorem transactState_btn : (transactState s out).btn = s.btn := rfl
@[simp] theorem transactState_x : (transactState s out).x = s.x := rfl
@[simp] theorem transactState_y : (transactState s out).y = s.y := rfl
@[simp] theorem transactState_z : (transactState s out).z = s.z := rfl
@[simp] theorem transactState_td : (transactState s out).td = s.td := rfl
@[simp] theorem transactState_idle : (transactState s out).idle = s.idle := rfl
@[simp] theorem transactState_hov : (transactState s out).hov = s.hov := rfl
@[simp] theorem transactState_ox : (transactState s out).ox = s.ox := rfl
@[simp] theorem transactState_oy : (transactState s out).oy = s.oy := rfl
@[simp] theorem transactState_ind : (transactState s out).ind = s.ind := rfl
@[simp] theorem transactState_dr : (transactState s out).dr = s.dr := rfl
@[simp] theorem transactState_cfg : (transactState s out).cfg = s.cfg := rfl
@[simp] theorem transactState_resets : (transactState s out).resets = s.resets := rfl
@[simp] theorem transactState_moves : (transactState s out).moves = s.moves := rfl
@[simp] theorem transactState_stageWord : (transactState s out).stageWord = s.stageWord := rfl
@[simp] theorem transactState_tick : (transactState s out).tick = s.tick := rfl
@[simp] theorem transactState_opsLoaded : (transactState s out).opsLoaded = s.opsLoaded := rfl
@[simp] theorem transactState_sampleHeld : (transactState s out).sampleHeld = s.sampleHeld := rfl
@[simp] theorem transactState_scaledHeld : (transactState s out).scaledHeld = s.scaledHeld := rfl
@[simp] theorem transactState_sel : (transactState s out).sel = false := rfl
@[simp] theorem transactState_chip : (transactState s out).chip = s.chip.tail := rfl

end

/-- A transaction when no reset is due: the whole of it (R81). -/
theorem transact_run {s : State} (hr : s.resets = []) (out : List Byte) :
    transact out s = match transactAnswer s out with
      | some inp => .ok inp (transactState s out)
      | none => .error (.raised .busFailure) (transactState s out) := by
  simp only [transact, driveSelect, exchange, emit, bind_run, hr, get_run, modify_run, pure_run,
    transactAnswer, transactState, List.append_assoc, List.cons_append, List.nil_append]
  split <;> simp_all

/-- A transaction the script answers. -/
theorem transactAnswer_script {s : State} {bs : List Byte} {rest : List ChipReply}
    (h : s.chip = .answer bs :: rest) (out : List Byte) :
    transactAnswer s out = some (replyBytes (s.trace ++ [.sel true]) [] out bs) := by
  simp [transactAnswer, chipAnswer, h]

/-- A transaction the script fails. -/
theorem transactAnswer_fail {s : State} {rest : List ChipReply} (h : s.chip = .fail :: rest)
    (out : List Byte) : transactAnswer s out = none := by
  simp [transactAnswer, chipAnswer, h]

@[simp] theorem actsOf_nil : actsOf [] = [] := rfl

@[simp] theorem actsOf_append (a b : List BusEvent) : actsOf (a ++ b) = actsOf a ++ actsOf b := by
  simp [actsOf]

@[simp] theorem actsOf_cons (e : BusEvent) (r : List BusEvent) :
    actsOf (e :: r) = actOf e ++ actsOf r := by
  simp [actsOf]

@[simp] theorem actOf_sel (b : Bool) : actOf (.sel b) = [] := rfl

@[simp] theorem actOf_delay (t : Nat) : actOf (.delay t) = [.settle] := rfl

@[simp] theorem actOf_ind (b : Bool) : actOf (.ind b) = [] := rfl

/-- The act of an exchange: the frame, or its failure. -/
def exchangeAct (out : List Byte) : Option (List Byte) → Act
  | some _ => .frame out
  | none => .failed out

@[simp] theorem actOf_exchangeEvent (out : List Byte) (r : Option (List Byte)) :
    actOf (exchangeEvent out r) = [exchangeAct out r] := by
  cases r <;> rfl

/-- A transaction is one act. -/
@[simp] theorem transactState_acts (s : State) (out : List Byte) :
    actsOf (transactState s out).trace =
      actsOf s.trace ++ [exchangeAct out (transactAnswer s out)] := by
  simp [transactState]

/-! ### RAP when no reset is due -/

/-- `RapRead` of a scripted answer that holds the data: those data (R91). -/
theorem rapRead_run {s : State} (hr : s.resets = []) {d : List Byte} {r : ChipReply}
    {rest : List ChipReply} (hc : s.chip = r :: rest) (hd : AnswersData d r) (a : RegAddr) :
    rapRead a d.length s = .ok d (transactState s (readFrame s.cfg.toParams a d.length)) := by
  obtain ⟨junk, more, hj, rfl⟩ := hd
  have key : ∀ out : List Byte, out.length = d.length + 3 → ∀ h,
      ((replyBytes h [] out (junk ++ (d ++ more))).drop 3).take d.length = d := by
    intro out ho h
    have ht := replyBytes_take h [] out (junk ++ (d ++ more))
    have h2 := congrArg (fun l => (l.take (d.length + 3)).drop 3) ht
    simp only [List.take_take, List.length_append, hj, ho] at h2
    have e1 : min (d.length + 3) (3 + (d.length + more.length)) = d.length + 3 := by omega
    rw [e1, Nat.min_self] at h2
    rw [List.drop_take] at h2
    simpa [List.take_append, List.drop_append, hj] using h2
  simp [rapRead, transact_run hr, transactAnswer_script hc, key _ (readFrame_length _ _ _)]

/-- `RapRead` of any scripted answer: `count` bytes (R91). -/
theorem rapRead_answered {s : State} (hr : s.resets = []) {bs : List Byte} {rest : List ChipReply}
    (hc : s.chip = .answer bs :: rest) (a : RegAddr) (n : Nat) :
    rapRead a n s = .ok
      (((replyBytes (s.trace ++ [.sel true]) [] (readFrame s.cfg.toParams a n) bs).drop 3).take n)
      (transactState s (readFrame s.cfg.toParams a n)) := by
  simp [rapRead, transact_run hr, transactAnswer_script hc]

/-- `RapRead(address, 1)[0]` of a scripted answer that holds the byte. -/
theorem rapReadByte_run {s : State} (hr : s.resets = []) {v : Byte} {r : ChipReply}
    {rest : List ChipReply} (hc : s.chip = r :: rest) (hd : AnswersData [v] r) (a : RegAddr) :
    rapReadByte a s = .ok v (transactState s (readFrame s.cfg.toParams a 1)) := by
  have h := rapRead_run hr hc hd a
  simp only [List.length_cons, List.length_nil, Nat.zero_add] at h
  simp [rapReadByte, h, byteAt]

/-- `RapWrite` of a scripted answer (R92). -/
theorem rapWrite_run {s : State} (hr : s.resets = []) {r : ChipReply} {rest : List ChipReply}
    (hc : s.chip = r :: rest) (ha : Answers r) (a : RegAddr) (v : Byte) :
    rapWrite a v s = .ok () (transactState s (writeFrame s.cfg.toParams a v)) := by
  obtain ⟨bs, rfl⟩ := ha
  simp [rapWrite, transact_run hr, transactAnswer_script hc]

/-- `RapRead` of a failing exchange (R91, R176). -/
theorem rapRead_fail {s : State} (hr : s.resets = []) {rest : List ChipReply}
    (hc : s.chip = .fail :: rest) (a : RegAddr) (n : Nat) :
    rapRead a n s =
      .error (.raised .busFailure) (transactState s (readFrame s.cfg.toParams a n)) := by
  simp [rapRead, transact_run hr, transactAnswer_fail hc]

/-- `RapWrite` of a failing exchange (R92, R176). -/
theorem rapWrite_fail {s : State} (hr : s.resets = []) {rest : List ChipReply}
    (hc : s.chip = .fail :: rest) (a : RegAddr) (v : Byte) :
    rapWrite a v s =
      .error (.raised .busFailure) (transactState s (writeFrame s.cfg.toParams a v)) := by
  simp [rapWrite, transact_run hr, transactAnswer_fail hc]

/-- `Settle()` when no reset is due (R115). -/
theorem settle_run {s : State} (hr : s.resets = []) :
    settle s = .ok () { s with trace := s.trace ++ [.delay s.cfg.settleTime] } := by
  simp [settle, emit, hr]

end Sys2Proof.Machine
end

