-- ==== Sys2Proof/Laws/Era.lean ====
section
/-!
SUPPORT. What the procedures do when no reset is due and the chip answers: RAP, feed, flags, poll,
ERA, tuning. `Does` is a triple over the bus-facing part of a state: which answers are taken, what
the chip sees, what `TMP` and `FEED_SAVED` become. Nothing else changes (`Ran`).
-/

namespace Sys2Proof.Machine

theorem Shows.append {n : Nat} {A B : List Act} {x y : List BusEvent} (h : Shows n A x)
    (h' : Shows n B y) : Shows n (A ++ B) (x ++ y) := by
  induction A generalizing x with
  | nil => obtain rfl : x = [] := h; exact h'
  | cons a A ih =>
    cases a with
    | frame out =>
      obtain ⟨i, m, hl, rfl, hm⟩ := h
      exact ⟨i, m ++ y, hl, rfl, ih hm⟩
    | failed out =>
      obtain ⟨m, rfl, hm⟩ := h
      exact ⟨m ++ y, rfl, ih hm⟩
    | settle =>
      obtain ⟨m, rfl, hm⟩ := h
      exact ⟨m ++ y, rfl, ih hm⟩

theorem Shows.acts {n : Nat} {A : List Act} {x : List BusEvent} (h : Shows n A x) :
    actsOf x = A := by
  induction A generalizing x with
  | nil => obtain rfl : x = [] := h; rfl
  | cons a A ih =>
    cases a with
    | frame out =>
      obtain ⟨i, m, hl, rfl, hm⟩ := h
      simpa [actOf] using ih hm
    | failed out =>
      obtain ⟨m, rfl, hm⟩ := h
      simpa [actOf] using ih hm
    | settle =>
      obtain ⟨m, rfl, hm⟩ := h
      simpa [actOf] using ih hm

/-- From `s` to `u` only the bus happened: the frames and delays `A` were sent, and besides the
answers taken, `TMP`, `FEED_SAVED` and `SEQ` nothing changed. -/
def Ran (s u : State) (A : List Act) : Prop :=
  ∃ q t f ev c,
    u = { s with
      seq := q, tmp := t, feedSaved := f, trace := s.trace ++ ev, chip := c,
      sel := if A = [] then s.sel else false } ∧
    Shows s.cfg.settleTime A ev

theorem Ran.refl (s : State) : Ran s s [] :=
  ⟨s.seq, s.tmp, s.feedSaved, [], s.chip, by simp, rfl⟩

theorem Ran.acts {s u : State} {A : List Act} (h : Ran s u A) :
    actsOf u.trace = actsOf s.trace ++ A := by
  obtain ⟨q, t, f, ev, c, rfl, h⟩ := h; simp [h.acts]

theorem Ran.sent {s u : State} {A : List Act} (h : Ran s u A) (hA : A ≠ []) : Sent s u A := by
  obtain ⟨q, t, f, ev, c, rfl, h⟩ := h; exact ⟨by simp [hA], ev, rfl, h⟩

theorem Ran.trans {s u v : State} {A B : List Act} (h1 : Ran s u A) (h2 : Ran u v B) :
    Ran s v (A ++ B) := by
  obtain ⟨q, t, f, tr, c, rfl, h⟩ := h1
  obtain ⟨q', t', f', tr', c', rfl, h'⟩ := h2
  refine ⟨q', t', f', tr ++ tr', c', ?_, h.append h'⟩
  by_cases hA : A = [] <;> by_cases hB : B = [] <;> simp [hA, hB]

/-- The bus-facing part of a state: the chip's answers left, `TMP`, `FEED_SAVED`. -/
structure BusView where
  rest : List ChipReply
  tmp : Byte
  saved : Bool

/-- `s` has the parameters `p`, no reset due, and the bus-facing part `b`. -/
def At (p : Params) (b : BusView) (s : State) : Prop :=
  s.resets = [] ∧ s.cfg.toParams = p ∧ s.chip = b.rest ∧ s.tmp = b.tmp ∧ s.feedSaved = b.saved

/-- On every state at `b`, `m` gives `a`, the chip sees `A`, and the state is then at `b'`. -/
def Does {α : Type} (p : Params) (b : BusView) (m : Sequence α) (a : α) (A : List Act)
    (b' : BusView) : Prop :=
  ∀ s, At p b s → ∃ u, m s = .ok a u ∧ Ran s u A ∧ At p b' u

variable {α β : Type} {p : Params} {b b' b'' : BusView} {A B : List Act}

namespace Does

theorem bind {m : Sequence α} {f : α → Sequence β} {a : α} {c : β} (h1 : Does p b m a A b')
    (h2 : Does p b' (f a) c B b'') : Does p b (m >>= f) c (A ++ B) b'' := by
  intro s hs
  obtain ⟨u, hm, hr, hu⟩ := h1 s hs
  obtain ⟨v, hf, hr', hv⟩ := h2 u hu
  exact ⟨v, by rw [bind_run, hm]; exact hf, hr.trans hr', hv⟩

/-- `bind` after a step the chip does not see. -/
theorem quiet {m : Sequence α} {f : α → Sequence β} {a : α} {c : β} (h1 : Does p b m a [] b')
    (h2 : Does p b' (f a) c B b'') : Does p b (m >>= f) c B b'' := by
  simpa using h1.bind h2

/-- `bind` before a step the chip does not see. -/
theorem hush {m : Sequence α} {f : α → Sequence β} {a : α} {c : β} (h1 : Does p b m a A b')
    (h2 : Does p b' (f a) c [] b'') : Does p b (m >>= f) c A b'' := by
  simpa using h1.bind h2

theorem ret (a : α) : Does p b (pure a) a [] b := fun s hs => ⟨s, rfl, Ran.refl s, hs⟩

/-- A step that reads the state and continues. -/
theorem read {f : State → Sequence β} {c : β} (h : ∀ s, At p b s → Does p b (f s) c A b') :
    Does p b (get >>= f) c A b' := by
  intro s hs
  obtain ⟨u, hm, hr⟩ := h s hs s hs
  exact ⟨u, by simpa using hm, hr⟩

/-- Moving `SEQ`. -/
theorem seq (f : State → Sequencer) :
    Does p b (modify fun s => { s with seq := f s }) () [] b := by
  intro s hs
  exact ⟨_, rfl, ⟨f s, s.tmp, s.feedSaved, [], s.chip, by simp, rfl⟩, hs⟩

theorem tmp (v : Byte) : Does p b (setTmp v) () [] { b with tmp := v } := by
  rintro s ⟨h1, h2, h3, -, h5⟩
  exact ⟨_, rfl, ⟨s.seq, v, s.feedSaved, [], s.chip, by simp, rfl⟩, h1, h2, h3, rfl, h5⟩

theorem stage (n : Nat) {k : Nat} : Does p b (atStage n k) () [] b := seq _

theorem enter : Does p b Machine.enter () [] b := seq _

theorem leave : Does p b Machine.leave () [] b := seq _

theorem idx (n : Nat) : Does p b (setIdx n) () [] b := seq _

theorem polls (n : Nat) : Does p b (setPolls n) () [] b := seq _

theorem inner {m : Sequence α} {a : α} (h : Does p b m a A b') : Does p b (inner m) a A b' := by
  unfold Machine.inner
  exact Does.quiet enter (Does.hush h (Does.quiet leave (ret a)))

/-- Rewriting what the chip sees. -/
theorem acts {m : Sequence α} {a : α} (h : Does p b m a A b') (e : A = B) : Does p b m a B b' :=
  e ▸ h

end Does

/-! ### RAP, feed, flags -/

theorem does_transact {s : State} {rest : List ChipReply} {r : ChipReply} {t : Byte} {f : Bool}
    (hs : At p ⟨r :: rest, t, f⟩ s) (hr : Answers r) (out : List Byte) :
    Ran s (transactState s out) [.frame out] ∧ At p ⟨rest, t, f⟩ (transactState s out) := by
  obtain ⟨h1, h2, h3, h4, h5⟩ := hs
  obtain ⟨bs, rfl⟩ := hr
  refine ⟨⟨s.seq, s.tmp, s.feedSaved, _, s.chip.tail, rfl, ?_⟩, h1, h2, by simp [h3], h4, h5⟩
  rw [transactAnswer_script h3]
  exact ⟨_, [], by simp, rfl, rfl⟩

theorem AnswersData.answers {d : List Byte} {r : ChipReply} (h : AnswersData d r) : Answers r := by
  obtain ⟨j, m, -, rfl⟩ := h; exact ⟨_, rfl⟩

variable {rest : List ChipReply} {t : Byte} {f : Bool} {r w : ChipReply}

theorem does_rapWrite (ha : Answers r) (a : RegAddr) (v : Byte) :
    Does p ⟨r :: rest, t, f⟩ (rapWrite a v) () [Act.W p a v] ⟨rest, t, f⟩ := by
  intro s hs
  have h := does_transact hs ha (writeFrame p a v)
  obtain ⟨h1, rfl, h3, -⟩ := hs
  exact ⟨_, rapWrite_run h1 h3 ha a v, h⟩

theorem does_rapRead {d : List Byte} (ha : AnswersData d r) (a : RegAddr) :
    Does p ⟨r :: rest, t, f⟩ (rapRead a d.length) d [Act.R p a d.length] ⟨rest, t, f⟩ := by
  intro s hs
  have h := does_transact hs ha.answers (readFrame p a d.length)
  obtain ⟨h1, rfl, h3, -⟩ := hs
  exact ⟨_, rapRead_run h1 h3 ha a, h⟩

theorem does_rapReadByte {v : Byte} (ha : AnswersData [v] r) (a : RegAddr) :
    Does p ⟨r :: rest, t, f⟩ (rapReadByte a) v [Act.R p a 1] ⟨rest, t, f⟩ := by
  intro s hs
  have h := does_transact hs ha.answers (readFrame p a 1)
  obtain ⟨h1, rfl, h3, -⟩ := hs
  exact ⟨_, rapReadByte_run h1 h3 ha a, h⟩

/-- `ClearFlags()` (R115). -/
theorem does_clearFlags (ha : Answers r) :
    Does p ⟨r :: rest, t, f⟩ clearFlags () (clearActs p) ⟨rest, t, f⟩ := by
  intro s hs
  obtain ⟨u, hm, hu, hat⟩ := (does_rapWrite ha regStatus 0x00).hush
    (f := fun _ => atStage 2) (Does.stage 2) s hs
  obtain ⟨h1, h2, h3, h4, h5⟩ := hat
  refine ⟨{ u with trace := u.trace ++ [.delay u.cfg.settleTime] }, ?_, ?_, h1, h2, h3, h4, h5⟩
  · have e : clearFlags = ((rapWrite regStatus 0x00 >>= fun _ => atStage 2) >>= fun _ => settle) := by
      simp only [clearFlags, bind_assoc]
    rw [e, bind_run, hm]
    exact settle_run h1
  · obtain ⟨q, t', f', tr, c, rfl, h⟩ := hu
    exact ⟨q, t', f', tr ++ [.delay s.cfg.settleTime], c, by simp [clearActs], h.append ⟨[], rfl, rfl⟩⟩

/-- `SetFeed(enable)` (R116). -/
theorem does_setFeed {v : Byte} (hr : AnswersData [v] r) (hw : Answers w) (e : Bool) :
    Does p ⟨r :: w :: rest, t, f⟩ (setFeed e) ()
      [Act.R p 0x04 1, Act.W p 0x04 (feedByte p e v)] ⟨rest, v, f⟩ := by
  unfold setFeed
  refine Does.read fun s hs => ?_
  obtain ⟨-, rfl, -⟩ := hs
  rw [config_feedReg]
  exact (does_rapReadByte hr 0x04).bind (Does.quiet (Does.tmp v) (Does.quiet (Does.stage 2)
    (Does.quiet (Does.stage 3) (does_rapWrite hw _ _))))

/-! ### ERA -/

/-- `Poll()` with `n` reads still allowed finds 0x00 at its `k`-th read (R104). -/
theorem does_pollLoop {k n : Nat} {rs : List ChipReply} (hk : PollReplies k rs) (hn : k ≤ n) :
    Does p ⟨rs ++ rest, t, f⟩ (pollLoop n) () (pollActs p k) ⟨rest, 0x00, f⟩ := by
  obtain ⟨busy, last, rfl, rfl, hl, hb⟩ := hk
  induction busy generalizing t n with
  | nil =>
    obtain ⟨n, rfl⟩ : ∃ m, n = m + 1 := ⟨n - 1, by simp at hn; omega⟩
    unfold pollLoop
    refine Does.quiet (Does.stage 2) (Does.quiet (Does.stage 2) ((does_rapReadByte hl regEraCtl).hush
      (Does.quiet (Does.tmp 0) (Does.read fun s _ => ?_))))
    exact Does.quiet (Does.polls _) (Does.quiet (Does.stage 2) (by simpa [eraDoneCode] using Does.ret ()))
  | cons r busy ih =>
    obtain ⟨n, rfl⟩ : ∃ m, n = m + 1 := ⟨n - 1, by simp at hn; omega⟩
    obtain ⟨c, hc, hr⟩ := hb r (by simp)
    unfold pollLoop
    refine Does.acts (Does.quiet (Does.stage 2) (Does.quiet (Does.stage 2)
      ((does_rapReadByte hr regEraCtl).bind (B := pollActs p (busy.length + 1))
        (Does.quiet (Does.tmp c) (Does.read fun s _ => Does.quiet (Does.polls _)
          (Does.quiet (Does.stage 2) ?_))))))
      (B := pollActs p ((r :: busy).length + 1)) ?_
    · rw [if_neg (by simpa [eraDoneCode] using hc)]
      exact ih (by simp at hn ⊢; omega) (fun x hx => hb x (by simp [hx]))
    · simp [pollActs, List.replicate_succ]

/-- `Poll()` (R104). -/
theorem does_poll {k : Nat} {rs : List ChipReply} (hk : PollReplies k rs) (hn : k ≤ p.pollBound) :
    Does p ⟨rs ++ rest, t, f⟩ poll () (pollActs p k) ⟨rest, 0x00, f⟩ := by
  unfold poll
  refine Does.quiet (Does.polls 0) (Does.read fun s hs => ?_)
  obtain ⟨-, rfl, -⟩ := hs
  exact does_pollLoop hk hn

/-- `EraBegin` lines 1 and 2 (R101). -/
theorem does_eraCapture {v : Byte} (hr : AnswersData [v] r) :
    Does p ⟨r :: rest, t, f⟩ eraCapture v [Act.R p 0x04 1] ⟨rest, v, feedBit p v⟩ := by
  unfold eraCapture
  refine Does.read fun s hs => ?_
  rw [config_feedReg]
  refine (does_rapReadByte hr 0x04).hush (Does.quiet (Does.tmp v) (Does.quiet (Does.stage 2) ?_))
  refine Does.quiet (a := ()) (b' := ⟨rest, v, feedBit p v⟩) ?_
    (Does.quiet (Does.stage 3) (Does.ret v))
  rintro s ⟨h1, rfl, h3, h4, h5⟩
  exact ⟨_, rfl, ⟨s.seq, s.tmp, _, [], s.chip, by simp; rfl, rfl⟩, h1, rfl, h3, h4, rfl⟩

/-- `EraBegin` line 3 (R101). -/
theorem does_eraDisableFeed (hw : Answers w) (v : Byte) :
    Does p ⟨w :: rest, t, f⟩ (eraDisableFeed v) ()
      [Act.W p 0x04 (v &&& ~~~p.feedEnMask)] ⟨rest, t, f⟩ := by
  unfold eraDisableFeed
  refine Does.read fun s hs => ?_
  obtain ⟨-, rfl, -⟩ := hs
  rw [config_feedReg]
  exact does_rapWrite hw _ _

/-- `EraLoadAddr(eaddr)` (R101). -/
theorem does_eraLoadAddr {w1 w2 : ChipReply} (h1 : Answers w1) (h2 : Answers w2) (eaddr : Word16) :
    Does p ⟨w1 :: w2 :: rest, t, f⟩ (eraLoadAddr eaddr) () (addrActs p eaddr) ⟨rest, t, f⟩ := by
  unfold eraLoadAddr
  exact (does_rapWrite h1 _ _).bind (Does.quiet (Does.stage 2) (does_rapWrite h2 _ _))

/-- The restore of `EraExit` (R106). -/
theorem does_eraRestore {c : EraTalk} {xs : List ChipReply} (hx : RestoreReplies p c xs) :
    Does p ⟨xs ++ rest, t, feedBit p c.feed⟩ eraRestore () (restoreActs p c)
      ⟨rest, if c.restores p then c.after else t, feedBit p c.feed⟩ := by
  unfold eraRestore
  refine Does.read fun s hs => ?_
  obtain ⟨-, rfl, -, -, h5⟩ := hs
  have e : (s.cfg.eraRestoreFeed && s.feedSaved) = c.restores s.cfg.toParams := by
    rw [h5]; rfl
  rw [e]
  unfold RestoreReplies at hx
  unfold restoreActs
  cases hc : c.restores s.cfg.toParams with
  | true =>
    rw [if_pos hc] at hx
    obtain ⟨r, w, rfl, hr, hw⟩ := hx
    simpa [feedByte] using (does_setFeed hr hw true).inner
  | false =>
    rw [if_neg (by simp [hc])] at hx
    subst hx
    simpa using Does.ret ()

/-- Unwinding `SEQ` is not seen on the bus. -/
theorem At.unwindTo {s : State} (h : At p b s) (line : Nat) (ret : List Stage) :
    At p b (s.unwindTo line ret) := h

theorem Ran.unwindTo {s u : State} (h : Ran s u A) (line : Nat) (ret : List Stage) :
    Ran s (u.unwindTo line ret) A := by
  obtain ⟨q, t, f, ev, c, rfl, h⟩ := h
  exact ⟨q.unwindTo line ret, t, f, ev, c, rfl, h⟩

/-- Line 3 of `EraBegin` and the body of an ERA operation that runs (R101). -/
theorem does_eraBody {w0 : ChipReply} {body : Sequence α} {a : α} {v : Byte} (hw : Answers w0)
    (hb : Does p ⟨rest, t, f⟩ body a A b') :
    Does p ⟨w0 :: rest, t, f⟩
      (do
        eraDisableFeed v
        leave
        body) a ([Act.W p 0x04 (v &&& ~~~p.feedEnMask)] ++ A) b' :=
  (does_eraDisableFeed hw v).bind (Does.quiet Does.leave hb)

/-- Leaving an ERA operation whose body ran and whose restore, if any, succeeds (R106). -/
theorem does_eraExit {line : Nat} {ret : List Stage} {body : Sequence α} {a : α}
    (hb : Does p b body a A b') (hx : Does p b' eraRestore () B b'') :
    Does p b (eraExit line ret body) a (A ++ B) b'' := by
  intro s hs
  obtain ⟨u, hm, hu, hat⟩ := hb s hs
  obtain ⟨v, hm', hv, hat'⟩ := hx _ (hat.unwindTo line ret)
  exact ⟨v, by unfold eraExit; simp only [hm, hm'], (hu.unwindTo line ret).trans hv, hat'⟩

/-- An ERA operation whose body runs (R101, R106). -/
theorem does_eraOperation {c : EraTalk} {r0 w0 : ChipReply} {mid xs : List ChipReply} {line : Nat}
    {body : Sequence α} {a : α} {t' : Byte} (hr : AnswersData [c.feed] r0) (hw : Answers w0)
    (hb : Does p ⟨mid ++ (xs ++ rest), c.feed, feedBit p c.feed⟩ body a A
      ⟨xs ++ rest, t', feedBit p c.feed⟩)
    (hx : RestoreReplies p c xs) :
    Does p ⟨r0 :: w0 :: (mid ++ (xs ++ rest)), t, f⟩ (eraOperation line body) a
      (beginActs p c.feed ++ A ++ restoreActs p c)
      ⟨rest, if c.restores p then c.after else t', feedBit p c.feed⟩ := by
  unfold eraOperation
  refine Does.read fun s _ => Does.acts (Does.quiet Does.enter ((does_eraCapture hr).bind
    (does_eraExit (does_eraBody hw hb) (does_eraRestore hx)))) (by simp [beginActs])

/-- `EraWrite(eaddr, value)` (R102). -/
theorem does_eraWrite {c : EraTalk} {rs : List ChipReply} (h : EraWriteReplies p c rs)
    (hk : c.InBound p) (eaddr : Word16) (value : Byte) :
    Does p ⟨rs ++ rest, t, f⟩ (eraWrite eaddr value) () (eraWriteActs p eaddr value c)
      ⟨rest, c.lastTmp p, feedBit p c.feed⟩ := by
  obtain ⟨k, r0, ws, ps, w, xs, rfl, hp, hr0, hl, hws, hps, hw, hx⟩ := h
  match ws, hl with
  | [w0, w1, w2, w3, w4], _ =>
    have hkb : k ≤ p.pollBound := hk k (by simp [hp])
    have body : Does p ⟨w1 :: w2 :: w3 :: w4 :: (ps ++ (w :: (xs ++ rest))), c.feed,
        feedBit p c.feed⟩
        (do
          atStage 2
          rapWrite regEraData value
          atStage 3
          inner (eraLoadAddr eaddr)
          atStage 4
          rapWrite regEraCtl eraWriteCode
          atStage 5
          inner poll
          atStage 6
          inner clearFlags) ()
        ([Act.W p regEraData value] ++ (addrActs p eaddr ++ ([Act.W p regEraCtl 0x02] ++
          (pollActs p k ++ clearActs p)))) ⟨xs ++ rest, 0x00, feedBit p c.feed⟩ :=
      Does.quiet (Does.stage 2)
      ((does_rapWrite (hws w1 (by simp)) regEraData value).bind (Does.quiet (Does.stage 3)
      ((does_eraLoadAddr (hws w2 (by simp)) (hws w3 (by simp)) eaddr).inner.bind
      (Does.quiet (Does.stage 4) ((does_rapWrite (hws w4 (by simp)) regEraCtl eraWriteCode).bind
      (Does.quiet (Does.stage 5) ((does_poll hps hkb).inner.bind (Does.quiet (Does.stage 6)
      (does_clearFlags hw).inner))))))))
    have op := does_eraOperation (line := 7) (t := t) (f := f) (mid := w1 :: w2 :: w3 :: w4 :: (ps ++ [w]))
      (rest := rest) hr0 (hws w0 (by simp)) (by simpa using body) hx
    unfold eraWrite
    have e : c.lastTmp p = if c.restores p then c.after else 0x00 := by simp [EraTalk.lastTmp, hp]
    rw [e]
    simpa [eraWriteActs, hp, eraWriteCode] using op

/-- The cycles of an ERA read (R103). -/
theorem does_eraCycles {ks : List Nat} {d : List Byte} {rs : List ChipReply}
    (h : CycleReplies ks d rs) (hk : ∀ k ∈ ks, k ≤ p.pollBound) (i : Nat) :
    Does p ⟨rs ++ rest, t, f⟩ (eraCycles d.length i) d (cyclesActs p ks)
      ⟨rest, if ks = [] then t else 0x00, f⟩ := by
  induction ks generalizing d rs t i with
  | nil =>
    cases d with
    | nil => obtain rfl : rs = [] := h; simpa [eraCycles, cyclesActs] using Does.ret []
    | cons b d => exact h.elim
  | cons k ks ih =>
    cases d with
    | nil => exact h.elim
    | cons b d =>
      obtain ⟨w, ps, fr, c, more, rfl, hw, hps, hf, hc, hmore⟩ := h
      have tail := ih (t := 0x00) hmore (fun k hk' => hk k (by simp [hk'])) (i + 1)
      have e : (if ks = [] then (0x00 : Byte) else 0x00) = 0x00 := by split <;> rfl
      rw [e] at tail
      have e2 : w :: ps ++ fr :: c :: more ++ rest = w :: (ps ++ (fr :: c :: (more ++ rest))) := by
        simp
      rw [e2]
      refine Does.acts (A := [Act.W p regEraCtl 0x05] ++ (pollActs p k ++ ([Act.R p regEraData 1] ++
        (clearActs p ++ cyclesActs p ks)))) ?_ (by simp [cyclesActs])
      exact Does.quiet (Does.idx i) (Does.quiet (Does.stage 3)
        ((does_rapWrite hw regEraCtl eraReadCode).bind (Does.quiet (Does.stage 3)
        ((does_poll hps (hk k (by simp))).inner.bind (Does.quiet (Does.stage 3)
        ((does_rapReadByte hf regEraData).bind (Does.quiet (Does.stage 3)
        ((does_clearFlags hc).inner.bind (tail.hush (Does.ret (b :: d)))))))))))

/-- `EraRead(eaddr, count)` (R103). -/
theorem does_eraRead {c : EraTalk} {rs : List ChipReply} (h : EraReadReplies p c rs)
    (hk : c.InBound p) (eaddr : Word16) :
    Does p ⟨rs ++ rest, t, f⟩ (eraRead eaddr c.data.length) c.data (eraReadActs p eaddr c)
      ⟨rest, c.lastTmp p, feedBit p c.feed⟩ := by
  obtain ⟨r0, ws, cs, xs, rfl, hr0, hl, hws, hcs, hx⟩ := h
  match ws, hl with
  | [w0, w1, w2], _ =>
    have body : Does p ⟨w1 :: w2 :: (cs ++ (xs ++ rest)), c.feed, feedBit p c.feed⟩
        (do
          atStage 2
          inner (eraLoadAddr eaddr)
          atStage 3
          eraCycles c.data.length 0) c.data (addrActs p eaddr ++ cyclesActs p c.polls)
        ⟨xs ++ rest, if c.polls = [] then c.feed else 0x00, feedBit p c.feed⟩ :=
      Does.quiet (Does.stage 2)
      ((does_eraLoadAddr (hws w1 (by simp)) (hws w2 (by simp)) eaddr).inner.bind
      (Does.quiet (Does.stage 3) (does_eraCycles hcs hk 0)))
    have op := does_eraOperation (line := 4) (t := t) (f := f) (mid := w1 :: w2 :: cs) (rest := rest) hr0
      (hws w0 (by simp)) (by simpa using body) hx
    unfold eraRead
    have e : c.lastTmp p = if c.restores p then c.after else if c.polls = [] then c.feed else 0x00 := rfl
    rw [e]
    simpa [eraReadActs] using op

/-! ### Tuning -/

/-- Lines 1 to 5 of `SET_ATTEN` (R150): only `RB`, `RLEN` change besides the bus. -/
theorem attenuationTuning_run {c1 c2 c3 : EraTalk} {rs : List ChipReply}
    (h : AttenReplies p c1 c2 c3 rs) (h1 : c1.InBound p) (h2 : c2.InBound p) (h3 : c3.InBound p)
    (gain : Byte) {s : State} (hs : At p ⟨rs ++ rest, t, f⟩ s) :
    ∃ u, attenuationTuning gain s = .ok () (u.storeRead [byteAt c3.data 0]) ∧
      Ran s u (attenActs p gain c1 c2 c3) ∧ At p ⟨rest, c3.lastTmp p, feedBit p c3.feed⟩ u := by
  obtain ⟨r1, r2, r3, rfl, l1, l3, e1, e2, e3⟩ := h
  have d1 := does_eraRead (t := t) (f := f) (rest := r2 ++ (r3 ++ rest)) e1 h1 0x0187
  have d2 := does_eraWrite (t := byteAt c1.data 0) (f := feedBit p c1.feed) (rest := r3 ++ rest) e2 h2
    0x0187 (attenByte (byteAt c1.data 0) gain)
  have d3 := does_eraRead (t := c2.lastTmp p) (f := feedBit p c2.feed) (rest := rest) e3 h3 0x0187
  rw [l1] at d1
  rw [l3] at d3
  have d : Does p ⟨r1 ++ (r2 ++ (r3 ++ rest)), t, f⟩
      (do
        let s ← get
        let d ← inner (eraRead s.cfg.attenAddr 1)
        setTmp (byteAt d 0)
        atStage 2
        atStage 3
        inner (eraWrite s.cfg.attenAddr (attenByte (byteAt d 0) gain))
        atStage 4
        let c ← inner (eraRead s.cfg.attenAddr 1)
        atStage 5
        return c) c3.data
      (eraReadActs p 0x0187 c1 ++
        (eraWriteActs p 0x0187 (attenByte (byteAt c1.data 0) gain) c2 ++
          eraReadActs p 0x0187 c3)) ⟨rest, c3.lastTmp p, feedBit p c3.feed⟩ := by
    refine Does.read fun s _ => ?_
    rw [config_attenAddr]
    exact d1.inner.bind (Does.quiet (Does.tmp _) (Does.quiet (Does.stage 2) (Does.quiet (Does.stage 3)
      (d2.inner.bind (Does.quiet (Does.stage 4) (d3.inner.hush (Does.quiet (Does.stage 5)
        (Does.ret _))))))))
  obtain ⟨u, hm, hr, hat⟩ := d s (by simpa using hs)
  refine ⟨u, ?_, by simpa [attenActs, attenByte] using hr, hat⟩
  have e : attenuationTuning gain = (do
      let c ← (do
        let s ← get
        let d ← inner (eraRead s.cfg.attenAddr 1)
        setTmp (byteAt d 0)
        atStage 2
        atStage 3
        inner (eraWrite s.cfg.attenAddr (attenByte (byteAt d 0) gain))
        atStage 4
        let c ← inner (eraRead s.cfg.attenAddr 1)
        atStage 5
        return c)
      modify fun s => s.storeRead [byteAt c 0]) := by
    simp only [attenuationTuning, bind_assoc, pure_bind]
  rw [e, bind_run, hm]
  rfl

/-- Lines 1 and 2 of `TUNE_EDGE` (R151). -/
theorem does_edgeTuning {c1 c2 : EraTalk} {rs : List ChipReply} (h : EdgeReplies p c1 c2 rs)
    (h1 : c1.InBound p) (h2 : c2.InBound p) :
    Does p ⟨rs ++ rest, t, f⟩ edgeTuning () (edgeActs p c1 c2)
      ⟨rest, c2.lastTmp p, feedBit p c2.feed⟩ := by
  obtain ⟨r1, r2, rfl, e1, e2⟩ := h
  have d2 := does_eraWrite (t := c1.lastTmp p) (f := feedBit p c1.feed) (rest := rest) e2 h2
    0x0168 p.edgeBVal
  have d1 := does_eraWrite (t := t) (f := f) (rest := r2 ++ rest) e1 h1 0x0149 p.edgeAVal
  rw [List.append_assoc]
  unfold edgeTuning
  refine Does.read fun s hs => ?_
  obtain ⟨-, rfl, -⟩ := hs
  rw [config_edgeAAddr, config_edgeBAddr]
  exact d1.inner.bind (Does.quiet (Does.stage 2) d2.inner)

/-- Line 2 of `INIT` (R152, R153). -/
theorem does_baseWrites {l : List (RegAddr × Byte)} {rs : List ChipReply}
    (hl : rs.length = l.length) (ha : ∀ r ∈ rs, Answers r) (j : Nat) :
    Does p ⟨rs ++ rest, t, f⟩ (baseWrites l j) () (l.map fun e => Act.W p e.1 e.2)
      ⟨rest, t, f⟩ := by
  induction l generalizing rs j with
  | nil =>
    obtain rfl : rs = [] := by simpa using hl
    exact Does.ret ()
  | cons e l ih =>
    obtain ⟨r, rs, rfl⟩ : ∃ r rs', rs = r :: rs' := by
      cases rs with
      | nil => simp at hl
      | cons r rs => exact ⟨r, rs, rfl⟩
    obtain ⟨a, v⟩ := e
    exact Does.quiet (Does.idx j) ((does_rapWrite (ha r (by simp)) a v).bind
      (ih (by simpa using hl) (fun x hx => ha x (by simp [hx])) (j + 1)))

end Sys2Proof.Machine
end

