-- ==== Sys2Proof/Laws/Fail.lean ====
section
/-!
SUPPORT. How the procedures end early when no reset is due: a failing exchange (`40_bus_transport.md`
R81, `60_exceptions.md` R176), a poll past its bound (`42_era.md` R104), and what `EraExit` makes of
them (R106, R182). `Breaks` is the triple of `Laws/Era.lean` for a sequence that raises.
-/

namespace Sys2Proof.Machine

/-- On every state at `b`, `m` raises `e`, the acts `A` happened, and the state is then at `b'`. -/
def Breaks {α : Type} (p : Params) (b : BusView) (m : Sequence α) (e : ErrKind) (A : List Act)
    (b' : BusView) : Prop :=
  ∀ s, At p b s → ∃ u, m s = .error (.raised e) u ∧ Ran s u A ∧ At p b' u

variable {α β : Type} {p : Params} {b b' b'' : BusView} {A B : List Act} {e : ErrKind}

namespace Breaks

/-- The rest of a sequence does not run (R181). -/
theorem bind {m : Sequence α} {f : α → Sequence β} (h : Breaks p b m e A b') :
    Breaks p b (m >>= f) e A b' := by
  intro s hs
  obtain ⟨u, hm, hr⟩ := h s hs
  exact ⟨u, by rw [bind_run, hm], hr⟩

theorem after {m : Sequence α} {f : α → Sequence β} {a : α} (h1 : Does p b m a A b')
    (h2 : Breaks p b' (f a) e B b'') : Breaks p b (m >>= f) e (A ++ B) b'' := by
  intro s hs
  obtain ⟨u, hm, hr, hu⟩ := h1 s hs
  obtain ⟨v, hf, hr', hv⟩ := h2 u hu
  exact ⟨v, by rw [bind_run, hm]; exact hf, hr.trans hr', hv⟩

/-- `after` a step the chip does not see. -/
theorem quiet {m : Sequence α} {f : α → Sequence β} {a : α} (h1 : Does p b m a [] b')
    (h2 : Breaks p b' (f a) e B b'') : Breaks p b (m >>= f) e B b'' := by
  simpa using after h1 h2

theorem raise (e : ErrKind) : Breaks p b (Machine.raise e : Sequence α) e [] b :=
  fun s hs => ⟨s, rfl, Ran.refl s, hs⟩

theorem read {f : State → Sequence β} (h : ∀ s, At p b s → Breaks p b (f s) e A b') :
    Breaks p b (get >>= f) e A b' := by
  intro s hs
  obtain ⟨u, hm, hr⟩ := h s hs s hs
  exact ⟨u, by simpa using hm, hr⟩

theorem inner {m : Sequence α} (h : Breaks p b m e A b') : Breaks p b (inner m) e A b' := by
  unfold Machine.inner
  exact quiet Does.enter h.bind

theorem acts {m : Sequence α} (h : Breaks p b m e A b') (he : A = B) : Breaks p b m e B b' :=
  he ▸ h

end Breaks

/-! ### A failing exchange -/

variable {rest : List ChipReply} {t : Byte} {f : Bool} {r w : ChipReply}

theorem breaks_transact {s : State} (hs : At p ⟨.fail :: rest, t, f⟩ s) (out : List Byte) :
    Ran s (transactState s out) [.failed out] ∧ At p ⟨rest, t, f⟩ (transactState s out) := by
  obtain ⟨h1, h2, h3, h4, h5⟩ := hs
  refine ⟨⟨s.seq, s.tmp, s.feedSaved, _, s.chip.tail, rfl, ?_⟩, h1, h2, by simp [h3], h4, h5⟩
  rw [transactAnswer_fail h3]
  exact ⟨[], rfl, rfl⟩

theorem breaks_rapWrite (a : RegAddr) (v : Byte) :
    Breaks p ⟨.fail :: rest, t, f⟩ (rapWrite a v) .busFailure [Act.WFail p a v] ⟨rest, t, f⟩ := by
  intro s hs
  have h := breaks_transact hs (writeFrame p a v)
  obtain ⟨h1, rfl, h3, -⟩ := hs
  exact ⟨_, rapWrite_fail h1 h3 a v, h⟩

theorem breaks_rapRead (a : RegAddr) (n : Nat) :
    Breaks p ⟨.fail :: rest, t, f⟩ (rapRead a n) .busFailure [Act.RFail p a n] ⟨rest, t, f⟩ := by
  intro s hs
  have h := breaks_transact hs (readFrame p a n)
  obtain ⟨h1, rfl, h3, -⟩ := hs
  exact ⟨_, rapRead_fail h1 h3 a n, h⟩

theorem breaks_rapReadByte (a : RegAddr) :
    Breaks p ⟨.fail :: rest, t, f⟩ (rapReadByte a) .busFailure [Act.RFail p a 1] ⟨rest, t, f⟩ :=
  (breaks_rapRead a 1).bind

/-- A failing flag clear: no settle (R115). -/
theorem breaks_clearFlags :
    Breaks p ⟨.fail :: rest, t, f⟩ clearFlags .busFailure [Act.WFail p regStatus 0x00]
      ⟨rest, t, f⟩ :=
  (breaks_rapWrite regStatus 0x00).bind

/-- `SetFeed` with a failing read (R116). -/
theorem breaks_setFeed_read (e : Bool) :
    Breaks p ⟨.fail :: rest, t, f⟩ (setFeed e) .busFailure [Act.RFail p 0x04 1] ⟨rest, t, f⟩ := by
  unfold setFeed
  refine Breaks.read fun s _ => ?_
  rw [config_feedReg]
  exact (breaks_rapReadByte 0x04).bind

/-- `SetFeed` with a failing write (R116). -/
theorem breaks_setFeed_write {v : Byte} (hr : AnswersData [v] r) (e : Bool) :
    Breaks p ⟨r :: .fail :: rest, t, f⟩ (setFeed e) .busFailure
      [Act.R p 0x04 1, Act.WFail p 0x04 (feedByte p e v)] ⟨rest, v, f⟩ := by
  unfold setFeed
  refine Breaks.read fun s hs => ?_
  obtain ⟨-, rfl, -⟩ := hs
  rw [config_feedReg]
  exact Breaks.after (does_rapReadByte hr 0x04) (Breaks.quiet (Does.tmp v)
    (Breaks.quiet (Does.stage 2) (Breaks.quiet (Does.stage 3) (breaks_rapWrite _ _))))

/-! ### A poll that does not end -/

/-- Reads of a nonzero byte use up the poll (R104). -/
theorem breaks_pollLoop {n : Nat} {last : Byte} {rs : List ChipReply}
    (h : BusyReplies n last rs) :
    Breaks p ⟨rs ++ rest, t, f⟩ (pollLoop n) .deviceTimeout (pollActs p n) ⟨rest, last, f⟩ := by
  obtain ⟨before, r, rfl, rfl, hl, hr, hb⟩ := h
  induction before generalizing t with
  | nil =>
    refine Breaks.acts (Breaks.quiet (Does.stage 2) (Breaks.quiet (Does.stage 2)
      (Breaks.after (B := []) (does_rapReadByte hr regEraCtl) (Breaks.quiet (Does.tmp last)
        (Breaks.read fun s _ => Breaks.quiet (Does.polls _) (Breaks.quiet (Does.stage 2) ?_)))))) rfl
    rw [if_neg (by simpa [eraDoneCode] using hl)]
    exact Breaks.quiet (Does.stage 2) (Breaks.raise _)
  | cons x before ih =>
    obtain ⟨c, hc, hx⟩ := hb x (by simp)
    refine Breaks.acts (Breaks.quiet (Does.stage 2) (Breaks.quiet (Does.stage 2)
      (Breaks.after (B := pollActs p (before ++ [r]).length) (does_rapReadByte hx regEraCtl)
        (Breaks.quiet (Does.tmp c) (Breaks.read fun s _ => Breaks.quiet (Does.polls _)
          (Breaks.quiet (Does.stage 2) ?_)))))) ?_
    · rw [if_neg (by simpa [eraDoneCode] using hc)]
      exact ih fun y hy => hb y (by simp [hy])
    · simp [pollActs, List.replicate_succ]

/-- A failing read within the bound ends the poll with `BusFailure` (R104, R182). -/
theorem breaks_pollLoop_bus {n : Nat} {rs : List ChipReply} (hn : rs.length < n)
    (hb : ∀ x ∈ rs, ∃ c : Byte, c ≠ 0 ∧ AnswersData [c] x) :
    ∃ t', Breaks p ⟨rs ++ .fail :: rest, t, f⟩ (pollLoop n) .busFailure
      (pollActs p rs.length ++ [Act.RFail p regEraCtl 1]) ⟨rest, t', f⟩ := by
  induction rs generalizing t n with
  | nil =>
    obtain ⟨n, rfl⟩ : ∃ m, n = m + 1 := ⟨n - 1, by simp at hn; omega⟩
    exact ⟨t, Breaks.quiet (Does.stage 2)
      (Breaks.quiet (Does.stage 2) (breaks_rapReadByte regEraCtl).bind)⟩
  | cons x rs ih =>
    obtain ⟨n, rfl⟩ : ∃ m, n = m + 1 := ⟨n - 1, by simp at hn; omega⟩
    obtain ⟨c, hc, hx⟩ := hb x (by simp)
    obtain ⟨t', h⟩ := ih (t := c) (n := n) (by simpa using hn) fun y hy => hb y (by simp [hy])
    refine ⟨t', Breaks.acts (Breaks.quiet (Does.stage 2) (Breaks.quiet (Does.stage 2)
      (Breaks.after (B := pollActs p rs.length ++ [Act.RFail p regEraCtl 1])
        (does_rapReadByte hx regEraCtl) (Breaks.quiet (Does.tmp c) (Breaks.read fun s _ =>
          Breaks.quiet (Does.polls _) (Breaks.quiet (Does.stage 2) ?_)))))) ?_⟩
    · rw [if_neg (by simpa [eraDoneCode] using hc)]
      exact h
    · simp [pollActs, List.replicate_succ]

/-- `Poll()` past its bound (R104). -/
theorem breaks_poll {last : Byte} {rs : List ChipReply} (h : BusyReplies p.pollBound last rs) :
    Breaks p ⟨rs ++ rest, t, f⟩ poll .deviceTimeout (pollActs p p.pollBound) ⟨rest, last, f⟩ := by
  unfold poll
  refine Breaks.quiet (Does.polls 0) (Breaks.read fun s hs => ?_)
  obtain ⟨-, rfl, -⟩ := hs
  exact breaks_pollLoop h

/-- `Poll()` with a failing read (R104). -/
theorem breaks_poll_bus {rs : List ChipReply} (hn : rs.length < p.pollBound)
    (hb : ∀ x ∈ rs, ∃ c : Byte, c ≠ 0 ∧ AnswersData [c] x) :
    ∃ t', Breaks p ⟨rs ++ .fail :: rest, t, f⟩ poll .busFailure
      (pollActs p rs.length ++ [Act.RFail p regEraCtl 1]) ⟨rest, t', f⟩ := by
  obtain ⟨t', h⟩ := breaks_pollLoop_bus (p := p) (rest := rest) (t := t) (f := f) hn hb
  refine ⟨t', Breaks.quiet (Does.polls 0) (Breaks.read fun s hs => ?_)⟩
  obtain ⟨-, rfl, -⟩ := hs
  exact h

/-! ### Leaving an ERA operation (R106) -/

/-- `EraBegin` whose read fails: nothing to restore (R106). -/
theorem breaks_eraOperation_capture (line : Nat) (body : Sequence α) :
    Breaks p ⟨.fail :: rest, t, f⟩ (eraOperation line body) .busFailure [Act.RFail p 0x04 1]
      ⟨rest, t, f⟩ := by
  unfold eraOperation eraCapture
  refine Breaks.read fun s _ => Breaks.quiet Does.enter (Breaks.bind (Breaks.read fun u _ => ?_))
  rw [config_feedReg]
  exact (breaks_rapReadByte 0x04).bind

/-- Line 3 of `EraBegin` runs and the body of an ERA operation raises (R101). -/
theorem breaks_eraBody {w0 : ChipReply} {body : Sequence α} {v : Byte} (hw : Answers w0)
    (hb : Breaks p ⟨rest, t, f⟩ body e A b') :
    Breaks p ⟨w0 :: rest, t, f⟩
      (do
        eraDisableFeed v
        leave
        body) e ([Act.W p 0x04 (v &&& ~~~p.feedEnMask)] ++ A) b' :=
  Breaks.after (does_eraDisableFeed hw v) (Breaks.quiet Does.leave hb)

/-- Leaving an ERA operation that raised through a restore that succeeds (R106). -/
theorem breaks_eraExit {line : Nat} {ret : List Stage} {body : Sequence α}
    (hb : Breaks p b body e A b') (hx : Does p b' eraRestore () B b'') :
    Breaks p b (eraExit line ret body) e (A ++ B) b'' := by
  intro s hs
  obtain ⟨u, hm, hu, hat⟩ := hb s hs
  obtain ⟨v, hm', hv, hat'⟩ := hx _ (hat.unwindTo line ret)
  exact ⟨v, by unfold eraExit; simp only [hm, hm'], (hu.unwindTo line ret).trans hv, hat'⟩

/-- A failing restore is the error of an operation that had none (R106). -/
theorem breaks_eraExit_restore {line : Nat} {ret : List Stage} {body : Sequence α} {a : α}
    (hb : Does p b body a A b') (hx : Breaks p b' eraRestore e B b'') :
    Breaks p b (eraExit line ret body) e (A ++ B) b'' := by
  intro s hs
  obtain ⟨u, hm, hu, hat⟩ := hb s hs
  obtain ⟨v, hm', hv, hat'⟩ := hx _ (hat.unwindTo line ret)
  exact ⟨v, by unfold eraExit; simp only [hm, hm'], (hu.unwindTo line ret).trans hv, hat'⟩

/-- A failing restore does not hide the operation's own error (R106, R182). -/
theorem breaks_eraExit_both {line : Nat} {ret : List Stage} {body : Sequence α} {e' : ErrKind}
    (hb : Breaks p b body e A b') (hx : Breaks p b' eraRestore e' B b'') :
    Breaks p b (eraExit line ret body) e (A ++ B) b'' := by
  intro s hs
  obtain ⟨u, hm, hu, hat⟩ := hb s hs
  obtain ⟨v, hm', hv, hat'⟩ := hx _ (hat.unwindTo line ret)
  exact ⟨v, by unfold eraExit; simp only [hm, hm'], (hu.unwindTo line ret).trans hv, hat'⟩

/-- An ERA operation from its capture on: how it leaves is how `EraExit` does (R101, R106). -/
theorem breaks_eraOperation_exit {feed : Byte} {r0 : ChipReply} {line : Nat} {body : Sequence α}
    (hr : AnswersData [feed] r0)
    (hx : ∀ ret, Breaks p ⟨rest, feed, feedBit p feed⟩
      (eraExit line ret do
        eraDisableFeed feed
        leave
        body) e A b') :
    Breaks p ⟨r0 :: rest, t, f⟩ (eraOperation line body) e ([Act.R p 0x04 1] ++ A) b' := by
  unfold eraOperation
  exact Breaks.read fun s _ => Breaks.quiet Does.enter (Breaks.after (does_eraCapture hr) (hx _))

/-- An ERA operation whose body raises, and whose restore, if any, succeeds. -/
theorem breaks_eraOperation {c : EraTalk} {r0 w0 : ChipReply} {mid xs : List ChipReply} {line : Nat}
    {body : Sequence α} {t' : Byte} (hr : AnswersData [c.feed] r0) (hw : Answers w0)
    (hb : Breaks p ⟨mid ++ (xs ++ rest), c.feed, feedBit p c.feed⟩ body e A
      ⟨xs ++ rest, t', feedBit p c.feed⟩)
    (hx : RestoreReplies p c xs) :
    Breaks p ⟨r0 :: w0 :: (mid ++ (xs ++ rest)), t, f⟩ (eraOperation line body) e
      (beginActs p c.feed ++ A ++ restoreActs p c)
      ⟨rest, if c.restores p then c.after else t', feedBit p c.feed⟩ :=
  (breaks_eraOperation_exit hr fun _ =>
    breaks_eraExit (breaks_eraBody hw hb) (does_eraRestore hx)).acts (by simp [beginActs])

/-- The restore with a failing read or a failing write (R106, R116). -/
theorem breaks_eraRestore {xs : List ChipReply} (he : p.eraRestoreFeed = true)
    (hx : RestoreFails p xs B) :
    ∃ t', Breaks p ⟨xs ++ rest, t, true⟩ eraRestore .busFailure B ⟨rest, t', true⟩ := by
  have key : ∀ {t'}, Breaks p ⟨xs ++ rest, t, true⟩ (setFeed true) .busFailure B ⟨rest, t', true⟩ →
      Breaks p ⟨xs ++ rest, t, true⟩ eraRestore .busFailure B ⟨rest, t', true⟩ := by
    intro t' h
    unfold eraRestore
    refine Breaks.read fun s hs => ?_
    obtain ⟨-, rfl, -, -, h5⟩ := hs
    rw [if_pos (by simp [he, h5])]
    exact h.inner
  obtain ⟨rfl, rfl⟩ | ⟨old, r, rfl, hr, rfl⟩ := hx
  · exact ⟨t, key (breaks_setFeed_read true)⟩
  · exact ⟨old, key (by simpa [feedByte] using breaks_setFeed_write (rest := rest) (t := t) hr true)⟩

/-- An ERA operation that had no error of its own and whose restore fails (R106). -/
theorem breaks_eraOperation_restore {feed : Byte} {r0 w0 : ChipReply} {mid xs : List ChipReply}
    {line : Nat} {body : Sequence α} {a : α} {t' : Byte} (hr : AnswersData [feed] r0) (hw : Answers w0)
    (he : p.eraRestoreFeed = true) (hf : feedBit p feed = true)
    (hb : Does p ⟨mid ++ (xs ++ rest), feed, true⟩ body a A ⟨xs ++ rest, t', true⟩)
    (hx : RestoreFails p xs B) :
    ∃ t'', Breaks p ⟨r0 :: w0 :: (mid ++ (xs ++ rest)), t, f⟩ (eraOperation line body) .busFailure
      (beginActs p feed ++ A ++ B) ⟨rest, t'', true⟩ := by
  obtain ⟨t'', h⟩ := breaks_eraRestore (t := t') (rest := rest) he hx
  refine ⟨t'', (breaks_eraOperation_exit hr fun _ => ?_).acts (A := [Act.R p 0x04 1] ++
    (([Act.W p 0x04 (feed &&& ~~~p.feedEnMask)] ++ A) ++ B)) (by simp [beginActs])⟩
  rw [hf]
  exact breaks_eraExit_restore (does_eraBody hw hb) h

/-- A failing restore does not hide the operation's own error (R106, R182). -/
theorem breaks_eraOperation_both {feed : Byte} {r0 w0 : ChipReply} {mid xs : List ChipReply}
    {line : Nat} {body : Sequence α} {t' : Byte} (hr : AnswersData [feed] r0) (hw : Answers w0)
    (he : p.eraRestoreFeed = true) (hf : feedBit p feed = true)
    (hb : Breaks p ⟨mid ++ (xs ++ rest), feed, true⟩ body e A ⟨xs ++ rest, t', true⟩)
    (hx : RestoreFails p xs B) :
    ∃ t'', Breaks p ⟨r0 :: w0 :: (mid ++ (xs ++ rest)), t, f⟩ (eraOperation line body) e
      (beginActs p feed ++ A ++ B) ⟨rest, t'', true⟩ := by
  obtain ⟨t'', h⟩ := breaks_eraRestore (t := t') (rest := rest) he hx
  refine ⟨t'', (breaks_eraOperation_exit hr fun _ => ?_).acts (A := [Act.R p 0x04 1] ++
    (([Act.W p 0x04 (feed &&& ~~~p.feedEnMask)] ++ A) ++ B)) (by simp [beginActs])⟩
  rw [hf]
  exact breaks_eraExit_both (breaks_eraBody hw hb) h

end Sys2Proof.Machine
end

