-- ==== Sys2Proof/Laws/Command.lean ====
section
/-!
SUPPORT. From a sequence to the command around it (`30_encoding.md` R69, `60_exceptions.md` R180): what
`runCommand` and `runStage` answer when their sequence `Does` or `Breaks`, said once.
-/

namespace Sys2Proof.Machine

variable {A : List Act} {e : ErrKind} {t' : Byte} {f' : Bool} {rest : List ChipReply}

/-- The parts of a state a sequence over the bus leaves alone, seen through `Ran`. -/
theorem Ran.same {s u : State} (h : Ran s u A) :
    SameBeyondBus s u ∧ SameBuffer s u ∧ SameLatches s u ∧ u.err = s.err ∧ u.errlog = s.errlog ∧
      u.busy = s.busy ∧ u.done = s.done := by
  obtain ⟨q, t, f, ev, c, rfl, -⟩ := h
  simp [SameBeyondBus, SameWorld, SameSample, SameScaled, SameBuffer, SameLatches]

/-- The bus-facing part at acceptance. -/
theorem at_accept {s : State} (hr : s.resets = []) (op : SeqOp) (code : BitVec 4) (a b : Word16) :
    At s.cfg.toParams ⟨s.chip, s.tmp, s.feedSaved⟩ (s.accept op code a b) :=
  ⟨hr, rfl, rfl, rfl, rfl⟩

/-- The end of a command: what a state a sequence reached becomes. -/
theorem endWith_facts {s u : State} {op : SeqOp} {code : BitVec 4} {a b : Word16} (e : ErrKind)
    (hA : A ≠ []) (h : Ran (s.accept op code a b) u A)
    (hat : At s.cfg.toParams ⟨rest, t', f'⟩ u) :
    Ended s (u.endWith e) e ∧ Latched (u.endWith e) code a b ∧ (u.endWith e).chip = rest ∧
      Sent s (u.endWith e) A ∧ (u.endWith e).tmp = t' ∧ (u.endWith e).feedSaved = f' ∧
      SameBeyondBus s (u.endWith e) ∧ SameBuffer s (u.endWith e) := by
  obtain ⟨h1, h2, h3, h4, h5⟩ := hat
  obtain ⟨q, t, f, ev, c, rfl, hev⟩ := h
  simp only [State.endWith, State.accept] at *
  subst h3 h4 h5
  refine ⟨⟨rfl, rfl, rfl, rfl, rfl⟩, ⟨rfl, rfl, rfl, rfl⟩, rfl, ⟨by simp [hA], ev, rfl, hev⟩, rfl, rfl,
    ?_, ?_⟩ <;> simp [SameBeyondBus, SameWorld, SameSample, SameScaled, SameBuffer]

/-- A legal command whose sequence runs to its end. -/
theorem runCommand_does {op : SeqOp} {code : BitVec 4} {a b : Word16} {body : Sequence Unit}
    {s : State} (hb : s.busy = false) (hr : s.resets = []) (hA : A ≠ [])
    (h : ∀ u, At s.cfg.toParams ⟨s.chip, s.tmp, s.feedSaved⟩ u → u.opa = a → u.opb = b →
      ∃ v, body u = .ok () v ∧ Ran u v A ∧
      At s.cfg.toParams ⟨rest, t', f'⟩ v) :
    ∃ t, runCommand op code true a b body s = .next t ∧ Ended s t .none ∧ Latched t code a b ∧
      t.chip = rest ∧ Sent s t A ∧ t.tmp = t' ∧ t.feedSaved = f' ∧ SameBeyondBus s t ∧
      SameBuffer s t := by
  obtain ⟨v, hv, hran, hat⟩ := h _ (at_accept hr op code a b) rfl rfl
  exact ⟨v.endWith .none, by rw [runCommand_legal _ _ _ _ _ hb, hv]; rfl,
    endWith_facts .none hA hran hat⟩

/-- A legal command whose sequence raises. -/
theorem runCommand_breaks {op : SeqOp} {code : BitVec 4} {a b : Word16} {body : Sequence Unit}
    {s : State} (hb : s.busy = false) (hr : s.resets = []) (hA : A ≠ [])
    (h : ∀ u, At s.cfg.toParams ⟨s.chip, s.tmp, s.feedSaved⟩ u → u.opa = a → u.opb = b →
      ∃ v, body u = .error (.raised e) v ∧ Ran u v A ∧
      At s.cfg.toParams ⟨rest, t', f'⟩ v) :
    ∃ t, runCommand op code true a b body s = .next t ∧ Ended s t e ∧ Latched t code a b ∧
      t.chip = rest ∧ Sent s t A ∧ t.tmp = t' ∧ t.feedSaved = f' ∧ SameBeyondBus s t ∧
      SameBuffer s t := by
  obtain ⟨v, hv, hran, hat⟩ := h _ (at_accept hr op code a b) rfl rfl
  exact ⟨v.endWith e, by rw [runCommand_legal _ _ _ _ _ hb, hv]; rfl, endWith_facts e hA hran hat⟩

/-- A stage run by itself that runs to its end (log 15). -/
theorem runStage_does {body : Sequence Unit} {s : State} (hb : s.busy = false)
    (hr : s.resets = []) (hA : A ≠ [])
    (h : Does s.cfg.toParams ⟨s.chip, s.tmp, s.feedSaved⟩ body () A ⟨rest, t', f'⟩) :
    ∃ t, runStage body s = .next t ∧ Sent s t A ∧ t = { s with
      seq := Sequencer.idle, tmp := t', feedSaved := f', chip := rest, trace := t.trace,
      sel := false } := by
  obtain ⟨v, hv, hran, -, -, h3, h4, h5⟩ := h s ⟨hr, rfl, rfl, rfl, rfl⟩
  obtain ⟨q, t, f, ev, c, rfl, hev⟩ := hran
  simp only at h3 h4 h5
  subst h3 h4 h5
  refine ⟨_, by rw [runStage_idle _ hb, hv], ⟨by simp [hA], ev, rfl, hev⟩, ?_⟩
  simp [hA]

/-- A stage run by itself that raises (log 15). -/
theorem runStage_breaks {body : Sequence Unit} {s : State} (hb : s.busy = false)
    (hr : s.resets = []) (hA : A ≠ [])
    (h : Breaks s.cfg.toParams ⟨s.chip, s.tmp, s.feedSaved⟩ body e A ⟨rest, t', f'⟩) :
    ∃ t, runStage body s = .next t ∧ Sent s t A ∧ t = { s with
      err := e, errlog := logError s.errlog e, busy := false, done := true,
      seq := Sequencer.idle, tmp := t', feedSaved := f', chip := rest, trace := t.trace,
      sel := false } := by
  obtain ⟨v, hv, hran, -, -, h3, h4, h5⟩ := h s ⟨hr, rfl, rfl, rfl, rfl⟩
  obtain ⟨q, t, f, ev, c, rfl, hev⟩ := hran
  simp only at h3 h4 h5
  subst h3 h4 h5
  refine ⟨_, by rw [runStage_idle _ hb, hv], ⟨by simp [State.endWith, hA], ev, rfl, hev⟩, ?_⟩
  simp [hA, State.endWith]

end Sys2Proof.Machine
end

