-- ==== Sys2Proof/Laws/Frame.lean ====
section
/-!
SUPPORT. What every procedure keeps, whatever the chip answers and whenever a reset strikes: the
registers it does not write, the shape of the trace, the number of frames, the kinds of error.
-/

namespace Sys2Proof.Machine

/-! ### Traces -/

/-- A piece of trace with whole brackets, only the two frames, and delays only after a flag clear. -/
def Tidy (p : Params) (ext : List BusEvent) : Prop :=
  bracketed ext = true ∧ FramesOnly p ext ∧ settlesFollowClear p (actsOf ext) = true

theorem bracketed_append {a b : List BusEvent} (ha : bracketed a = true) (hb : bracketed b = true) :
    bracketed (a ++ b) = true := by
  induction a using bracketed.induct with
  | case1 => exact hb
  | case2 t r ih => exact ih ha
  | case3 l r ih => exact ih ha
  | case4 o i r ih =>
    simp only [bracketed, Bool.and_eq_true, List.cons_append] at ha ⊢
    exact ⟨ha.1, ih ha.2⟩
  | case5 o r ih => exact ih ha
  | case6 r ih =>
    simp only [bracketed, List.cons_append] at ha ⊢
    exact ih ha
  | case7 t h1 h2 h3 h4 h5 h6 => simp [bracketed] at ha

theorem settlesFollowClear_append {p : Params} {a b : List Act}
    (ha : settlesFollowClear p a = true) (hb : settlesFollowClear p b = true) :
    settlesFollowClear p (a ++ b) = true := by
  induction a using settlesFollowClear.induct with
  | case1 => exact hb
  | case2 r => simp [settlesFollowClear] at ha
  | case3 o =>
    match b with
    | [] => rfl
    | .settle :: r => simp [settlesFollowClear] at hb
    | .frame o' :: r => simpa [settlesFollowClear] using hb
    | .failed o' :: r => simpa [settlesFollowClear] using hb
  | case4 o r ih =>
    simp only [settlesFollowClear, Bool.and_eq_true, List.cons_append] at ha ⊢
    exact ⟨ha.1, ih ha.2⟩
  | case5 o r h1 h2 ih =>
    match r with
    | [] => exact absurd rfl h1
    | .settle :: r => exact absurd rfl (h2 r)
    | .frame o' :: r => exact ih ha
    | .failed o' :: r => exact ih ha
  | case6 o r ih => exact ih ha

theorem Tidy.nil (p : Params) : Tidy p [] := ⟨rfl, by simp [FramesOnly], rfl⟩

theorem Tidy.append {p : Params} {a b : List BusEvent} (ha : Tidy p a) (hb : Tidy p b) :
    Tidy p (a ++ b) := by
  refine ⟨bracketed_append ha.1 hb.1, ?_, ?_⟩
  · intro out h
    rw [actsOf_append, List.mem_append, List.mem_append] at h
    obtain (h | h) | (h | h) := h
    · exact ha.2.1 out (Or.inl h)
    · exact hb.2.1 out (Or.inl h)
    · exact ha.2.1 out (Or.inr h)
    · exact hb.2.1 out (Or.inr h)
  · rw [actsOf_append]
    exact settlesFollowClear_append ha.2.2 hb.2.2

@[simp] theorem frameCount_append (a b : List BusEvent) :
    frameCount (a ++ b) = frameCount a + frameCount b := by
  simp [frameCount]

/-! ### States -/

/-- From `s` to `u` the trace grew by a piece with at most `n` frames, tidy if `SEL` was low, and it
is low again. -/
def Trail (n : Nat) (s u : State) : Prop :=
  ∃ ext, u.trace = s.trace ++ ext ∧ frameCount ext ≤ n ∧
    (s.sel = false → u.sel = false ∧ Tidy s.cfg.toParams ext)

/-- From `s` to `u` only what a bus procedure may change changed, and no reset struck. -/
def Moved (n : Nat) (s u : State) : Prop :=
  (∃ q t f tr c sl rs, u = { s with
    seq := q, tmp := t, feedSaved := f, trace := tr, chip := c, sel := sl, resets := rs }) ∧
  u.resets.length = s.resets.length ∧ Trail n s u

/-- From `s` a reset that was due struck, leaving `u` (R201). -/
def Wiped (n : Nat) (s u : State) : Prop :=
  (∃ tr c rs, u = { State.resetWith s.cfg with
    dr := s.dr, trace := tr, chip := c, resets := rs, moves := s.moves, stageWord := s.stageWord,
    tick := s.tick }) ∧
  u.resets.length < s.resets.length ∧ Trail n s u

/-- On the state `s`, `m` sends at most `n` frames, raises only errors of `E`, and changes only what a
bus procedure may. -/
def Within {α : Type} (n : Nat) (E : ErrKind → Prop) (m : Sequence α) (s : State) : Prop :=
  match m s with
  | .ok _ u => Moved n s u
  | .error (.raised e) u => E e ∧ Moved n s u
  | .error .reset u => Wiped n s u

variable {α β : Type} {n k : Nat} {s u v : State} {E E' : ErrKind → Prop}

theorem Trail.refl (s : State) : Trail 0 s s :=
  ⟨[], by simp, by simp [frameCount], fun h => ⟨h, Tidy.nil _⟩⟩

theorem Trail.trans (h1 : Trail n s u) (hc : u.cfg = s.cfg) (h2 : Trail k u v) :
    Trail (n + k) s v := by
  obtain ⟨e1, t1, c1, b1⟩ := h1
  obtain ⟨e2, t2, c2, b2⟩ := h2
  refine ⟨e1 ++ e2, by rw [t2, t1, List.append_assoc], by rw [frameCount_append]; omega, ?_⟩
  intro h
  obtain ⟨hu, y1⟩ := b1 h
  obtain ⟨hv, y2⟩ := b2 hu
  exact ⟨hv, y1.append (hc ▸ y2)⟩

theorem Trail.mono (h : Trail n s u) (hk : n ≤ k) : Trail k s u := by
  obtain ⟨e, t, c, b⟩ := h
  exact ⟨e, t, by omega, b⟩

theorem Moved.cfg (h : Moved n s u) : u.cfg = s.cfg := by
  obtain ⟨⟨q, t, f, tr, c, sl, rs, rfl⟩, -⟩ := h; rfl

theorem Moved.trans (h1 : Moved n s u) (h2 : Moved k u v) : Moved (n + k) s v := by
  refine ⟨?_, h2.2.1.trans h1.2.1, h1.2.2.trans h1.cfg h2.2.2⟩
  obtain ⟨⟨q, t, f, tr, c, sl, rs, rfl⟩, -⟩ := h1
  obtain ⟨⟨q', t', f', tr', c', sl', rs', rfl⟩, -⟩ := h2
  exact ⟨q', t', f', tr', c', sl', rs', rfl⟩

theorem Moved.wiped (h1 : Moved n s u) (h2 : Wiped k u v) : Wiped (n + k) s v := by
  refine ⟨?_, h1.2.1 ▸ h2.2.1, h1.2.2.trans h1.cfg h2.2.2⟩
  obtain ⟨⟨q, t, f, tr, c, sl, rs, rfl⟩, -⟩ := h1
  obtain ⟨⟨tr', c', rs', rfl⟩, -⟩ := h2
  exact ⟨tr', c', rs', rfl⟩

/-- Setting `SEQ`, `TMP`, `FEED_SAVED`. -/
theorem moved_set (q : Sequencer) (t : Byte) (f : Bool) :
    Moved 0 s { s with seq := q, tmp := t, feedSaved := f } :=
  ⟨⟨q, t, f, s.trace, s.chip, s.sel, s.resets, rfl⟩, rfl, Trail.refl s⟩

theorem Moved.mono (h : Moved n s u) (hk : n ≤ k) : Moved k s u := ⟨h.1, h.2.1, h.2.2.mono hk⟩

theorem Wiped.mono (h : Wiped n s u) (hk : n ≤ k) : Wiped k s u := ⟨h.1, h.2.1, h.2.2.mono hk⟩

namespace Within

theorem mono {m : Sequence α} (h : Within n E m s) (hk : n ≤ k) (hE : ∀ e, E e → E' e) :
    Within k E' m s := by
  unfold Within at *
  split <;> rename_i heq <;> simp only [heq] at h
  · exact h.mono hk
  · exact ⟨hE _ h.1, h.2.mono hk⟩
  · exact h.mono hk

theorem bind {m : Sequence α} {f : α → Sequence β} (h : Within n E m s)
    (hf : ∀ a u, Moved n s u → Within k E (f a) u) : Within (n + k) E (m >>= f) s := by
  unfold Within at *
  rw [bind_run]
  cases hm : m s with
  | ok a u =>
    simp only [hm] at h
    have h2 := hf a u h
    cases hfa : f a u with
    | ok b v => simp only [hfa] at h2 ⊢; exact h.trans h2
    | error e v =>
      cases e with
      | raised e => simp only [hfa] at h2 ⊢; exact ⟨h2.1, h.trans h2.2⟩
      | reset => simp only [hfa] at h2 ⊢; exact h.wiped h2
  | error e u =>
    cases e with
    | raised e => simp only [hm] at h ⊢; exact ⟨h.1, h.2.mono (by omega)⟩
    | reset => simp only [hm] at h ⊢; exact h.mono (by omega)

theorem ret (a : α) : Within 0 E (pure a) s := moved_set s.seq s.tmp s.feedSaved

theorem raise (e : ErrKind) (he : E e) : Within 0 E (Machine.raise e : Sequence α) s :=
  ⟨he, moved_set s.seq s.tmp s.feedSaved⟩

theorem read {f : State → Sequence β} (h : Within n E (f s) s) : Within n E (get >>= f) s := by
  unfold Within at *
  simpa using h

theorem seq (f : State → Sequencer) :
    Within 0 E (modify fun s => { s with seq := f s }) s := moved_set _ _ _

theorem tmp (t : Byte) : Within 0 E (setTmp t) s := moved_set _ _ _

theorem stage (i : Nat) {k : Nat} : Within 0 E (atStage i k) s := seq _

theorem idx (i : Nat) : Within 0 E (setIdx i) s := seq _

theorem polls (i : Nat) : Within 0 E (setPolls i) s := seq _

/-- `bind` after a step that sends nothing. -/
theorem quiet {m : Sequence α} {f : α → Sequence β} (h : Within 0 E m s)
    (hf : ∀ a u, Moved 0 s u → Within n E (f a) u) : Within n E (m >>= f) s :=
  (h.bind hf).mono (by omega) (fun _ h => h)

theorem inner {m : Sequence α} (h : ∀ u, u.cfg = s.cfg → Within n E m u) :
    Within n E (inner m) s := by
  unfold Machine.inner
  refine quiet (seq fun s => s.seq.push) fun _ u hu => ?_
  refine (h u hu.cfg).bind (k := 0) fun a v hv => ?_
  exact quiet (seq fun s => s.seq.pop) fun _ _ _ => ret a

end Within

/-! ### The procedures -/

/-- The only error of the transceiver (R175). -/
def OnlyBus (e : ErrKind) : Prop := e = .busFailure

/-- The errors of an ERA operation (R175). -/
def BusOrTimeout (e : ErrKind) : Prop := e = .busFailure ∨ e = .deviceTimeout

theorem within_transact {out : List Byte} (hout : IsFrame s.cfg.toParams out) :
    Within 1 OnlyBus (transact out) s := by
  have tidyBare : Tidy s.cfg.toParams [.sel true, .sel false] :=
    ⟨rfl, by simp [FramesOnly], rfl⟩
  have tidyOne : ∀ x : Option (List Byte), (∀ i, x = some i → i.length = out.length) →
      Tidy s.cfg.toParams [.sel true, exchangeEvent out x, .sel false] := by
    intro x hx
    refine ⟨?_, ?_, ?_⟩
    · cases x with
      | none => rfl
      | some i => simp [exchangeEvent, bracketed, hx i rfl]
    · intro o ho
      have : o = out := by cases x <;> simpa [exchangeAct] using ho
      exact this ▸ hout
    · cases x <;> simp [exchangeAct, settlesFollowClear]
  have count : ∀ x, frameCount [.sel true, exchangeEvent out x, .sel false] = 1 := by
    intro x; cases x <;> simp [frameCount, exchangeAct]
  have wiped : ∀ (sl : Bool) (x : List BusEvent) (c : List ChipReply) (rs : List Nat),
      (x = [] ∧ sl = s.sel ∨ x = [.sel true] ∧ sl = true ∨
        ∃ y, (∀ i, y = some i → i.length = out.length) ∧
          x = [.sel true, exchangeEvent out y] ∧ sl = true) → rs.length < s.resets.length →
      Wiped 1 s (State.resetEngine
        { s with sel := sl, trace := s.trace ++ x, chip := c, resets := rs }) := by
    intro sl x c rs hx hn
    refine ⟨⟨_, c, rs, rfl⟩, hn, ?_⟩
    obtain ⟨rfl, rfl⟩ | ⟨rfl, rfl⟩ | ⟨y, hy, rfl, rfl⟩ := hx
    · refine ⟨if s.sel then [.sel false] else [], by simp, ?_, ?_⟩
      · split <;> simp [frameCount]
      · intro h
        simpa [h] using Tidy.nil _
    · exact ⟨[.sel true, .sel false], by simp, by simp [frameCount], fun _ => ⟨rfl, tidyBare⟩⟩
    · exact ⟨[.sel true, exchangeEvent out y, .sel false], by simp, by rw [count],
        fun _ => ⟨rfl, tidyOne y hy⟩⟩
  have answer : ∀ (w : State) i, chipAnswer w out = some i → i.length = out.length :=
    fun w i h => chipAnswer_length h
  unfold Within
  match hr : s.resets with
  | [] =>
    rw [transact_run hr]
    have moved : Moved 1 s (transactState s out) := by
      refine ⟨⟨s.seq, s.tmp, s.feedSaved, _, _, _, s.resets, rfl⟩, rfl,
        ⟨[.sel true, exchangeEvent out (transactAnswer s out), .sel false], rfl, by rw [count],
          fun _ => ⟨rfl, tidyOne _ (answer _)⟩⟩⟩
    cases transactAnswer s out with
    | some i => exact moved
    | none => exact ⟨rfl, moved⟩
  | 0 :: later =>
    simp only [transact, driveSelect, emit, bind_run, hr]
    have h := wiped s.sel [] s.chip later (Or.inl ⟨rfl, rfl⟩) (by simp [hr])
    simpa using h
  | 1 :: later =>
    simp only [transact, driveSelect, exchange, emit, bind_run, get_run, modify_run, hr]
    exact wiped true [.sel true] s.chip later (Or.inr (Or.inl ⟨rfl, rfl⟩)) (by simp [hr])
  | 2 :: later =>
    simp only [transact, driveSelect, exchange, emit, bind_run, get_run, modify_run, pure_run, hr]
    have h := fun y hy => wiped true [.sel true, exchangeEvent out y] s.chip.tail later
      (Or.inr (Or.inr ⟨y, hy, rfl, rfl⟩)) (by simp [hr])
    simpa using h _ (answer _)
  | (m + 3) :: later =>
    simp only [transact, driveSelect, exchange, emit, bind_run, get_run, modify_run, pure_run, hr]
    have moved : ∀ y, (∀ i, y = some i → i.length = out.length) →
        Moved 1 s { s with
          sel := false
          trace := s.trace ++ [.sel true, exchangeEvent out y, .sel false]
          chip := s.chip.tail
          resets := m :: later } := by
      intro y hy
      exact ⟨⟨s.seq, s.tmp, s.feedSaved, _, _, _, _, rfl⟩, by simp [hr],
        ⟨_, rfl, by rw [count], fun _ => ⟨rfl, tidyOne y hy⟩⟩⟩
    generalize hy : chipAnswer _ out = y
    have hl := fun i (h : y = some i) => answer _ i (hy.trans h)
    cases y with
    | some i => simpa using moved _ hl
    | none => exact ⟨rfl, by simpa using moved _ hl⟩

theorem isFrame_read (p : Params) (a : RegAddr) (n : Nat) : IsFrame p (readFrame p a n) :=
  Or.inl ⟨a, n, rfl⟩

theorem isFrame_write (p : Params) (a : RegAddr) (v : Byte) : IsFrame p (writeFrame p a v) :=
  Or.inr ⟨a, v, rfl⟩

theorem within_rapRead (a : RegAddr) (c : Nat) : Within 1 OnlyBus (rapRead a c) s := by
  unfold rapRead
  exact Within.read ((within_transact (isFrame_read _ a c)).bind (k := 0) fun _ _ _ => Within.ret _)

theorem within_rapReadByte (a : RegAddr) : Within 1 OnlyBus (rapReadByte a) s := by
  unfold rapReadByte
  exact (within_rapRead a 1).bind (k := 0) fun _ _ _ => Within.ret _

theorem within_rapWrite (a : RegAddr) (v : Byte) : Within 1 OnlyBus (rapWrite a v) s := by
  unfold rapWrite
  exact Within.read ((within_transact (isFrame_write _ a v)).bind (k := 0) fun _ _ _ => Within.ret _)

/-- A transaction that returns: its three events, whatever resets are still to come. -/
theorem transact_ok {out i : List Byte} (h : transact out s = .ok i u) :
    i.length = out.length ∧ ∃ c rs, rs.length = s.resets.length ∧ u = { s with
      sel := false, trace := s.trace ++ [.sel true, .xchg out i, .sel false], chip := c,
      resets := rs } := by
  match hr : s.resets with
  | [] =>
    rw [transact_run hr] at h
    cases ha : transactAnswer s out with
    | none => simp [ha] at h
    | some j =>
      simp only [ha] at h
      cases h
      exact ⟨chipAnswer_length ha, s.chip.tail, [], by simp, by simp [transactState, ha, exchangeEvent, hr]⟩
  | 0 :: later => simp [transact, driveSelect, emit, hr] at h
  | 1 :: later => simp [transact, driveSelect, exchange, emit, hr] at h
  | 2 :: later => simp [transact, driveSelect, exchange, emit, hr] at h
  | (m + 3) :: later =>
    simp only [transact, driveSelect, exchange, emit, bind_run, get_run, modify_run, pure_run, hr]
      at h
    generalize hy : chipAnswer _ out = y at h
    cases y with
    | none => cases h
    | some j =>
      cases h
      exact ⟨chipAnswer_length hy, s.chip.tail, m :: later, by simp, by simp [exchangeEvent]⟩

theorem within_clearFlags : Within 1 OnlyBus clearFlags s := by
  have hw := within_rapWrite (s := s) regStatus 0x00
  unfold Within at hw ⊢
  simp only [clearFlags, bind_run]
  cases hm : rapWrite regStatus 0x00 s with
  | error e v => cases e <;> simpa only [hm] using hw
  | ok a v =>
    simp only [hm] at hw
    have ht : ∃ i, transact (writeFrame s.cfg.toParams regStatus 0x00) s = .ok i v := by
      simp only [rapWrite, bind_run, get_run] at hm
      cases h : transact (writeFrame s.cfg.toParams regStatus 0x00) s with
      | error e w => simp only [h] at hm; cases hm
      | ok i w => simp only [h] at hm; cases hm; exact ⟨i, rfl⟩
    obtain ⟨i, hi⟩ := ht
    obtain ⟨hl, c, rs, hrs, hv⟩ := transact_ok hi
    have hv' : v.resets = rs := by rw [hv]
    have tidy : ∀ tail : List BusEvent, (tail = [] ∨ ∃ t, tail = [.delay t]) →
        Tidy s.cfg.toParams
          ([.sel true, .xchg (writeFrame s.cfg.toParams regStatus 0x00) i, .sel false] ++ tail) := by
      intro tail ht
      refine ⟨?_, ?_, ?_⟩
      · obtain rfl | ⟨t, rfl⟩ := ht <;> simp [bracketed, hl]
      · intro o ho
        obtain rfl | ⟨t, rfl⟩ := ht <;>
          · simp [actOf] at ho
            exact ho ▸ isFrame_write _ _ _
      · obtain rfl | ⟨t, rfl⟩ := ht <;> simp [settlesFollowClear, actOf]
    have trail : ∀ (w : State) (tail : List BusEvent), (tail = [] ∨ ∃ t, tail = [.delay t]) →
        w.trace = v.trace ++ tail → w.sel = false → Trail 1 s w := by
      intro w tail ht hwt hws
      refine ⟨_, by rw [hwt, hv, List.append_assoc], ?_, fun _ => ⟨hws, tidy tail ht⟩⟩
      obtain rfl | ⟨t, rfl⟩ := ht <;> simp [frameCount, actOf]
    simp only [settle, bind_run, get_run, atStage_run, emit]
    match hr : v.resets with
    | [] =>
      refine ⟨?_, by rw [← hrs, ← hv']; simp [hr], trail _ [.delay v.cfg.settleTime] (Or.inr ⟨_, rfl⟩) rfl (by rw [hv])⟩
      rw [hv]
      exact ⟨_, _, _, _, _, _, _, rfl⟩
    | 0 :: later =>
      have hn : later.length < s.resets.length := by rw [← hrs, ← hv', hr]; simp
      refine ⟨⟨v.trace, c, later, ?_⟩, hn, trail _ [] (Or.inl rfl) ?_ rfl⟩
      · rw [hv]; simp [State.resetEngine]
      · rw [hv]; simp
    | (m + 1) :: later =>
      refine ⟨?_, by rw [← hrs, ← hv', hr]; simp, trail _ [.delay v.cfg.settleTime] (Or.inr ⟨_, rfl⟩) rfl (by rw [hv])⟩
      rw [hv]
      exact ⟨_, _, _, _, _, _, _, rfl⟩

theorem within_setFeed (e : Bool) : Within 2 OnlyBus (setFeed e) s := by
  unfold setFeed
  refine Within.read ((within_rapReadByte _).bind (k := 1) fun t _ _ => ?_)
  exact Within.quiet (Within.tmp t) fun _ _ _ => Within.quiet (Within.stage 2) fun _ _ _ =>
    Within.quiet (Within.stage 3) fun _ _ _ => within_rapWrite _ _

theorem within_eraCapture : Within 1 OnlyBus eraCapture s := by
  unfold eraCapture
  refine Within.read ((within_rapReadByte _).bind (k := 0) fun t _ _ => ?_)
  refine Within.quiet (Within.tmp t) fun _ _ _ => Within.quiet (Within.stage 2) fun _ _ _ =>
    Within.quiet ?_ fun _ _ _ => Within.quiet (Within.stage 3) fun _ _ _ => Within.ret _
  exact moved_set _ _ _

theorem within_eraDisableFeed (t : Byte) : Within 1 OnlyBus (eraDisableFeed t) s := by
  unfold eraDisableFeed
  exact Within.read (within_rapWrite _ _)

theorem within_eraLoadAddr (a : Word16) : Within 2 OnlyBus (eraLoadAddr a) s := by
  unfold eraLoadAddr
  exact (within_rapWrite _ _).bind (k := 1) fun _ _ _ => Within.quiet (Within.stage 2)
    fun _ _ _ => within_rapWrite _ _

theorem within_pollLoop : ∀ (m : Nat) (s : State), Within m BusOrTimeout (pollLoop m) s
  | 0, _ => Within.quiet (Within.stage 2) fun _ _ _ => Within.raise _ (Or.inr rfl)
  | m + 1, s => by
    unfold pollLoop
    rw [Nat.add_comm]
    refine Within.quiet (Within.stage 2) fun _ _ _ => Within.quiet (Within.stage 2) fun _ _ _ =>
      ((within_rapReadByte regEraCtl).mono (Nat.le_refl 1) fun e h => Or.inl h).bind
        fun c _ _ => Within.quiet (Within.tmp c) fun _ _ _ => Within.read
          (Within.quiet (Within.polls _) fun _ _ _ => Within.quiet (Within.stage 2) fun _ u _ => ?_)
    split
    · exact (Within.ret ()).mono (Nat.zero_le _) fun _ h => h
    · exact within_pollLoop m u

theorem within_poll : Within s.cfg.pollBound BusOrTimeout poll s := by
  unfold poll
  refine Within.quiet (Within.polls 0) fun _ u hu => Within.read ?_
  rw [hu.cfg]
  exact within_pollLoop _ u

theorem within_eraRestore :
    Within (if s.cfg.eraRestoreFeed then 2 else 0) OnlyBus eraRestore s := by
  unfold eraRestore
  refine Within.read ?_
  cases h : s.cfg.eraRestoreFeed with
  | false => simpa using Within.ret ()
  | true =>
    cases h2 : s.feedSaved with
    | false => exact (Within.ret ()).mono (by simp) fun _ h => h
    | true => exact (Within.inner fun u _ => within_setFeed true).mono (by simp) fun _ h => h

/-- Unwinding `SEQ` after a step that sends nothing more. -/
theorem Moved.unwindTo (h : Moved n s u) (line : Nat) (ret : List Stage) :
    Moved n s (u.unwindTo line ret) := by
  obtain ⟨⟨q, t, f, tr, c, sl, rs, rfl⟩, hl, ht⟩ := h
  exact ⟨⟨q.unwindTo line ret, t, f, tr, c, sl, rs, rfl⟩, hl, ht⟩

theorem within_eraExit {line : Nat} {ret : List Stage} {body : Sequence α}
    (h : Within n BusOrTimeout body s) :
    Within (n + if s.cfg.eraRestoreFeed then 2 else 0) BusOrTimeout (eraExit line ret body) s := by
  unfold Within at h ⊢
  unfold eraExit
  cases hb : body s with
  | ok a t =>
    simp only [hb] at h
    have hm := h.unwindTo line ret
    have hr := within_eraRestore (s := t.unwindTo line ret)
    unfold Within at hr
    rw [hm.cfg] at hr
    cases he : eraRestore (t.unwindTo line ret) with
    | ok b u => simp only [he] at hr ⊢; exact hm.trans hr
    | error e u =>
      cases e with
      | raised e => simp only [he] at hr ⊢; exact ⟨Or.inl hr.1, hm.trans hr.2⟩
      | reset => simp only [he] at hr ⊢; exact hm.wiped hr
  | error e t =>
    cases e with
    | reset => simp only [hb] at h ⊢; exact h.mono (by omega)
    | raised e =>
      simp only [hb] at h
      have hm := h.2.unwindTo line ret
      have hr := within_eraRestore (s := t.unwindTo line ret)
      unfold Within at hr
      rw [hm.cfg] at hr
      cases he : eraRestore (t.unwindTo line ret) with
      | ok b u => simp only [he] at hr ⊢; exact ⟨h.1, hm.trans hr⟩
      | error e' u =>
        cases e' with
        | raised e' => simp only [he] at hr ⊢; exact ⟨h.1, hm.trans hr.2⟩
        | reset => simp only [he] at hr ⊢; exact hm.wiped hr

theorem within_eraOperation {line : Nat} {body : Sequence α}
    (h : ∀ u, u.cfg = s.cfg → Within n BusOrTimeout body u) :
    Within (2 + n + if s.cfg.eraRestoreFeed then 2 else 0) BusOrTimeout (eraOperation line body) s := by
  unfold eraOperation
  refine Within.read (Within.quiet (Within.seq fun s => s.seq.push) fun _ r hr =>
    ((within_eraCapture.mono (Nat.le_refl 1) (fun e h => Or.inl h)).bind
      (k := 1 + n + if s.cfg.eraRestoreFeed then 2 else 0) (fun t u hu => ?_)).mono (by omega)
      (fun _ h => h))
  have hc : u.cfg = s.cfg := hu.cfg.trans hr.cfg
  rw [← hc]
  refine within_eraExit (((within_eraDisableFeed t).mono (Nat.le_refl 1) (fun e h => Or.inl h)).bind
    fun _ w hw => Within.quiet (Within.seq fun s => s.seq.pop) fun _ x hx => h x ?_)
  exact hx.cfg.trans (hw.cfg.trans hc)

/-- An ERA write: at most `6 + POLL_BOUND + 1` frames, and 2 more for a restore (R214). -/
theorem within_eraWrite (a : Word16) (v : Byte) :
    Within (6 + s.cfg.pollBound + 1 + if s.cfg.eraRestoreFeed then 2 else 0) BusOrTimeout
      (eraWrite a v) s := by
  unfold eraWrite
  refine (within_eraOperation (n := 1 + (2 + (1 + (s.cfg.pollBound + 1)))) fun u hu => ?_).mono
    (by omega) fun _ h => h
  have bus : ∀ e, OnlyBus e → BusOrTimeout e := fun e h => Or.inl h
  refine Within.quiet (Within.stage 2) fun _ w hw => ?_
  refine ((within_rapWrite _ _).mono (Nat.le_refl 1) bus).bind fun _ x hx => ?_
  refine Within.quiet (Within.stage 3) fun _ _ h3 => ?_
  refine ((Within.inner fun _ _ => within_eraLoadAddr a).mono (Nat.le_refl 2) bus).bind
    fun _ _ h4 => ?_
  refine Within.quiet (Within.stage 4) fun _ _ h5 => ?_
  refine ((within_rapWrite _ _).mono (Nat.le_refl 1) bus).bind fun _ _ h6 => ?_
  refine Within.quiet (Within.stage 5) fun _ y h7 => ?_
  have hc : y.cfg = s.cfg := by
    rw [h7.cfg, h6.cfg, h5.cfg, h4.cfg, h3.cfg, hx.cfg, hw.cfg, hu]
  rw [← hc]
  refine (Within.inner fun z hz => hz ▸ within_poll).bind fun _ _ _ => ?_
  refine Within.quiet (Within.stage 6) fun _ _ _ => ?_
  exact (Within.inner fun _ _ => within_clearFlags).mono (Nat.le_refl 1) bus

theorem within_eraCycles (m : Nat) : ∀ (i : Nat) (s : State),
    Within (m * (s.cfg.pollBound + 3)) BusOrTimeout (eraCycles m i) s := by
  have bus : ∀ e, OnlyBus e → BusOrTimeout e := fun e h => Or.inl h
  induction m with
  | zero => intro i s; simpa [eraCycles] using Within.ret ([] : List Byte)
  | succ m ih =>
    intro i s
    unfold eraCycles
    refine Within.mono (n := 1 + (s.cfg.pollBound + (1 + (1 + (m * (s.cfg.pollBound + 3) + 0)))))
      ?_ (by ring_nf; omega) fun _ h => h
    refine Within.quiet (Within.idx i) fun _ w hw => Within.quiet (Within.stage 3) fun _ w' hw' => ?_
    refine ((within_rapWrite _ _).mono (Nat.le_refl 1) bus).bind fun _ x' hx' => ?_
    refine Within.quiet (Within.stage 3) fun _ x hx => ?_
    have hc : x.cfg = s.cfg := by rw [hx.cfg, hx'.cfg, hw'.cfg, hw.cfg]
    rw [← hc]
    refine (Within.inner fun z hz => hz ▸ within_poll).bind fun _ y' hy' => ?_
    refine Within.quiet (Within.stage 3) fun _ y hy => ?_
    refine ((within_rapReadByte _).mono (Nat.le_refl 1) bus).bind fun b z' hz' => ?_
    refine Within.quiet (Within.stage 3) fun _ z hz => ?_
    refine ((Within.inner fun _ _ => within_clearFlags).mono (Nat.le_refl 1) bus).bind
      fun _ a ha => ?_
    have hc2 : a.cfg = x.cfg := by rw [ha.cfg, hz.cfg, hz'.cfg, hy.cfg, hy'.cfg]
    rw [← hc2]
    exact (ih (i + 1) a).bind fun _ _ _ => Within.ret _

/-- An ERA read: at most `4 + count * (POLL_BOUND + 3)` frames, and 2 more for a restore (R214). -/
theorem within_eraRead (a : Word16) (m : Nat) :
    Within (4 + m * (s.cfg.pollBound + 3) + if s.cfg.eraRestoreFeed then 2 else 0) BusOrTimeout
      (eraRead a m) s := by
  unfold eraRead
  refine (within_eraOperation (n := 2 + m * (s.cfg.pollBound + 3)) fun u hu => ?_).mono
    (by omega) fun _ h => h
  have bus : ∀ e, OnlyBus e → BusOrTimeout e := fun e h => Or.inl h
  refine Within.quiet (Within.stage 2) fun _ w hw => ?_
  refine ((Within.inner fun _ _ => within_eraLoadAddr a).mono (Nat.le_refl 2) bus).bind
    fun _ x hx => ?_
  refine Within.quiet (Within.stage 3) fun _ y hy => ?_
  have hc : y.cfg = s.cfg := by rw [hy.cfg, hx.cfg, hw.cfg, hu]
  rw [← hc]
  exact within_eraCycles m 0 y

end Sys2Proof.Machine
end

