-- ==== Sys2Proof/Tests/Slice0.lean ====
section
/-!
SUPPORT. The author's own tests: well-formedness, words written out from the spec's encodings, one
step per instruction with expected values from `95_test_vectors.md` (V and P numbers below), and a
witness for the hypotheses of every obligation that has any.
-/

namespace Sys2Proof.Tests

-- One theorem after the other: each `decide +kernel` waits for the kernel, in a thread of its own.
set_option Elab.async false

open Sys2Proof.Machine

/-! ### Helpers -/

/-- The chip's answer to a write frame (the reference responder's). -/
def ack : ChipReply := .answer [0x00, 0x00]

/-- The chip's answer to a read frame that carries `d`. -/
def data (d : List Byte) : ChipReply := .answer ([0x00, 0x00, 0x00] ++ d)

/-- The machine after reset with a scripted chip. -/
def start (chip : List ChipReply) : State := { State.reset with chip := chip }

/-- A test of the next state an outcome answers. -/
def after (o : Outcome) (f : State → Bool) : Bool :=
  match o with
  | .next t => f t
  | .fault _ => false
  | .refused _ => false

/-- The acts of the trace, and the error kind. -/
def sees (A : List Act) (e : ErrKind) (t : State) : Bool :=
  decide (actsOf t.trace = A) && decide (t.err = e) && !t.busy && !t.sel

/-- `R(a, n)` under P0. -/
abbrev rd (a : RegAddr) (n : Nat) : Act := Act.R Params.p0 a n

/-- `W(a, v)` under P0. -/
abbrev wr (a : RegAddr) (v : Byte) : Act := Act.W Params.p0 a v

/-- A machine with a sample in `X`, `Y`, `Z`. -/
def sampled (x y : Coord) (z : Field6) : State :=
  { State.reset with x := x, y := y, z := z, sampleHeld := true }

/-- P0 with `ERA_RESTORE_FEED`. -/
def restoring : Config := { Params.p0 with eraRestoreFeed := true, wf := by decide }

/-- P0 with a small read buffer. -/
def small : Config := { Params.p0 with maxCount := 6, wf := by decide }

/-! ### Well-formedness -/

theorem test_wf_readFrame_above_max :
    (Instr.frameRapRead 0x04 256).wellFormed Params.p0 = false := by decide

theorem test_wf_readFrame_above_small_max :
    (Instr.frameRapRead 0x04 7).wellFormed small.toParams = false := by decide

theorem test_wf_readFrame_at_max :
    (Instr.frameRapRead 0x04 255).wellFormed Params.p0 = true := by decide

/-! ### Decoding: words written out from the spec -/

/-- P1: op 0x4, a = 0x0187, b = 0x00AB. -/
theorem test_decode_eraWr :
    decode Params.p0 (.command 0x4018700AB) = .ok (.eraWr 0x0187 0x00AB) := by decide

/-- V49. -/
theorem test_decode_rapRd :
    decode Params.p0 (.command 0x1FF840001) = .ok (.rapRd 0xFF84 0x0001) := by decide

/-- R70, op 0x2: `RAP_WR 0x1F, 0xFF`. -/
theorem test_decode_rapWr :
    decode Params.p0 (.command 0x2001F00FF) = .ok (.rapWr 0x001F 0x00FF) := by decide

/-- P3. -/
theorem test_decode_eraRd :
    decode Params.p0 (.command 0x301490002) = .ok (.eraRd 0x0149 0x0002) := by decide

/-- R70, ops without operands or with one bit: 0x0, 0x5, 0x6, 0x7, 0x8. -/
theorem test_decode_ops_low :
    decode Params.p0 (.command 0x000000000) = .ok (.nop 0 0) ∧
    decode Params.p0 (.command 0x500000000) = .ok (.clrFlags 0 0) ∧
    decode Params.p0 (.command 0x600000001) = .ok (.setFeed 0 1) ∧
    decode Params.p0 (.command 0x700000000) = .ok (.getAbs 0 0) ∧
    decode Params.p0 (.command 0x800000000) = .ok (.clip 0 0) := by decide

/-- R70, ops 0x9 (P2), 0xA, 0xB (P5), 0xC, 0xD, 0xE, 0xF (V47). -/
theorem test_decode_ops_high :
    decode Params.p0 (.command 0x904000300) = .ok (.scale 0x0400 0x0300) ∧
    decode Params.p0 (.command 0xA00000000) = .ok (.chkHover 0 0) ∧
    decode Params.p0 (.command 0xB00000040) = .ok (.setAtten 0 0x0040) ∧
    decode Params.p0 (.command 0xC00000000) = .ok (.tuneEdge 0 0) ∧
    decode Params.p0 (.command 0xD00000000) = .ok (.init 0 0) ∧
    decode Params.p0 (.command 0xE00000001) = .ok (.setInd 0 1) ∧
    decode Params.p0 (.command 0xF00000000) = .ok (.reservedF 0 0) := by decide

/-- V5, V7, V1, V2. -/
theorem test_decode_frames :
    decode Params.p0 (.frame [0xA4, 0xFC, 0xFC, 0xFC]) = .ok (.frameRapRead 0x04 1) ∧
    decode Params.p0 (.frame [0xBE, 0xFC, 0xFC]) = .ok (.frameRapRead 0x1E 0) ∧
    decode Params.p0 (.frame [0x82, 0x00]) = .ok (.frameRapWrite 0x02 0x00) ∧
    decode Params.p0 (.frame [0x9E, 0x05]) = .ok (.frameRapWrite 0x1E 0x05) := by decide

/-- R68, R61, R62: what is no frame is rejected by name. -/
theorem test_decode_frames_rejected :
    decode Params.p0 (.frame []) = .error .emptyFrame ∧
    decode Params.p0 (.frame [0xC4, 0x00]) = .error .unknownMask ∧
    decode Params.p0 (.frame [0xA4, 0xFC]) = .error .wrongLength ∧
    decode Params.p0 (.frame [0x82]) = .error .wrongLength ∧
    decode Params.p0 (.frame [0x82, 0x00, 0x00]) = .error .wrongLength := by decide

/-- R61: ten bytes are a read of seven, more than a buffer of six takes. -/
theorem test_decode_frame_above_max :
    decode small.toParams (.frame [0xA4, 0, 0, 0, 0, 0, 0, 0, 0, 0]) = .error .countAboveMax := by
  decide

/-- R65. -/
theorem test_decode_codes :
    decode Params.p0 (.eraCode 0x02) = .ok .eraCodeWrite ∧
    decode Params.p0 (.eraCode 0x05) = .ok .eraCodeRead ∧
    decode Params.p0 (.eraCode 0x00) = .ok .eraCodeDone ∧
    decode Params.p0 (.eraCode 0x01) = .error .unknownEraCode := by decide

/-- The numbering of the opcode table: a command word, the two frames, a code (log 17). -/
theorem test_decodeTableWord :
    decodeTableWord 40 0x4018700AB = some (.eraWr 0x0187 0x00AB) ∧
    decodeTableWord 8 0xA4 = some (.frameRapRead 0x04 0) ∧
    decodeTableWord 16 0x0082 = some (.frameRapWrite 0x02 0x00) ∧
    decodeTableWord 8 0x05 = some .eraCodeRead := by decide

/-- V6: the encoder writes the frame of `RAP_RD 0x12, 6`. -/
theorem test_encode_readFrame :
    encode Params.p0 (.frameRapRead 0x12 6) =
      .frame [0xB2, 0xFC, 0xFC, 0xFC, 0xFC, 0xFC, 0xFC, 0xFC, 0xFC] := by decide

/-! ### RAP -/

/-- V3. -/
theorem test_rapWr_highest_index :
    after (exec (.rapWr 0x1F 0xFF) (start [ack]))
      (sees [.frame [0x9F, 0xFF]] .none) = true := by decide +kernel

/-- V4. -/
theorem test_rapWr_illegal :
    after (exec (.rapWr 0x20 0x00) (start [ack])) (sees [] .illegalCommand) = true := by
  decide +kernel

/-- V5, V49: the whole event list, and the buffer. -/
theorem test_rapRd_one :
    after (exec (.rapRd 0xFF84 1) (start [data [0x03]])) (fun t =>
      decide (t.trace = [.sel true, .xchg [0xA4, 0xFC, 0xFC, 0xFC] [0, 0, 0, 3], .sel false]) &&
        decide (t.rb.head? = some 0x03) && decide (t.rlen = 1)) = true := by decide +kernel

/-- V10. -/
theorem test_rapRd_fails :
    after (exec (.rapRd 0x04 1) { start [.fail] with rlen := 2 }) (fun t =>
      decide (t.trace = [.sel true, .xchgFailed [0xA4, 0xFC, 0xFC, 0xFC], .sel false]) &&
        decide (t.err = .busFailure) && decide (t.rlen = 2)) = true := by decide +kernel

/-- R61, V8: the read frame by itself. -/
theorem test_frameRapRead :
    after (exec (.frameRapRead 0x03 3) (start [data [1, 2, 3]]))
      (sees [.frame [0xA3, 0xFC, 0xFC, 0xFC, 0xFC, 0xFC]] .none) = true := by decide +kernel

/-- R62, V1: the write frame by itself. -/
theorem test_frameRapWrite :
    after (exec (.frameRapWrite 0x02 0x00) (start [ack]))
      (sees [.frame [0x82, 0x00]] .none) = true := by decide +kernel

/-! ### Feed and flags -/

/-- V11. -/
theorem test_clrFlags :
    after (exec (.clrFlags 0 0) (start [ack])) (sees [wr 0x02 0x00, .settle] .none) = true := by
  decide +kernel

/-- V12. -/
theorem test_clrFlags_fails :
    after (exec (.clrFlags 0 0) (start [.fail])) (sees [.failed [0x82, 0x00]] .busFailure) = true := by
  decide +kernel

/-- V13. -/
theorem test_setFeed_on :
    after (exec (.setFeed 0 1) (start [data [0x02], ack]))
      (sees [rd 0x04 1, wr 0x04 0x03] .none) = true := by decide +kernel

/-- V15. -/
theorem test_setFeed_off_already :
    after (exec (.setFeed 0 0) (start [data [0xFE], ack]))
      (sees [rd 0x04 1, wr 0x04 0xFE] .none) = true := by decide +kernel

/-! ### ERA -/

/-- P1. -/
theorem test_eraWr_trace :
    after (exec (.eraWr 0x0187 0xAB)
        (start [data [0x03], ack, ack, ack, ack, ack, data [0x02], data [0x00], ack]))
      (sees [rd 0x04 1, wr 0x04 0x02, wr 0x1B 0xAB, wr 0x1C 0x01, wr 0x1D 0x87, wr 0x1E 0x02,
        rd 0x1E 1, rd 0x1E 1, wr 0x02 0x00, .settle] .none) = true := by decide +kernel

/-- V20: `POLL_BOUND` = 4 busy reads. -/
theorem test_eraWr_times_out :
    after (exec (.eraWr 0x0149 0x04) (start [data [0x00], ack, ack, ack, ack, ack,
        data [0x02], data [0x02], data [0x02], data [0x02]]))
      (fun t => sees [rd 0x04 1, wr 0x04 0x00, wr 0x1B 0x04, wr 0x1C 0x01, wr 0x1D 0x49,
        wr 0x1E 0x02, rd 0x1E 1, rd 0x1E 1, rd 0x1E 1, rd 0x1E 1] .deviceTimeout t &&
        decide (t.errlog = 0b00100) && decide (t.tmp = 0x02)) = true := by decide +kernel

/-- P3: two cycles, the address loaded once. -/
theorem test_eraRd_two :
    after (exec (.eraRd 0x0149 2) (start [data [0x02], ack, ack, ack,
        ack, data [0x05], data [0x00], data [0x11], ack,
        ack, data [0x05], data [0x00], data [0x22], ack]))
      (fun t => sees [rd 0x04 1, wr 0x04 0x02, wr 0x1C 0x01, wr 0x1D 0x49,
        wr 0x1E 0x05, rd 0x1E 1, rd 0x1E 1, rd 0x1B 1, wr 0x02 0x00, .settle,
        wr 0x1E 0x05, rd 0x1E 1, rd 0x1E 1, rd 0x1B 1, wr 0x02 0x00, .settle] .none t &&
        decide (t.rb.take 2 = [0x11, 0x22]) && decide (t.rlen = 2)) = true := by decide +kernel

/-- V22: count 0. -/
theorem test_eraRd_none :
    after (exec (.eraRd 0x1234 0) (start [data [0x01], ack, ack, ack]))
      (fun t => sees [rd 0x04 1, wr 0x04 0x00, wr 0x1C 0x12, wr 0x1D 0x34] .none t &&
        t.feedSaved && decide (t.rlen = 0)) = true := by decide +kernel

/-- R65, R102 line 4. -/
theorem test_eraCodeWrite :
    after (exec .eraCodeWrite (start [ack])) (sees [.frame [0x9E, 0x02]] .none) = true := by
  decide +kernel

/-- R65, V2. -/
theorem test_eraCodeRead :
    after (exec .eraCodeRead (start [ack])) (sees [.frame [0x9E, 0x05]] .none) = true := by
  decide +kernel

/-- R65, R104: completion at the second read. -/
theorem test_eraCodeDone :
    after (exec .eraCodeDone (start [data [0x05], data [0x00]]))
      (sees [rd 0x1E 1, rd 0x1E 1] .none) = true := by decide +kernel

/-! ### The sample pipeline -/

/-- V33: every byte different. -/
theorem test_decodeBlock_distinct :
    decodeBlock [0x2A, 0x55, 0xAB, 0xCD, 0xEF, 0x7F] =
      { btn := 0x2A, x := 0xFAB, y := 0xECD, z := 0x3F } := by decide

/-- V31, V32: the nibbles of byte 4. -/
theorem test_decodeBlock_nibbles :
    (decodeBlock [0, 0, 0, 0, 0x10, 0]).y = 0x100 ∧ (decodeBlock [0, 0, 0, 0, 0x10, 0]).x = 0 ∧
    (decodeBlock [0, 0, 0, 0, 0x01, 0]).x = 0x100 := by decide

/-- P2. -/
theorem test_getAbs :
    after (exec (.getAbs 0 0) (start [data [0x01, 0x00, 0xFF, 0xFF, 0x23, 0x0C], ack]))
      (fun t => sees [rd 0x12 6, wr 0x02 0x00, .settle] .none t &&
        decide (t.x = 0x3FF ∧ t.y = 0x2FF ∧ t.z = 0x0C ∧ t.btn = 0x01 ∧ t.rlen = 6) &&
        t.td && !t.idle && !t.hov) = true := by decide +kernel

/-- P7, line 2: the flag clear fails, the sample is dropped. -/
theorem test_getAbs_clear_fails :
    after (exec (.getAbs 0 0) (start [data [0x01, 0x00, 0x10, 0x20, 0x00, 0x05], .fail]))
      (fun t => sees [rd 0x12 6, .failed [0x82, 0x00]] .busFailure t &&
        decide (t.rlen = 0) && !t.sampleHeld) = true := by decide +kernel

/-- R133: `(0, 4095)` becomes `(127, 1471)`. -/
theorem test_clip :
    after (exec (.clip 0 0) (sampled 0 4095 0))
      (fun t => decide (t.x = 127 ∧ t.y = 1471)) = true := by decide +kernel

/-- Section 3.6: X 1023 at 65535 gives 32767, Y 64 at 65535 gives 46. -/
theorem test_scale_wide :
    after (exec (.scale 65535 65535) (sampled 1023 64 0))
      (fun t => decide (t.ox = 32767 ∧ t.oy = 46)) = true := by decide +kernel

/-- P2a: clipped up from 52; 669 and 0, which the host then reads. -/
theorem test_scale_clips :
    after (exec (.scale 1024 768) (sampled 1298 52 0))
      (fun t => decide (t.y = 63 ∧ t.ox = 669 ∧ t.oy = 0 ∧
        (hostRead t .ox).toOption = some 669 ∧ (hostRead t .oy).toOption = some 0)) = true := by
  decide +kernel

/-- V39, V40, V41: zone (2,3), and the step at a multiple of 256. -/
theorem test_chkHover :
    after (exec (.chkHover 0 0) (sampled 1023 767 12)) (·.hov) = true ∧
    after (exec (.chkHover 0 0) (sampled 1023 767 16)) (fun t => !t.hov) = true ∧
    after (exec (.chkHover 0 0) (sampled 1024 768 15)) (·.hov) = true := by decide +kernel

/-- V44: column 8. -/
theorem test_chkHover_outside :
    after (exec (.chkHover 0 0) { sampled 2048 100 1 with hov := true })
      (fun t => decide (t.err = .outOfRange) && t.hov) = true := by decide +kernel

/-! ### Tuning and initialisation -/

/-- The answers to an ERA read of `v` at 0x0187 under P5, the feed register reading `f`. -/
def readAnswers (f v : Byte) : List ChipReply :=
  [data [f], ack, ack, ack, ack, data [0x00], data [v], ack]

/-- The answers to an ERA write, the feed register reading `f`. -/
def writeAnswers (f : Byte) : List ChipReply :=
  [data [f], ack, ack, ack, ack, ack, data [0x00], ack]

/-- P5: the byte written back, and the confirmation. -/
theorem test_setAtten :
    after (exec (.setAtten 0 0x40)
        (start (readAnswers 0x03 0x2A ++ writeAnswers 0x02 ++ readAnswers 0x02 0x6A)))
      (fun t => decide (wr 0x1B 0x6A ∈ actsOf t.trace) && decide (frameCount t.trace = 24) &&
        decide (t.rb.head? = some 0x6A) && decide (t.rlen = 1) && !t.feedSaved) = true := by
  decide +kernel

/-- P6, edge tuning. -/
theorem test_tuneEdge :
    after (exec (.tuneEdge 0 0) (start (writeAnswers 0x02 ++ writeAnswers 0x02)))
      (sees [rd 0x04 1, wr 0x04 0x02, wr 0x1B 0x04, wr 0x1C 0x01, wr 0x1D 0x49, wr 0x1E 0x02,
        rd 0x1E 1, wr 0x02 0x00, .settle,
        rd 0x04 1, wr 0x04 0x02, wr 0x1B 0x03, wr 0x1C 0x01, wr 0x1D 0x68, wr 0x1E 0x02,
        rd 0x1E 1, wr 0x02 0x00, .settle] .none) = true := by decide +kernel

/-- P6: 45 transactions, the first six. -/
theorem test_init :
    after (exec (.init 0 0)
        (start ([ack, ack, ack, ack, ack] ++ readAnswers 0x03 0x2A ++ writeAnswers 0x02 ++
          readAnswers 0x02 0x6A ++ writeAnswers 0x02 ++ writeAnswers 0x02)))
      (fun t => decide (frameCount t.trace = 45) && decide (t.err = .none) &&
        decide ((actsOf t.trace).take 7 = [wr 0x02 0x00, .settle, wr 0x03 0x00, wr 0x05 0x1F,
          wr 0x04 0x03, wr 0x0A 0x05, rd 0x04 1])) = true := by decide +kernel

/-! ### Host pins, status and reset -/

/-- V48: `NOP` leaves `ERRLOG`. -/
theorem test_nop :
    after (exec (.nop 0 0) { start [] with err := .illegalCommand, errlog := 0b10000 })
      (fun t => decide (t.err = .none) && decide (t.errlog = 0b10000)) = true := by decide +kernel

/-- V51. -/
theorem test_setInd :
    after (exec (.setInd 0 1) (start []))
      (fun t => t.ind && decide (t.trace = [.ind true])) = true := by decide +kernel

/-- V47. -/
theorem test_reservedF :
    after (exec (.reservedF 0 0) (start []))
      (fun t => decide (t.errlog = 0b10000) && decide (t.trace = [])) = true := by decide +kernel

/-- V52, R201: a reset after `SEL(1)`; select falls at once, no error is recorded. -/
theorem test_reset_inside :
    after (exec (.clrFlags 0 0) { start [ack] with resets := [1], errlog := 0b00010 })
      (fun t => decide (t.trace = [.sel true, .sel false]) && decide (t.errlog = 0) &&
        decide (t.err = .none) && !t.done) = true := by decide +kernel

/-- Log 14, log 15: the word placed runs as the first instruction after reset, a command and a frame. -/
theorem test_withFetchWord :
    after (step (State.reset.withFetchWord 40 0xE00000001)) (·.ind) = true ∧
    after (step ((start [ack]).withFetchWord 16 0x0082))
      (fun t => sees [.frame [0x82, 0x00]] .none t && t.moves.isEmpty) = true := by decide +kernel

/-- Where a sequence stood when it raised an error. -/
def standsAt {α : Type} (r : EStateM.Result Abort State α) (stage : Stage) : Bool :=
  match r with
  | .ok _ _ => false
  | .error _ t => decide (t.seq.stage = stage)

/-- R11, R101, R103, R104: the line of the sequence that a failing transaction belongs to. -/
theorem test_stage_of_failure :
    standsAt (eraLoadAddr 0x0149 (start [ack, .fail])) ⟨2, 0⟩ = true ∧
    standsAt (poll (start [data [0x02], .fail])) ⟨2, 2⟩ = true ∧
    standsAt (eraCycles 1 0 (start [ack, data [0x00], .fail])) ⟨3, 3⟩ = true := by decide +kernel

/-! ### Witnesses: the hypotheses of the obligations can be met -/

/-- What `after` tests holds of a next state. -/
theorem runs {i : Instr} {s : State} {f : State → Bool} (h : after (exec i s) f = true) :
    ∃ t, exec i s = .next t ∧ f t = true := by
  cases hx : exec i s <;> simp_all [after]

theorem data_answers (d : List Byte) : AnswersData d (data d) := ⟨[0, 0, 0], [], rfl, by simp [data]⟩

theorem ack_answers : Answers ack := ⟨_, rfl⟩

theorem acks_answer (n : Nat) : ∀ r ∈ List.replicate n ack, Answers r := by
  intro r h
  rw [List.eq_of_mem_replicate h]
  exact ack_answers

theorem poll_once : PollReplies 1 [data [0x00]] := ⟨[], _, rfl, rfl, data_answers _, by simp⟩

theorem poll_twice : PollReplies 2 [data [0x02], data [0x00]] :=
  ⟨[data [0x02]], _, rfl, rfl, data_answers _, by
    intro r h
    rw [List.mem_singleton.1 h]
    exact ⟨0x02, by decide, data_answers _⟩⟩

/-- Four busy reads, the bound of the model's P0. -/
theorem poll_busy : BusyReplies 4 0x02 [data [0x02], data [0x02], data [0x02], data [0x02]] :=
  ⟨[data [0x02], data [0x02], data [0x02]], _, rfl, rfl, by decide, data_answers _, by
    intro r h
    simp only [List.mem_cons, List.not_mem_nil, or_false, or_self] at h
    exact ⟨0x02, by decide, h ▸ data_answers _⟩⟩

/-- The talk of an ERA write whose poll ends at its second read. -/
def writeTalk : EraTalk := { feed := 0x03, polls := [2], data := [], after := 0x02 }

/-- The talk of an ERA read of one byte. -/
def readTalk : EraTalk := { feed := 0x03, polls := [1], data := [0x2A], after := 0x02 }

/-- The talk of an ERA read of no byte. -/
def emptyTalk : EraTalk := { feed := 0x03, polls := [], data := [], after := 0x02 }

theorem no_restore (c : EraTalk) : RestoreReplies State.reset.cfg.toParams c [] := by
  have h : c.restores State.reset.cfg.toParams = false := rfl
  simp [RestoreReplies, h]

theorem bound_writeTalk : writeTalk.InBound State.reset.cfg.toParams := by
  intro k hk
  rw [List.mem_singleton.1 hk]
  decide

theorem bound_readTalk : readTalk.InBound State.reset.cfg.toParams := by
  intro k hk
  rw [List.mem_singleton.1 hk]
  decide

/-- The answers of an ERA write with `writeTalk`. -/
def writeScript : List ChipReply :=
  data [0x03] :: List.replicate 5 ack ++ [data [0x02], data [0x00]] ++ ack :: []

theorem write_replies : EraWriteReplies State.reset.cfg.toParams writeTalk writeScript :=
  ⟨2, data [0x03], List.replicate 5 ack, [data [0x02], data [0x00]], ack, [], rfl, rfl,
    data_answers _, rfl, acks_answer 5, poll_twice, ack_answers, no_restore _⟩

/-- The answers of an ERA read with `readTalk`. -/
def readScript : List ChipReply :=
  data [0x03] :: List.replicate 3 ack ++ (ack :: [data [0x00]] ++ data [0x2A] :: ack :: []) ++ []

theorem read_replies : EraReadReplies State.reset.cfg.toParams readTalk readScript :=
  ⟨data [0x03], List.replicate 3 ack, ack :: [data [0x00]] ++ data [0x2A] :: ack :: [], [], rfl,
    data_answers _, rfl, acks_answer 3,
    ⟨ack, [data [0x00]], data [0x2A], ack, [], rfl, ack_answers, poll_once, data_answers _,
      ack_answers, rfl⟩, no_restore _⟩

theorem empty_replies :
    EraReadReplies State.reset.cfg.toParams emptyTalk (data [0x03] :: List.replicate 3 ack) :=
  ⟨data [0x03], List.replicate 3 ack, [], [], rfl, data_answers _, rfl, acks_answer 3, rfl,
    no_restore _⟩

theorem atten_replies : AttenReplies State.reset.cfg.toParams readTalk writeTalk readTalk
    (readScript ++ writeScript ++ readScript) :=
  ⟨readScript, writeScript, readScript, rfl, rfl, rfl, read_replies, write_replies, read_replies⟩

theorem edge_replies : EdgeReplies State.reset.cfg.toParams writeTalk writeTalk
    (writeScript ++ writeScript) :=
  ⟨writeScript, writeScript, rfl, write_replies, write_replies⟩

theorem trigger_replies : TriggerReplies 0x03 (data [0x03] :: List.replicate 5 ack) :=
  ⟨data [0x03], List.replicate 5 ack, rfl, data_answers _, rfl, acks_answer 5⟩

/-- A machine without a scripted chip, with a sample, that ended a command with an error. -/
def worn : State := { sampled 1298 52 12 with err := .busFailure, errlog := 0b00010 }

theorem meets_DecodeEncodeAgree :
    (Instr.frameRapRead 0x1F 255).wellFormed Config.p0.toParams = true ∧
      (Instr.frameRapRead 0x00 6).wellFormed small.toParams = true ∧
      (Instr.scale 0xFFFF 0xFFFF).wellFormed Config.p0.toParams = true := by decide

theorem meets_FramesDecodeExactly :
    decode Config.p0.toParams (.frame [0xA4, 0xFC, 0xFC]) = .ok (.frameRapRead 0x04 0) ∧
      decode Config.p0.toParams (.frame [0x9F, 0xFF]) = .ok (.frameRapWrite 0x1F 0xFF) := by decide

theorem meets_CommandByteIsMaskThenAddress :
    ∃ mask, mask = Config.p0.readMask ∨ mask = Config.p0.writeMask := ⟨_, Or.inl rfl⟩

theorem meets_StepRunsTheDecodedInstruction :
    (∃ (s : State) (cw : CommandWord) (rest : List Move) (i : Instr), s.stageWord = none ∧
      s.moves = .command cw :: rest ∧ decode s.cfg.toParams (.command cw) = .ok i) ∧
    (∃ (s : State) (w : WireWord) (i : Instr), s.stageWord = some w ∧
      decode s.cfg.toParams w.encoded = .ok i) ∧
    (∃ (s : State) (w : WireWord) (e : DecodeError), s.stageWord = some w ∧
      decode s.cfg.toParams w.encoded = .error e) :=
  ⟨⟨{ worn with moves := [.command 0xE00000001] }, _, [], .setInd 0 1, rfl, rfl, by decide⟩,
    ⟨{ worn with stageWord := some (.eraCode 0x05) }, _, .eraCodeRead, rfl, by decide⟩,
    ⟨{ worn with stageWord := some (.frame [0xC4, 0x00]) }, _, .unknownMask, rfl, by decide⟩⟩

/-- A command word, and a wire frame. -/
theorem meets_FetchWordRunsNext :
    (∃ (s : State) (i : Instr) (t : State), s.cfg.toParams = Params.p0 ∧
      decodeTableWord 40 0x800000000 = some i ∧ exec i { s with stageWord := none } = .next t) ∧
    (∃ (s : State) (i : Instr) (t : State), s.cfg.toParams = Params.p0 ∧
      decodeTableWord 16 0x0082 = some i ∧ exec i { s with stageWord := none } = .next t) := by
  obtain ⟨t, h, -⟩ := runs (i := .clip 0 0) (s := { worn with stageWord := none })
    (f := fun _ => true) (by decide +kernel)
  obtain ⟨u, k, -⟩ := runs (i := .frameRapWrite 0x02 0x00)
    (s := { start [ack] with stageWord := none }) (f := fun _ => true) (by decide +kernel)
  exact ⟨⟨worn, .clip 0 0, t, rfl, by decide, h⟩, ⟨start [ack], _, u, rfl, by decide, k⟩⟩

/-- No move, a wait, and a move that is no command. -/
theorem meets_StepWithoutCommandOnlySamplesDr :
    worn.stageWord = none ∧ worn.moves = [] ∧ { worn with moves := [.wait] }.moves = .wait :: [] ∧
    (∀ cw rest, { worn with moves := [.reset] }.moves ≠ .command cw :: rest) ∧
    ∃ t, step { worn with moves := [.reset] } = .next t :=
  ⟨rfl, rfl, rfl, by simp, _, rfl⟩

theorem meets_ResetMoveGivesResetState :
    { worn with moves := [.reset], sel := true }.stageWord = none ∧
      { worn with moves := [.reset], sel := true }.moves = .reset :: [] := ⟨rfl, rfl⟩

theorem meets_ResetInsideACommandAbandonsIt :
    ∃ (i : Instr) (s t : State), exec i s = .next t ∧ t.resets.length < s.resets.length := by
  obtain ⟨t, h, h2⟩ := runs (i := .clrFlags 0 0) (s := { start [ack] with resets := [1] })
    (f := fun t => decide (t.resets.length < 1)) (by decide +kernel)
  exact ⟨_, _, t, h, of_decide_eq_true h2⟩

theorem meets_ResetCutsAWriteCommandAtEachEvent :
    ∃ (a : Word16) (s : State) (bs : List Byte) (rest : List ChipReply),
      s.busy = false ∧ s.sel = false ∧ s.chip = .answer bs :: rest ∧ 2 ≤ bs.length ∧
      a.toNat % 128 ≤ 0x1F ∧
      { s with resets := [0] }.resets = 0 :: [] ∧ { s with resets := [1] }.resets = 1 :: [] ∧
      { s with resets := [2] }.resets = 2 :: [] ∧ { s with resets := [3] }.resets = (0 + 3) :: [] :=
  ⟨0x1F, start [ack], [0, 0], [], rfl, rfl, rfl, by decide, by decide, rfl, rfl, rfl, rfl⟩

/-- Both sides of `RLEN`, each value of the held flags, and a register only an idle port shows. -/
theorem meets_HostReadsFollowTheRules :
    { worn with rlen := 2 }.busy = false ∧ 1 < { worn with rlen := 2 }.rlen ∧
      { worn with rlen := 2 }.rlen ≤ 2 ∧
      { worn with opsLoaded := true }.opsLoaded = true ∧ State.reset.opsLoaded = false ∧
      worn.sampleHeld = true ∧ State.reset.sampleHeld = false ∧
      { worn with scaledHeld := true }.scaledHeld = true ∧ State.reset.scaledHeld = false ∧
      { worn with busy := true }.busy = true ∧
      HostReg.rb 0 ∉ [HostReg.busy, .done, .dr, .tmp, .seq] := by decide

theorem meets_HostReadMoveChangesNothing :
    worn.stageWord = none ∧ { worn with moves := [.readReg .x] }.moves = .readReg .x :: [] ∧
      hostRead { worn with moves := [.readReg .x] } .x = .ok 1298 ∧
      { worn with moves := [.readReg .ox] }.moves = .readReg .ox :: [] ∧
      hostRead { worn with moves := [.readReg .ox] } .ox = .error (.noValue .ox) :=
  ⟨rfl, rfl, rfl, rfl, rfl⟩

theorem meets_BusyPortTakesNoCommand : { worn with busy := true }.busy = true := rfl

theorem meets_EveryCommandEnds :
    isHostCommand (.getAbs 0 0) = true ∧ worn.busy = false ∧ worn.resets = [] := by decide

/-- A host command, and a wire frame. -/
theorem meets_ErrorKindsByCommand :
    (∃ (i : Instr) (s t : State), s.resets = [] ∧ exec i s = .next t ∧ isHostCommand i = true) ∧
    (∃ (i : Instr) (s t : State), s.resets = [] ∧ exec i s = .next t ∧ isHostCommand i = false) := by
  obtain ⟨t, h, -⟩ := runs (i := .clrFlags 0 0) (s := start [.fail]) (f := fun _ => true)
    (by decide +kernel)
  obtain ⟨u, k, -⟩ := runs (i := .eraCodeRead) (s := start [.fail]) (f := fun _ => true)
    (by decide +kernel)
  exact ⟨⟨_, _, t, rfl, h, rfl⟩, ⟨_, _, u, rfl, k, rfl⟩⟩

/-- A bit that stays, and a bit newly set. -/
theorem meets_ErrlogIsSticky :
    ∃ (i : Instr) (s t : State), s.resets = [] ∧ exec i s = .next t ∧
      s.errlog.getLsbD 1 = true ∧ s.errlog.getLsbD 3 = false ∧ t.errlog.getLsbD 3 = true := by
  obtain ⟨t, h, h2⟩ := runs (i := .chkHover 0 0)
    (s := { sampled 4095 4095 1 with errlog := 0b00010 }) (f := fun t => t.errlog.getLsbD 3)
    (by decide +kernel)
  exact ⟨_, _, t, rfl, h, by decide, by decide, h2⟩

theorem meets_busFree :
    worn.busy = false ∧ worn.resets = [] := ⟨rfl, rfl⟩

/-- One above the highest index, and one above a buffer of six. -/
theorem meets_IllegalOperandsAreRefused :
    worn.busy = false ∧ 0x1F < (0x0020 : Word16).toNat % 128 ∧
      { worn with cfg := small }.busy = false ∧
      { worn with cfg := small }.cfg.maxCount < (0x0007 : Word16).toNat % 256 := by decide

/-- The last zone of the map, and one past it on each axis. -/
theorem meets_ChkHoverCompletes :
    (sampled 2047 1535 0).busy = false ∧
      (2047 : Coord).toNat / State.reset.cfg.zoneScale < State.reset.cfg.mapCols ∧
      (1535 : Coord).toNat / State.reset.cfg.zoneScale < State.reset.cfg.mapRows ∧
      State.reset.cfg.zhMap[(1535 : Coord).toNat / State.reset.cfg.zoneScale]? =
        some [0, 0, 0, 0, 0, 0, 0, 0] ∧
      ([0, 0, 0, 0, 0, 0, 0, 0] : List Nat)[(2047 : Coord).toNat / State.reset.cfg.zoneScale]? =
        some 0 ∧
      State.reset.cfg.mapCols ≤ (2048 : Coord).toNat / State.reset.cfg.zoneScale ∧
      State.reset.cfg.mapRows ≤ (1536 : Coord).toNat / State.reset.cfg.zoneScale := by decide

theorem meets_HoverAfterClipIsInRange :
    ∃ (s t : State), s.busy = false ∧
      (exec (.clip 0 0) s = .next t ∨ exec (.scale 0 0) s = .next t) := by
  obtain ⟨t, h, -⟩ := runs (i := .clip 0 0) (s := sampled 4095 4095 1) (f := fun _ => true)
    (by decide +kernel)
  exact ⟨_, t, rfl, Or.inl h⟩

theorem meets_DecodeUnpacksTheBlock :
    (0xC1 : Byte) &&& 0x3F = 0x01 &&& 0x3F ∧ (0x40 : Byte) &&& 0x3F = 0x80 &&& 0x3F := by decide

/-- Idle, and the margin between the two predicates. -/
theorem meets_PresencePredicatesDiffer :
    isIdle 0 0 0 = true ∧ touchDown 0 = false ∧ isIdle 0 1 0 = false := by decide

/-- Below, at and above both bounds. -/
theorem meets_ClampStaysInTheWindow :
    (127 : Coord).toNat ≤ (1919 : Coord).toNat ∧ (126 : Coord).toNat < (127 : Coord).toNat ∧
      (1919 : Coord).toNat < (1920 : Coord).toNat ∧ (127 : Coord).toNat ≤ (127 : Coord).toNat := by
  decide

theorem meets_ScalerIsExactAndBounded :
    (127 : Coord).toNat < (1919 : Coord).toNat ∧ (127 : Coord).toNat ≤ (127 : Coord).toNat ∧
      (127 : Coord).toNat ≤ (1919 : Coord).toNat ∧ (1919 : Coord).toNat ≤ (1919 : Coord).toNat := by
  decide

theorem meets_RapRdCompletes :
    ∃ (a b : Word16) (s : State) (d : List Byte) (r : ChipReply) (rest : List ChipReply),
      s.busy = false ∧ s.resets = [] ∧ a.toNat % 128 ≤ 0x1F ∧ b.toNat % 256 ≤ s.cfg.maxCount ∧
      s.chip = r :: rest ∧ d.length = b.toNat % 256 ∧ AnswersData d r :=
  ⟨0xFF9F, 0xFF02, start [data [1, 2], ack], [1, 2], data [1, 2], [ack], rfl, rfl, by decide,
    by decide, rfl, by decide, data_answers _⟩

theorem meets_RapWrCompletes :
    ∃ (a : Word16) (s : State) (r : ChipReply) (rest : List ChipReply),
      s.busy = false ∧ s.resets = [] ∧ a.toNat % 128 ≤ 0x1F ∧ s.chip = r :: rest ∧ Answers r :=
  ⟨0x1F, start [ack], ack, [], rfl, rfl, by decide, rfl, ack_answers⟩

/-- The largest count, and a data byte above the count a buffer of six takes. -/
theorem meets_RapFailureEndsTheCommand :
    (∃ (a b : Word16) (s : State) (rest : List ChipReply),
      s.busy = false ∧ s.resets = [] ∧ a.toNat % 128 ≤ 0x1F ∧ s.chip = .fail :: rest ∧
      b.toNat % 256 ≤ s.cfg.maxCount) ∧
    (∃ (a b : Word16) (s : State) (rest : List ChipReply),
      s.busy = false ∧ s.resets = [] ∧ a.toNat % 128 ≤ 0x1F ∧ s.chip = .fail :: rest ∧
      s.cfg.maxCount < b.toNat % 256) :=
  ⟨⟨0x1F, 0xFF, start [.fail], [], rfl, rfl, by decide, rfl, by decide⟩,
    ⟨0x1F, 0xFF, { start [.fail] with cfg := small }, [], rfl, rfl, by decide, rfl, by decide⟩⟩

/-- For WireFramesComplete, ClrFlagsCompletes and EraTriggerCodesComplete. -/
theorem meets_oneAnswer :
    ∃ (s : State) (r : ChipReply) (rest : List ChipReply),
      s.busy = false ∧ s.resets = [] ∧ s.chip = r :: rest ∧ Answers r :=
  ⟨start [ack], ack, [], rfl, rfl, rfl, ack_answers⟩

/-- For ClrFlagsFailureHasNoSettle. -/
theorem meets_oneFailure :
    ∃ (s : State) (rest : List ChipReply),
      s.busy = false ∧ s.resets = [] ∧ s.chip = .fail :: rest :=
  ⟨start [.fail], [], rfl, rfl, rfl⟩

theorem meets_SetFeedCompletes :
    ∃ (s : State) (old : Byte) (r w : ChipReply) (rest : List ChipReply),
      s.busy = false ∧ s.resets = [] ∧ s.chip = r :: w :: rest ∧ AnswersData [old] r ∧ Answers w :=
  ⟨start [data [0xFE], ack], 0xFE, _, _, [], rfl, rfl, rfl, data_answers _, ack_answers⟩

theorem meets_SetFeedFailures :
    (∃ (s : State) (rest : List ChipReply),
      s.busy = false ∧ s.resets = [] ∧ s.chip = .fail :: rest) ∧
    (∃ (s : State) (old : Byte) (r : ChipReply) (rest : List ChipReply),
      s.busy = false ∧ s.resets = [] ∧ s.chip = r :: .fail :: rest ∧ AnswersData [old] r) :=
  ⟨⟨start [.fail], [], rfl, rfl, rfl⟩,
    ⟨start [data [0x03], .fail], 0x03, _, [], rfl, rfl, rfl, data_answers _⟩⟩

theorem meets_GetAbsCompletes :
    ∃ (s : State) (d : List Byte) (r w : ChipReply) (rest : List ChipReply),
      s.busy = false ∧ s.resets = [] ∧ s.chip = r :: w :: rest ∧ d.length = 6 ∧
      AnswersData d r ∧ Answers w :=
  ⟨start [data [1, 0, 0xFF, 0xFF, 0x23, 0x0C], ack], [1, 0, 0xFF, 0xFF, 0x23, 0x0C], _, _, [],
    rfl, rfl, rfl, rfl, data_answers _, ack_answers⟩

theorem meets_GetAbsFailuresKeepTheSample :
    (∃ (s : State) (rest : List ChipReply),
      s.busy = false ∧ s.resets = [] ∧ s.chip = .fail :: rest) ∧
    (∃ (s : State) (r : ChipReply) (rest : List ChipReply),
      s.busy = false ∧ s.resets = [] ∧ s.chip = r :: .fail :: rest ∧ Answers r) :=
  ⟨⟨start [.fail], [], rfl, rfl, rfl⟩, ⟨start [ack, .fail], ack, [], rfl, rfl, rfl, ack_answers⟩⟩

theorem meets_EraWrCompletes :
    ∃ (s : State) (c : EraTalk) (rs rest : List ChipReply),
      s.busy = false ∧ s.resets = [] ∧ s.chip = rs ++ rest ∧ EraWriteReplies s.cfg.toParams c rs ∧
      c.InBound s.cfg.toParams :=
  ⟨start (writeScript ++ []), writeTalk, writeScript, [], rfl, rfl, rfl, write_replies,
    bound_writeTalk⟩

/-- Count 1, and count 0. -/
theorem meets_EraRdCompletes :
    (∃ (b : Word16) (s : State) (c : EraTalk) (rs rest : List ChipReply),
      s.busy = false ∧ s.resets = [] ∧ b.toNat % 256 ≤ s.cfg.maxCount ∧ s.chip = rs ++ rest ∧
      c.data.length = b.toNat % 256 ∧ EraReadReplies s.cfg.toParams c rs ∧
      c.InBound s.cfg.toParams ∧ b = 1) ∧
    (∃ (b : Word16) (s : State) (c : EraTalk) (rs rest : List ChipReply),
      s.busy = false ∧ s.resets = [] ∧ b.toNat % 256 ≤ s.cfg.maxCount ∧ s.chip = rs ++ rest ∧
      c.data.length = b.toNat % 256 ∧ EraReadReplies s.cfg.toParams c rs ∧
      c.InBound s.cfg.toParams ∧ b = 0) :=
  ⟨⟨1, start (readScript ++ []), readTalk, readScript, [], rfl, rfl, by decide, rfl, by decide,
      read_replies, bound_readTalk, rfl⟩,
    ⟨0, start ((data [0x03] :: List.replicate 3 ack) ++ []), emptyTalk, _, [], rfl, rfl, by decide,
      rfl, by decide, empty_replies, by simp [EraTalk.InBound, emptyTalk], rfl⟩⟩

/-- The restore of `writeTalk` and `readTalk`, where it is configured. -/
theorem restore_write : RestoreReplies restoring.toParams writeTalk [data [0x02], ack] := by
  have h : writeTalk.restores restoring.toParams = true := by decide
  rw [RestoreReplies, if_pos h]
  exact ⟨_, _, rfl, data_answers _, ack_answers⟩

theorem restore_read : RestoreReplies restoring.toParams readTalk [data [0x02], ack] := by
  have h : readTalk.restores restoring.toParams = true := by decide
  rw [RestoreReplies, if_pos h]
  exact ⟨_, _, rfl, data_answers _, ack_answers⟩

/-- Without the restore, and with it. -/
theorem meets_EraWrTimesOut :
    (∃ (s : State) (c : EraTalk) (last : Byte) (r1 r2 r3 rest : List ChipReply),
      s.busy = false ∧ s.resets = [] ∧ s.chip = r1 ++ r2 ++ r3 ++ rest ∧
      TriggerReplies c.feed r1 ∧ BusyReplies s.cfg.pollBound last r2 ∧
      RestoreReplies s.cfg.toParams c r3) ∧
    (∃ (s : State) (c : EraTalk) (last : Byte) (r1 r2 r3 rest : List ChipReply),
      s.busy = false ∧ s.resets = [] ∧ s.chip = r1 ++ r2 ++ r3 ++ rest ∧
      TriggerReplies c.feed r1 ∧ BusyReplies s.cfg.pollBound last r2 ∧
      RestoreReplies s.cfg.toParams c r3 ∧ c.restores s.cfg.toParams = true) :=
  ⟨⟨start ((data [0x03] :: List.replicate 5 ack) ++
        [data [0x02], data [0x02], data [0x02], data [0x02]] ++ [] ++ []),
      writeTalk, 0x02, _, _, [], [], rfl, rfl, rfl, trigger_replies, poll_busy, no_restore _⟩,
    ⟨{ start ((data [0x03] :: List.replicate 5 ack) ++
        [data [0x02], data [0x02], data [0x02], data [0x02]] ++ [data [0x02], ack] ++ []) with
        cfg := restoring },
      writeTalk, 0x02, _, _, [data [0x02], ack], [], rfl, rfl, rfl, trigger_replies, poll_busy,
      restore_write, by decide⟩⟩

theorem cycle_replies : CycleReplies readTalk.polls readTalk.data
    (ack :: [data [0x00]] ++ data [0x2A] :: ack :: []) :=
  ⟨ack, [data [0x00]], data [0x2A], ack, [], rfl, ack_answers, poll_once, data_answers _,
    ack_answers, rfl⟩

/-- Without the restore, and with it. -/
theorem meets_EraRdTimeoutDeliversNothing :
    (∃ (b : Word16) (s : State) (c : EraTalk) (last : Byte) (r0 w : ChipReply)
      (ws cs ps xs rest : List ChipReply),
      s.busy = false ∧ s.resets = [] ∧ b.toNat % 256 ≤ s.cfg.maxCount ∧
      c.data.length < b.toNat % 256 ∧ s.chip = r0 :: ws ++ cs ++ w :: ps ++ xs ++ rest ∧
      AnswersData [c.feed] r0 ∧ ws.length = 3 ∧ (∀ r ∈ ws, Answers r) ∧
      CycleReplies c.polls c.data cs ∧ c.InBound s.cfg.toParams ∧
      Answers w ∧ BusyReplies s.cfg.pollBound last ps ∧ RestoreReplies s.cfg.toParams c xs) ∧
    (∃ (b : Word16) (s : State) (c : EraTalk) (last : Byte) (r0 w : ChipReply)
      (ws cs ps xs rest : List ChipReply),
      s.busy = false ∧ s.resets = [] ∧ b.toNat % 256 ≤ s.cfg.maxCount ∧
      c.data.length < b.toNat % 256 ∧ s.chip = r0 :: ws ++ cs ++ w :: ps ++ xs ++ rest ∧
      AnswersData [c.feed] r0 ∧ ws.length = 3 ∧ (∀ r ∈ ws, Answers r) ∧
      CycleReplies c.polls c.data cs ∧ c.InBound s.cfg.toParams ∧
      Answers w ∧ BusyReplies s.cfg.pollBound last ps ∧ RestoreReplies s.cfg.toParams c xs ∧
      c.restores s.cfg.toParams = true) :=
  ⟨⟨2, start (data [0x03] :: List.replicate 3 ack ++
        (ack :: [data [0x00]] ++ data [0x2A] :: ack :: []) ++
        ack :: [data [0x02], data [0x02], data [0x02], data [0x02]] ++ [] ++ []),
      readTalk, 0x02, _, _, List.replicate 3 ack, _, _, [], [], rfl, rfl, by decide, by decide, rfl,
      data_answers _, rfl, acks_answer 3, cycle_replies, bound_readTalk, ack_answers, poll_busy,
      no_restore _⟩,
    ⟨2, { start (data [0x03] :: List.replicate 3 ack ++
        (ack :: [data [0x00]] ++ data [0x2A] :: ack :: []) ++
        ack :: [data [0x02], data [0x02], data [0x02], data [0x02]] ++ [data [0x02], ack] ++ []) with
        cfg := restoring },
      readTalk, 0x02, _, _, List.replicate 3 ack, _, _, [data [0x02], ack], [], rfl, rfl, by decide,
      by decide, rfl, data_answers _, rfl, acks_answer 3, cycle_replies, bound_readTalk, ack_answers,
      poll_busy, restore_read, by decide⟩⟩

theorem one_busy : ∀ x ∈ [data [0x02]], ∃ v : Byte, v ≠ 0 ∧ AnswersData [v] x := by
  intro x h
  rw [List.mem_singleton.1 h]
  exact ⟨0x02, by decide, data_answers _⟩

/-- Without the restore, and with it. -/
theorem meets_PollBusFailureWins :
    (∃ (s : State) (c : EraTalk) (r1 r2 r3 rest : List ChipReply),
      s.busy = false ∧ s.resets = [] ∧ s.chip = r1 ++ r2 ++ .fail :: r3 ++ rest ∧
      TriggerReplies c.feed r1 ∧ r2.length < s.cfg.pollBound ∧
      (∀ x ∈ r2, ∃ v : Byte, v ≠ 0 ∧ AnswersData [v] x) ∧ RestoreReplies s.cfg.toParams c r3) ∧
    (∃ (s : State) (c : EraTalk) (r1 r2 r3 rest : List ChipReply),
      s.busy = false ∧ s.resets = [] ∧ s.chip = r1 ++ r2 ++ .fail :: r3 ++ rest ∧
      TriggerReplies c.feed r1 ∧ r2.length < s.cfg.pollBound ∧
      (∀ x ∈ r2, ∃ v : Byte, v ≠ 0 ∧ AnswersData [v] x) ∧ RestoreReplies s.cfg.toParams c r3 ∧
      c.restores s.cfg.toParams = true) :=
  ⟨⟨start ((data [0x03] :: List.replicate 5 ack) ++ [data [0x02]] ++ .fail :: [] ++ []), writeTalk,
      _, [data [0x02]], [], [], rfl, rfl, rfl, trigger_replies, by decide, one_busy, no_restore _⟩,
    ⟨{ start ((data [0x03] :: List.replicate 5 ack) ++ [data [0x02]] ++
        .fail :: [data [0x02], ack] ++ []) with cfg := restoring }, writeTalk,
      _, [data [0x02]], [data [0x02], ack], [], rfl, rfl, rfl, trigger_replies, by decide, one_busy,
      restore_write, by decide⟩⟩

/-- A restore whose read fails, and one whose write does. -/
theorem restore_fails :
    (∃ X, RestoreFails restoring.toParams [.fail] X) ∧
      ∃ X, RestoreFails restoring.toParams [data [0x02], .fail] X :=
  ⟨⟨_, Or.inl ⟨rfl, rfl⟩⟩, _, Or.inr ⟨0x02, _, rfl, data_answers _, rfl⟩⟩

/-- The operation without an error with a failing read, the one that timed out with a failing write, and
the one whose poll failed with a failing read. -/
theorem meets_RestoreFailureNeverHidesAnError :
    (∃ (s : State) (feed : Byte) (r1 xs rest : List ChipReply) (X : List Act) (k : Nat)
      (r2 : List ChipReply) (w : ChipReply), s.busy = false ∧ s.resets = [] ∧
      s.cfg.eraRestoreFeed = true ∧ feedBit s.cfg.toParams feed = true ∧ TriggerReplies feed r1 ∧
      RestoreFails s.cfg.toParams xs X ∧ s.chip = r1 ++ r2 ++ w :: xs ++ rest ∧
      PollReplies k r2 ∧ k ≤ s.cfg.pollBound ∧ Answers w) ∧
    (∃ (s : State) (feed : Byte) (r1 xs rest : List ChipReply) (X : List Act) (last : Byte)
      (r2 : List ChipReply), s.busy = false ∧ s.resets = [] ∧ s.cfg.eraRestoreFeed = true ∧
      feedBit s.cfg.toParams feed = true ∧ TriggerReplies feed r1 ∧
      RestoreFails s.cfg.toParams xs X ∧ s.chip = r1 ++ r2 ++ xs ++ rest ∧
      BusyReplies s.cfg.pollBound last r2) ∧
    (∃ (s : State) (feed : Byte) (r1 xs rest : List ChipReply) (X : List Act)
      (r2 : List ChipReply), s.busy = false ∧ s.resets = [] ∧ s.cfg.eraRestoreFeed = true ∧
      feedBit s.cfg.toParams feed = true ∧ TriggerReplies feed r1 ∧
      RestoreFails s.cfg.toParams xs X ∧ s.chip = r1 ++ r2 ++ .fail :: xs ++ rest ∧
      r2.length < s.cfg.pollBound ∧ ∀ x ∈ r2, ∃ v : Byte, v ≠ 0 ∧ AnswersData [v] x) := by
  obtain ⟨⟨X, hr⟩, Y, hw⟩ := restore_fails
  exact ⟨⟨{ start ((data [0x03] :: List.replicate 5 ack) ++ [data [0x02], data [0x00]] ++
        ack :: [.fail] ++ []) with cfg := restoring },
      0x03, _, [.fail], [], X, 2, _, _, rfl, rfl, rfl, by decide, trigger_replies, hr, rfl,
      poll_twice, by decide, ack_answers⟩,
    ⟨{ start ((data [0x03] :: List.replicate 5 ack) ++
        [data [0x02], data [0x02], data [0x02], data [0x02]] ++ [data [0x02], .fail] ++ []) with
        cfg := restoring },
      0x03, _, [data [0x02], .fail], [], Y, 0x02, _, rfl, rfl, rfl, by decide, trigger_replies, hw,
      rfl, poll_busy⟩,
    ⟨{ start ((data [0x03] :: List.replicate 5 ack) ++ [data [0x02]] ++ .fail :: [.fail] ++ []) with
        cfg := restoring },
      0x03, _, [.fail], [], X, [data [0x02]], rfl, rfl, rfl, by decide, trigger_replies, hr, rfl,
      by decide, one_busy⟩⟩

theorem meets_EraDoneCodePolls :
    (∃ (s : State) (rs rest : List ChipReply) (k : Nat), s.busy = false ∧ s.resets = [] ∧
      s.chip = rs ++ rest ∧ PollReplies k rs ∧ k ≤ s.cfg.pollBound) ∧
    (∃ (s : State) (rs rest : List ChipReply) (last : Byte), s.busy = false ∧ s.resets = [] ∧
      s.chip = rs ++ rest ∧ BusyReplies s.cfg.pollBound last rs) :=
  ⟨⟨start ([data [0x02], data [0x00]] ++ []), _, [], 2, rfl, rfl, rfl, poll_twice, by decide⟩,
    ⟨start ([data [0x02], data [0x02], data [0x02], data [0x02]] ++ []), _, [], 0x02, rfl, rfl, rfl,
      poll_busy⟩⟩

theorem meets_SetAttenCompletes :
    ∃ (s : State) (c1 c2 c3 : EraTalk) (rs rest : List ChipReply),
      s.busy = false ∧ s.resets = [] ∧ s.chip = rs ++ rest ∧
      AttenReplies s.cfg.toParams c1 c2 c3 rs ∧ c1.InBound s.cfg.toParams ∧
      c2.InBound s.cfg.toParams ∧ c3.InBound s.cfg.toParams :=
  ⟨start ((readScript ++ writeScript ++ readScript) ++ []), readTalk, writeTalk, readTalk, _, [],
    rfl, rfl, rfl, atten_replies, bound_readTalk, bound_writeTalk, bound_readTalk⟩

theorem meets_TuneEdgeCompletes :
    ∃ (s : State) (c1 c2 : EraTalk) (rs rest : List ChipReply),
      s.busy = false ∧ s.resets = [] ∧ s.chip = rs ++ rest ∧
      EdgeReplies s.cfg.toParams c1 c2 rs ∧ c1.InBound s.cfg.toParams ∧
      c2.InBound s.cfg.toParams :=
  ⟨start ((writeScript ++ writeScript) ++ []), writeTalk, writeTalk, _, [], rfl, rfl, rfl,
    edge_replies, bound_writeTalk, bound_writeTalk⟩

theorem meets_InitCompletes :
    ∃ (s : State) (c1 c2 c3 c4 c5 : EraTalk) (w : ChipReply) (bs r1 r2 rest : List ChipReply),
      s.busy = false ∧ s.resets = [] ∧ s.chip = w :: bs ++ r1 ++ r2 ++ rest ∧
      Answers w ∧ bs.length = s.cfg.baseCfg.length ∧ (∀ r ∈ bs, Answers r) ∧
      AttenReplies s.cfg.toParams c1 c2 c3 r1 ∧ EdgeReplies s.cfg.toParams c4 c5 r2 ∧
      (∀ c ∈ [c1, c2, c3, c4, c5], c.InBound s.cfg.toParams) :=
  ⟨start (ack :: List.replicate 4 ack ++ (readScript ++ writeScript ++ readScript) ++
      (writeScript ++ writeScript) ++ []),
    readTalk, writeTalk, readTalk, writeTalk, writeTalk, ack, List.replicate 4 ack, _, _, [], rfl,
    rfl, rfl, ack_answers, rfl, acks_answer 4, atten_replies, edge_replies, by
      have h1 := bound_readTalk
      have h2 := bound_writeTalk
      simpa using ⟨h1, h2, h1, h2⟩⟩

theorem meets_InitEdgeFailureKeepsTheConfirmation :
    ∃ (s : State) (c1 c2 c3 : EraTalk) (w : ChipReply) (bs r1 more rest : List ChipReply),
      s.busy = false ∧ s.resets = [] ∧ s.chip = w :: bs ++ r1 ++ more ∧ more = .fail :: rest ∧
      Answers w ∧ bs.length = s.cfg.baseCfg.length ∧ (∀ r ∈ bs, Answers r) ∧
      AttenReplies s.cfg.toParams c1 c2 c3 r1 ∧
      (∀ c ∈ [c1, c2, c3], c.InBound s.cfg.toParams) :=
  ⟨start (ack :: List.replicate 4 ack ++ (readScript ++ writeScript ++ readScript) ++ .fail :: []),
    readTalk, writeTalk, readTalk, ack, List.replicate 4 ack, _, _, [], rfl,
    rfl, rfl, rfl, ack_answers, rfl, acks_answer 4, atten_replies, by
      have h1 := bound_readTalk
      have h2 := bound_writeTalk
      simpa using ⟨h1, h2, h1⟩⟩

theorem meets_ErrorsKeepTheResultRegisters :
    ∃ (i : Instr) (s t : State),
      i ∈ [Instr.rapRd 0 0, .eraRd 0 0, .getAbs 0 0, .setAtten 0 0] ∧ s.resets = [] ∧
      exec i s = .next t ∧ t.err ≠ .none := by
  obtain ⟨t, h, h2⟩ := runs (i := .getAbs 0 0)
    (s := start [data [1, 0, 0xFF, 0xFF, 0x23, 0x0C], .fail]) (f := fun t => decide (t.err ≠ .none))
    (by decide +kernel)
  exact ⟨_, _, t, by decide, rfl, h, of_decide_eq_true h2⟩

/-- `GET_ABS`, which changes most registers. -/
theorem meets_RegistersChangeOnlyUnderTheirCommands :
    ∃ (i : Instr) (s t : State), s.resets = [] ∧ exec i s = .next t ∧ t.x ≠ s.x ∧ t.rlen ≠ s.rlen := by
  obtain ⟨t, h, h2⟩ := runs (i := .getAbs 0 0)
    (s := start [data [1, 0, 0xFF, 0xFF, 0x23, 0x0C], ack])
    (f := fun t => decide (t.x ≠ 0 ∧ t.rlen ≠ 0)) (by decide +kernel)
  exact ⟨_, _, t, rfl, h, of_decide_eq_true h2⟩

theorem alike_discarded {x y d : List Byte} (hx : x.length = 3) (hy : y.length = 3)
    (hd : 255 ≤ d.length) : Alike (.answer (x ++ d)) (.answer (y ++ d)) := by
  refine ⟨by simp [hx]; omega, by simp [hy]; omega, ?_⟩
  rw [← hx, List.drop_left, hx, ← hy, List.drop_left]

/-- Two chips that differ in the discarded bytes, with an answer left over. -/
theorem meets_DiscardedBytesDoNotMatter :
    ∃ (i : Instr) (s s' t : State), isHostCommand i = true ∧ SameButReplies s s' ∧ s ≠ s' ∧
      exec i s = .next t ∧ t.chip ≠ [] := by
  obtain ⟨t, h, h2⟩ := runs (i := .clrFlags 0 0)
    (s := start [.answer ([1, 2, 3] ++ List.replicate 255 0), .fail])
    (f := fun t => decide (t.chip ≠ [])) (by decide +kernel)
  exact ⟨.clrFlags 0 0, start [.answer ([1, 2, 3] ++ List.replicate 255 0), .fail],
    start [.answer ([4, 5, 6] ++ List.replicate 255 0), .fail], t, rfl,
    ⟨.cons (alike_discarded rfl rfl (List.length_replicate ▸ Nat.le_refl 255)) (.cons trivial .nil), rfl, rfl⟩, by decide +kernel,
    h, of_decide_eq_true h2⟩

theorem meets_FramesAreBounded :
    ∃ (i : Instr) (s t : State), exec i s = .next t := by
  obtain ⟨t, h, -⟩ := runs (i := .clrFlags 0 0) (s := start [ack]) (f := fun _ => true)
    (by decide +kernel)
  exact ⟨_, _, t, h⟩

/-- A machine that has sent a frame, logged an error and holds a sample. -/
theorem meets_StepKeepsTheInvariant :
    ∃ (s t : State), s.Inv ∧ step s = .next t ∧ s ≠ State.reset := by
  refine ⟨{ worn with
    trace := [.sel true, .xchg [0x82, 0x00] [0, 0], .sel false, .delay 50000]
    moves := [.wait] }, _, ⟨by decide +kernel, rfl, by decide +kernel, by decide +kernel,
      by decide +kernel, by decide +kernel, by decide +kernel, ?_, by decide +kernel⟩, rfl,
      by decide +kernel⟩
  intro out h
  have h : out = [0x82, 0x00] := by simpa [actOf] using h
  exact Or.inr ⟨0x02, 0x00, h.trans (by decide)⟩

end Sys2Proof.Tests
end

section
/-!
PROOFS. What an instruction may do to the state, said once (`10_state.md` R11 to R28): the part of the
invariant that holds inside a command too, the groups of result registers an instruction may write, and
the three ways it can answer. The invariant of the step, the error log and the registers an instruction
leaves alone all follow from `exec_answer`.
-/

namespace Sys2Proof.Machine

variable {α β : Type} {s t u v : State}

/-! ### The presence predicates and the error log -/

theorem touchDown_iff (x : Coord) : touchDown x = true ↔ x ≠ 0 := decide_eq_true_iff

theorem isIdle_iff (x y : Coord) (z : Field6) : isIdle x y z = true ↔ x = 0 ∧ y = 0 ∧ z = 0 :=
  decide_eq_true_iff

/-- Idle implies no touch-down (R16). -/
theorem touchDown_eq_false_of_isIdle {x y : Coord} {z : Field6} (h : isIdle x y z = true) :
    touchDown x = false := by
  obtain ⟨rfl, -, -⟩ := (isIdle_iff x y z).1 h
  rfl

/-- The bits of the error log after an error is logged (R14, R180). -/
theorem logError_bit (log : BitVec 5) (e : ErrKind) (k : Fin 5) :
    (logError log e).getLsbD k = true ↔
      log.getLsbD k = true ∨ (e ≠ .none ∧ (errCode e).toNat = k) := by
  cases e <;> fin_cases k <;> simp [logError, errCode]

/-! ### The part of the invariant that holds inside a command -/

/-- The invariant but for the port being at rest: it holds inside a command as well, at every end of a
transaction. -/
structure State.Steady (s : State) : Prop where
  deselected : s.sel = false
  buffer : s.rb.length = s.cfg.maxCount ∧ s.rlen ≤ s.cfg.maxCount
  logBitZero : s.errlog.getLsbD 0 = false
  logged : s.err ≠ .none → s.errlog.getLsbD (errCode s.err).toNat = true
  idleNoTouch : s.idle = true → s.td = false
  tidy : Tidy s.cfg.toParams s.trace

theorem State.inv_iff (s : State) :
    s.Inv ↔ (s.busy = false ∧ s.seq = Sequencer.idle) ∧ s.Steady := by
  constructor
  · intro h
    exact ⟨h.atRest, h.deselected, h.buffer, h.logBitZero, h.logged, h.idleNoTouch, h.shape, h.frames,
      h.settles⟩
  · rintro ⟨hrest, h⟩
    obtain ⟨hshape, hframes, hsettles⟩ := h.tidy
    exact ⟨hrest, h.deselected, h.buffer, h.logBitZero, h.logged, h.idleNoTouch, hshape, hframes, hsettles⟩

theorem steady_resetWith (c : Config) : (State.resetWith c).Steady where
  deselected := rfl
  buffer := ⟨List.length_replicate, Nat.zero_le _⟩
  logBitZero := by simp [State.resetWith]
  logged h := absurd rfl h
  idleNoTouch _ := rfl
  tidy := Tidy.nil _

theorem inv_resetWith (c : Config) : (State.resetWith c).Inv :=
  (State.inv_iff _).2 ⟨⟨rfl, rfl⟩, steady_resetWith c⟩

/-- A state with the registers of reset and a tidy trace has the invariant. -/
theorem inv_of_reset_registers (c : Config) {w : State} (hw : w = { State.resetWith c with
      dr := w.dr, trace := w.trace, chip := w.chip, resets := w.resets, moves := w.moves,
      stageWord := w.stageWord, tick := w.tick }) (ht : Tidy c.toParams w.trace) : w.Inv := by
  have h := steady_resetWith c
  rw [State.inv_iff, hw]
  exact ⟨⟨rfl, rfl⟩, h.deselected, h.buffer, h.logBitZero, h.logged, h.idleNoTouch, ht⟩

theorem inv_resetEngine (h : s.Steady) : s.resetEngine.Inv := by
  refine inv_of_reset_registers s.cfg rfl ?_
  simpa [h.deselected] using h.tidy

theorem Trail.tidy {n : Nat} (h : Trail n s u) (hs : s.Steady) :
    u.sel = false ∧ Tidy s.cfg.toParams u.trace := by
  obtain ⟨ext, htrace, -, htidy⟩ := h
  obtain ⟨hsel, hext⟩ := htidy hs.deselected
  exact ⟨hsel, htrace ▸ hs.tidy.append hext⟩

theorem Moved.steady {n : Nat} (h : Moved n s u) (hs : s.Steady) : u.Steady := by
  obtain ⟨⟨q, t, f, tr, c, sl, rs, rfl⟩, -, htrail⟩ := h
  obtain ⟨hsel, htidy⟩ := htrail.tidy hs
  exact ⟨hsel, hs.buffer, hs.logBitZero, hs.logged, hs.idleNoTouch, htidy⟩

theorem Wiped.inv {n : Nat} (h : Wiped n s u) (hs : s.Steady) : u.Inv := by
  obtain ⟨⟨tr, c, rs, rfl⟩, -, htrail⟩ := h
  exact inv_of_reset_registers s.cfg rfl (htrail.tidy hs).2

theorem State.Steady.storeRead (h : s.Steady) {d : List Byte} (hd : d.length ≤ s.cfg.maxCount) :
    (s.storeRead d).Steady := by
  obtain ⟨hrb, -⟩ := h.buffer
  refine ⟨h.deselected, ⟨?_, hd⟩, h.logBitZero, h.logged, h.idleNoTouch, h.tidy⟩
  simp [hrb]
  omega

theorem State.Steady.storeSample (h : s.Steady) (v : Sample) : (s.storeSample v).Steady :=
  ⟨h.deselected, h.buffer, h.logBitZero, h.logged, touchDown_eq_false_of_isIdle, h.tidy⟩

/-- Ending a command leaves the invariant: the port is at rest, and the kind is in the log (R180). -/
theorem State.Steady.endWith (h : s.Steady) (e : ErrKind) : (s.endWith e).Inv := by
  refine (State.inv_iff _).2 ⟨⟨rfl, rfl⟩, h.deselected, h.buffer, ?_, ?_, h.idleNoTouch, h.tidy⟩
  · refine Bool.eq_false_iff.2 fun hset => ?_
    obtain hbit | ⟨he, hcode⟩ := (logError_bit s.errlog e 0).1 hset
    · exact absurd (h.logBitZero.symm.trans hbit) Bool.false_ne_true
    · cases e <;> simp [errCode] at he hcode
  · intro he
    have hcode : (errCode e).toNat < 5 := by cases e <;> decide
    exact (logError_bit s.errlog e ⟨_, hcode⟩).2 (Or.inr ⟨he, rfl⟩)

/-! ### The result registers in groups -/

/-- The result registers, grouped by the rule that says which commands write them. -/
inductive RegGroup where
  /-- `BTN`, `Z`, `TD`, `IDLE` (R15, R16, R23). -/
  | sample
  /-- `HOV` (R17). -/
  | hover
  /-- `X`, `Y` (R23). -/
  | position
  /-- `OX`, `OY` (R24). -/
  | scaled
  /-- `IND` (R28). -/
  | pin
  /-- `RB`, `RLEN` (R22). -/
  | buffer
  /-- `FEED_SAVED` (R21). -/
  | feed

/-- The groups an instruction may write. -/
def writes : Instr → List RegGroup
  | .rapRd _ _ => [.buffer]
  | .eraRd _ _ => [.buffer, .feed]
  | .eraWr _ _ => [.feed]
  | .getAbs _ _ => [.sample, .hover, .position, .buffer]
  | .clip _ _ => [.position]
  | .scale _ _ => [.position, .scaled]
  | .chkHover _ _ => [.hover]
  | .setAtten _ _ => [.buffer, .feed]
  | .tuneEdge _ _ => [.feed]
  | .init _ _ => [.buffer, .feed]
  | .setInd _ _ => [.pin]
  | _ => []

/-- The registers of a group are as before. -/
def SameIn : RegGroup → State → State → Prop
  | .sample, s, u => u.btn = s.btn ∧ u.z = s.z ∧ u.td = s.td ∧ u.idle = s.idle
  | .hover, s, u => u.hov = s.hov
  | .position, s, u => u.x = s.x ∧ u.y = s.y
  | .scaled, s, u => u.ox = s.ox ∧ u.oy = s.oy
  | .pin, s, u => u.ind = s.ind
  | .buffer, s, u => u.rb = s.rb ∧ u.rlen = s.rlen
  | .feed, s, u => u.feedSaved = s.feedSaved

theorem SameIn.trans {g : RegGroup} (h1 : SameIn g s u) (h2 : SameIn g u v) : SameIn g s v := by
  cases g <;> simp_all [SameIn]

/-- What no sequence writes: the status, which only the end of a command writes (R180), and what is around
the engine: the configuration, the host's moves, the word set to run, and `DR`. -/
def SameOutside (s u : State) : Prop :=
  u.err = s.err ∧ u.errlog = s.errlog ∧ u.cfg = s.cfg ∧ u.moves = s.moves ∧
    u.stageWord = s.stageWord ∧ u.dr = s.dr

theorem SameOutside.cfg (h : SameOutside s u) : u.cfg = s.cfg := by
  obtain ⟨-, -, hcfg, -⟩ := h
  exact hcfg

theorem SameOutside.trans (h1 : SameOutside s u) (h2 : SameOutside u v) : SameOutside s v := by
  simp_all [SameOutside]

/-! ### What a sequence does to the state -/

/-- A sequence that no reset cut led from `s` to `u`, writing result registers of the groups `W` only. -/
structure Run (W : List RegGroup) (s u : State) : Prop where
  outside : SameOutside s u
  same : ∀ g, g ∉ W → SameIn g s u
  steady : s.Steady → u.Steady
  resets : u.resets.length = s.resets.length

/-- A reset that was due cut a sequence begun at `s` and left `u` (R201). -/
def Cut (s u : State) : Prop := u.resets.length < s.resets.length ∧ (s.Steady → u.Inv)

variable {W : List RegGroup}

theorem Run.trans (h1 : Run W s u) (h2 : Run W u v) : Run W s v where
  outside := h1.outside.trans h2.outside
  same g hg := (h1.same g hg).trans (h2.same g hg)
  steady hs := h2.steady (h1.steady hs)
  resets := h2.resets.trans h1.resets

theorem Run.cut (h1 : Run W s u) (h2 : Cut u v) : Cut s v := by
  obtain ⟨hresets, hinv⟩ := h2
  exact ⟨h1.resets ▸ hresets, fun hs => hinv (h1.steady hs)⟩

/-- Writing registers that are no result registers. -/
theorem Run.scratch (q : Sequencer) (t : Byte) :
    Run W s { s with seq := q, tmp := t } where
  outside := ⟨rfl, rfl, rfl, rfl, rfl, rfl⟩
  same g _ := by cases g <;> simp [SameIn]
  steady := (moved_set q t s.feedSaved).steady
  resets := rfl

/-- A bus procedure writes no result register but `FEED_SAVED`. -/
theorem Moved.run {n : Nat} (h : Moved n s u) (hf : .feed ∉ W → u.feedSaved = s.feedSaved) :
    Run W s u where
  outside := by
    obtain ⟨⟨q, t, f, tr, c, sl, rs, rfl⟩, -⟩ := h
    exact ⟨rfl, rfl, rfl, rfl, rfl, rfl⟩
  same g hg := by
    obtain ⟨⟨q, t, f, tr, c, sl, rs, rfl⟩, -⟩ := h
    cases g
    case feed => exact hf hg
    all_goals simp [SameIn]
  steady := h.steady
  resets := h.2.1

theorem Wiped.cut {n : Nat} (h : Wiped n s u) : Cut s u := ⟨h.2.1, h.inv⟩

/-- A write of registers the invariant does not speak of. -/
theorem Run.of_write (hout : SameOutside s u) (hbus : SameBus s u) (hbuf : SameBuffer s u)
    (hidle : u.td = s.td ∧ u.idle = s.idle) (hsame : ∀ g, g ∉ W → SameIn g s u) : Run W s u where
  outside := hout
  same := hsame
  steady h := by
    obtain ⟨herr, hlog, hcfg, -⟩ := hout
    obtain ⟨htrace, -, hsel, -⟩ := hbus
    obtain ⟨hrb, hrlen⟩ := hbuf
    obtain ⟨htd, hid⟩ := hidle
    exact ⟨by rw [hsel]; exact h.deselected, by rw [hrb, hrlen, hcfg]; exact h.buffer,
      by rw [hlog]; exact h.logBitZero, by rw [herr, hlog]; exact h.logged,
      by rw [hid, htd]; exact h.idleNoTouch, by rw [htrace, hcfg]; exact h.tidy⟩
  resets := by
    obtain ⟨-, -, -, hresets⟩ := hbus
    rw [hresets]

theorem Run.accept (op : SeqOp) (code : BitVec 4) (a b : Word16) : Run W s (s.accept op code a b) :=
  .of_write ⟨rfl, rfl, rfl, rfl, rfl, rfl⟩ ⟨rfl, rfl, rfl, rfl⟩ ⟨rfl, rfl⟩ ⟨rfl, rfl⟩
    fun g _ => by cases g <;> simp [SameIn]

theorem Run.clipXY (hW : .position ∈ W) : Run W s s.clipXY :=
  .of_write ⟨rfl, rfl, rfl, rfl, rfl, rfl⟩ ⟨rfl, rfl, rfl, rfl⟩ ⟨rfl, rfl⟩ ⟨rfl, rfl⟩
    fun g hg => by cases g <;> simp_all [SameIn]

theorem Run.scaleXY (rx ry : Word16) (hW : .scaled ∈ W) : Run W s (s.scaleXY rx ry) :=
  .of_write ⟨rfl, rfl, rfl, rfl, rfl, rfl⟩ ⟨rfl, rfl, rfl, rfl⟩ ⟨rfl, rfl⟩ ⟨rfl, rfl⟩
    fun g hg => by cases g <;> simp_all [SameIn]

theorem Run.setHov (b : Bool) (hW : .hover ∈ W) : Run W s { s with hov := b } :=
  .of_write ⟨rfl, rfl, rfl, rfl, rfl, rfl⟩ ⟨rfl, rfl, rfl, rfl⟩ ⟨rfl, rfl⟩ ⟨rfl, rfl⟩
    fun g hg => by cases g <;> simp_all [SameIn]

theorem Run.setInd (b : Bool) (hW : .pin ∈ W) : Run W s { s with ind := b } :=
  .of_write ⟨rfl, rfl, rfl, rfl, rfl, rfl⟩ ⟨rfl, rfl, rfl, rfl⟩ ⟨rfl, rfl⟩ ⟨rfl, rfl⟩
    fun g hg => by cases g <;> simp_all [SameIn]

theorem Run.storeRead {d : List Byte} (hd : d.length ≤ s.cfg.maxCount) (hW : .buffer ∈ W) :
    Run W s (s.storeRead d) where
  outside := ⟨rfl, rfl, rfl, rfl, rfl, rfl⟩
  same g hg := by cases g <;> simp_all [SameIn]
  steady h := h.storeRead hd
  resets := rfl

theorem Run.storeSample (v : Sample) (hs : .sample ∈ W) (hh : .hover ∈ W) (hp : .position ∈ W) :
    Run W s (s.storeSample v) where
  outside := ⟨rfl, rfl, rfl, rfl, rfl, rfl⟩
  same g hg := by cases g <;> simp_all [SameIn]
  steady h := h.storeSample v
  resets := rfl

/-! ### Sequences that keep to their registers -/

/-- Run on `s`, `m` leaves a state that `R` relates to `s`, or `C` does if a reset cut it. -/
def Leaves (R C : State → State → Prop) (m : Sequence α) (s : State) : Prop :=
  match m s with
  | .ok _ u => R s u
  | .error (.raised _) u => R s u
  | .error .reset u => C s u

theorem Leaves.bind {R C : State → State → Prop} {m : Sequence α} {f : α → Sequence β}
    (hR : ∀ {u v}, R s u → R u v → R s v) (hC : ∀ {u v}, R s u → C u v → C s v) (hm : Leaves R C m s)
    (hf : ∀ a u, m s = .ok a u → R s u → Leaves R C (f a) u) : Leaves R C (m >>= f) s := by
  unfold Leaves at *
  rw [bind_run]
  match hms : m s with
  | .error (.raised e) u => simpa only [hms] using hm
  | .error .reset u => simpa only [hms] using hm
  | .ok a u =>
    simp only [hms] at hm ⊢
    have hfu := hf a u hms hm
    match hfa : f a u with
    | .ok b v => simp only [hfa] at hfu; exact hR hm hfu
    | .error (.raised e) v => simp only [hfa] at hfu; exact hR hm hfu
    | .error .reset v => simp only [hfa] at hfu; exact hC hm hfu

/-- `m` does not write `FEED_SAVED` (a reset aside). -/
def KeepsFeed (m : Sequence α) : Prop := ∀ s, Leaves (SameIn .feed) (fun _ _ => True) m s

namespace KeepsFeed

theorem bind {m : Sequence α} {f : α → Sequence β} (hm : KeepsFeed m) (hf : ∀ a, KeepsFeed (f a)) :
    KeepsFeed (m >>= f) :=
  fun s => (hm s).bind SameIn.trans (fun _ _ => trivial) fun a u _ _ => hf a u

theorem ret (a : α) : KeepsFeed (pure a) := fun _ => rfl

theorem raise (e : ErrKind) : KeepsFeed (Machine.raise e : Sequence α) := fun _ => rfl

theorem write {f : State → State} (h : ∀ s, SameIn .feed s (f s)) : KeepsFeed (modify f) := h

theorem read {f : State → Sequence β} (hf : ∀ s, KeepsFeed (f s)) : KeepsFeed (get >>= f) :=
  bind (fun _ => rfl) hf

theorem seq (f : State → Sequencer) : KeepsFeed (modify fun s => { s with seq := f s }) :=
  write fun _ => rfl

theorem tmp (v : Byte) : KeepsFeed (setTmp v) := write fun _ => rfl

theorem stage (line : Nat) {part : Nat} : KeepsFeed (atStage line part) := seq _

theorem polls (n : Nat) : KeepsFeed (setPolls n) := seq _

theorem inner {m : Sequence α} (h : KeepsFeed m) : KeepsFeed (inner m) := by
  unfold Machine.inner
  exact (seq fun s => s.seq.push).bind fun _ => h.bind fun a =>
    (seq fun s => s.seq.pop).bind fun _ => ret a

end KeepsFeed

theorem keepsFeed_emit (e : BusEvent) : KeepsFeed (emit e) := by
  intro s
  unfold Leaves emit
  match s.resets with
  | [] => rfl
  | 0 :: _ => trivial
  | (_ + 1) :: _ => rfl

theorem keepsFeed_driveSelect (level : Bool) : KeepsFeed (driveSelect level) :=
  (keepsFeed_emit _).bind fun _ => .write fun _ => rfl

theorem keepsFeed_exchange (out : List Byte) : KeepsFeed (exchange out) := by
  unfold exchange
  exact .read fun s => (keepsFeed_emit _).bind fun _ =>
    (KeepsFeed.write (f := fun t => { t with chip := t.chip.tail }) fun _ => rfl).bind fun _ => .ret _

theorem keepsFeed_transact (out : List Byte) : KeepsFeed (transact out) := by
  unfold transact
  refine (keepsFeed_driveSelect true).bind fun _ => (keepsFeed_exchange out).bind fun r =>
    (keepsFeed_driveSelect false).bind fun _ => ?_
  match r with
  | some inp => exact .ret inp
  | none => exact .raise .busFailure

theorem keepsFeed_rapRead (a : RegAddr) (n : Nat) : KeepsFeed (rapRead a n) :=
  .read fun _ => (keepsFeed_transact _).bind fun _ => .ret _

theorem keepsFeed_rapReadByte (a : RegAddr) : KeepsFeed (rapReadByte a) :=
  (keepsFeed_rapRead a 1).bind fun _ => .ret _

theorem keepsFeed_rapWrite (a : RegAddr) (v : Byte) : KeepsFeed (rapWrite a v) :=
  .read fun _ => (keepsFeed_transact _).bind fun _ => .ret _

theorem keepsFeed_clearFlags : KeepsFeed clearFlags :=
  (keepsFeed_rapWrite _ _).bind fun _ => (KeepsFeed.stage 2).bind fun _ =>
    .read fun _ => keepsFeed_emit _

theorem keepsFeed_setFeed (enable : Bool) : KeepsFeed (setFeed enable) :=
  .read fun _ => (keepsFeed_rapReadByte _).bind fun v => (KeepsFeed.tmp v).bind fun _ =>
    (KeepsFeed.stage 2).bind fun _ => (KeepsFeed.stage 3).bind fun _ => keepsFeed_rapWrite _ _

theorem keepsFeed_pollLoop : ∀ n, KeepsFeed (pollLoop n)
  | 0 => (KeepsFeed.stage 2).bind fun _ => .raise _
  | n + 1 => by
    unfold pollLoop
    refine (KeepsFeed.stage 2).bind fun _ => (KeepsFeed.stage 2).bind fun _ =>
      (keepsFeed_rapReadByte _).bind fun c => (KeepsFeed.tmp c).bind fun _ =>
      .read fun s => (KeepsFeed.polls _).bind fun _ => (KeepsFeed.stage 2).bind fun _ => ?_
    split
    · exact .ret ()
    · exact keepsFeed_pollLoop n

theorem keepsFeed_poll : KeepsFeed poll :=
  (KeepsFeed.polls 0).bind fun _ => .read fun _ => keepsFeed_pollLoop _

/-- Run on `s`, `m` writes result registers of the groups `W` only, whatever the chip answers, unless a
reset that was due cuts it. -/
def Confined (W : List RegGroup) (m : Sequence α) (s : State) : Prop := Leaves (Run W) Cut m s

namespace Confined

theorem bind {m : Sequence α} {f : α → Sequence β} (hm : Confined W m s)
    (hf : ∀ a u, m s = .ok a u → Run W s u → Confined W (f a) u) : Confined W (m >>= f) s :=
  Leaves.bind Run.trans Run.cut hm hf

theorem ret (a : α) : Confined W (pure a) s := Run.scratch s.seq s.tmp

theorem raise (e : ErrKind) : Confined W (Machine.raise e : Sequence α) s := Run.scratch s.seq s.tmp

theorem write {f : State → State} (h : Run W s (f s)) : Confined W (modify f) s := h

theorem read {f : State → Sequence β} (h : Confined W (f s) s) : Confined W (get >>= f) s := by
  simpa [Confined, Leaves] using h

theorem seq (f : State → Sequencer) : Confined W (modify fun s => { s with seq := f s }) s :=
  Run.scratch _ s.tmp

theorem tmp (v : Byte) : Confined W (setTmp v) s := Run.scratch s.seq v

theorem stage (line : Nat) {part : Nat} : Confined W (atStage line part) s := seq _

theorem idx (n : Nat) : Confined W (setIdx n) s := seq _

theorem inner {m : Sequence α} (h : ∀ u, Run W s u → Confined W m u) : Confined W (inner m) s := by
  unfold Machine.inner
  exact (seq fun s => s.seq.push).bind fun _ u _ hu => (h u hu).bind fun a v _ _ =>
    (seq fun s => s.seq.pop).bind fun _ _ _ _ => ret a

/-- A bus procedure that may write `FEED_SAVED`, or does not. -/
theorem of_within {m : Sequence α} {n : Nat} {E : ErrKind → Prop} (h : Within n E m s)
    (hf : .feed ∈ W ∨ KeepsFeed m) : Confined W m s := by
  have kept : ∀ u : State, (KeepsFeed m → u.feedSaved = s.feedSaved) → .feed ∉ W → u.feedSaved = s.feedSaved :=
    fun u hu hW => hu (hf.resolve_left hW)
  have hk := fun hm : KeepsFeed m => hm s
  unfold Confined Leaves at *
  unfold Within at h
  match hms : m s with
  | .ok a u => simp only [hms] at h hk; exact h.run (kept u hk)
  | .error (.raised e) u => simp only [hms] at h hk; exact h.2.run (kept u hk)
  | .error .reset u => simp only [hms] at h; exact h.cut

end Confined

/-! ### How many bytes a read returns -/

/-- Whenever `m` runs to its end, its value has the property `P`. -/
def Yields (P : α → Prop) (m : Sequence α) : Prop := ∀ s a u, m s = .ok a u → P a

namespace Yields

theorem ret {P : α → Prop} {a : α} (h : P a) : Yields P (pure a) := by
  intro s b u heq
  cases heq
  exact h

theorem bind {P : β → Prop} {Q : α → Prop} {m : Sequence α} {f : α → Sequence β} (hm : Yields Q m)
    (hf : ∀ a, Q a → Yields P (f a)) : Yields P (m >>= f) := by
  intro s b v h
  rw [bind_run] at h
  match hms : m s with
  | .ok a u => simp only [hms] at h; exact hf a (hm s a u hms) u b v h
  | .error e u => simp only [hms] at h; cases h

/-- `bind` after a step whose value does not matter. -/
theorem after {P : β → Prop} {m : Sequence α} {f : α → Sequence β} (hf : ∀ a, Yields P (f a)) :
    Yields P (m >>= f) :=
  bind (Q := fun _ => True) (fun _ _ _ _ => trivial) fun a _ => hf a

variable {P : α → Prop} {m : Sequence α}

theorem inner (h : Yields P m) : Yields P (inner m) := by
  unfold Machine.inner
  exact after fun _ => h.bind fun a ha => after fun _ => ret ha

theorem eraExit (h : Yields P m) (line : Nat) (stack : List Stage) :
    Yields P (eraExit line stack m) := by
  intro s a v heq
  unfold Machine.eraExit at heq
  match hms : m s with
  | .ok b u =>
    simp only [hms] at heq
    split at heq <;> cases heq
    exact h s a u hms
  | .error (.raised e) u => simp only [hms] at heq; split at heq <;> cases heq
  | .error .reset u => simp only [hms] at heq; cases heq

theorem eraOperation (h : Yields P m) (line : Nat) : Yields P (eraOperation line m) :=
  after fun s => after fun _ => after fun _ => eraExit (after fun _ => after fun _ => h) line s.seq.ret

end Yields

/-- `RapRead` returns no more bytes than asked for (R91). -/
theorem rapRead_length_le (a : RegAddr) (n : Nat) : Yields (fun d => d.length ≤ n) (rapRead a n) :=
  .after fun _ => .after fun _ => .ret (List.length_take_le ..)

theorem eraCycles_length : ∀ n i, Yields (fun d => d.length = n) (eraCycles n i)
  | 0, _ => .ret rfl
  | n + 1, i => .after fun _ => .after fun _ => .after fun _ => .after fun _ => .after fun _ =>
      .after fun _ => .after fun _ => .after fun _ => .after fun _ =>
      (eraCycles_length n (i + 1)).bind fun _ hrest => .ret (congrArg Nat.succ hrest)

/-- `EraRead` returns as many bytes as asked for (R103). -/
theorem eraRead_length (eaddr : Word16) (n : Nat) :
    Yields (fun d => d.length = n) (eraRead eaddr n) :=
  .eraOperation (.after fun _ => .after fun _ => .after fun _ => eraCycles_length n 0) 4

/-! ### The procedures that store results -/

/-- `RB` has room for the longest fixed read, six bytes (R6). -/
theorem config_maxCount (c : Config) : 6 ≤ c.maxCount := by
  obtain ⟨-, -, -, -, -, -, -, ⟨h, -⟩, -⟩ := c.wf
  exact h

theorem confined_attenuationTuning (gain : Byte) (hb : .buffer ∈ W) (hf : .feed ∈ W) :
    Confined W (attenuationTuning gain) s := by
  have read : ∀ (eaddr : Word16) u, Confined W (inner (eraRead eaddr 1)) u := fun _ _ =>
    .inner fun _ _ => .of_within (within_eraRead _ 1) (.inl hf)
  have write : ∀ (eaddr : Word16) v u, Confined W (inner (eraWrite eaddr v)) u := fun _ _ _ =>
    .inner fun _ _ => .of_within (within_eraWrite _ _) (.inl hf)
  unfold attenuationTuning
  refine .read ((read _ s).bind fun d _ _ _ => (Confined.tmp _).bind fun _ _ _ _ =>
    (Confined.stage 2).bind fun _ _ _ _ => (Confined.stage 3).bind fun _ _ _ _ =>
    (write _ _ _).bind fun _ _ _ _ => (Confined.stage 4).bind fun _ _ _ _ =>
    (read _ _).bind fun c _ _ _ => (Confined.stage 5).bind fun _ u _ _ => .write (.storeRead ?_ hb))
  exact (by decide : 1 ≤ 6).trans (config_maxCount u.cfg)

theorem confined_edgeTuning (hf : .feed ∈ W) : Confined W edgeTuning s := by
  have write : ∀ (eaddr : Word16) v u, Confined W (inner (eraWrite eaddr v)) u := fun _ _ _ =>
    .inner fun _ _ => .of_within (within_eraWrite _ _) (.inl hf)
  exact .read ((write _ _ s).bind fun _ _ _ _ => (Confined.stage 2).bind fun _ _ _ _ => write _ _ _)

theorem confined_clearFlags : Confined W clearFlags s :=
  .of_within within_clearFlags (.inr keepsFeed_clearFlags)

theorem confined_rapRead (a : RegAddr) (n : Nat) : Confined W (rapRead a n) s :=
  .of_within (within_rapRead a n) (.inr (keepsFeed_rapRead a n))

theorem confined_rapWrite (a : RegAddr) (v : Byte) : Confined W (rapWrite a v) s :=
  .of_within (within_rapWrite a v) (.inr (keepsFeed_rapWrite a v))

theorem confined_baseWrites (l : List (RegAddr × Byte)) (j : Nat) : Confined W (baseWrites l j) s := by
  induction l generalizing j s with
  | nil => exact .ret ()
  | cons entry l ih =>
    exact (Confined.idx j).bind fun _ _ _ _ => (confined_rapWrite _ _).bind fun _ _ _ _ => ih (j + 1)

/-- `IND(level)` happens, or the reset that was due (R166, R201). -/
theorem confined_emit_ind (level : Bool) : Confined W (emit (.ind level)) s := by
  have shown : ∀ rs, rs.length = s.resets.length →
      Moved 0 s { s with resets := rs, trace := s.trace ++ [.ind level] } := fun rs hrs =>
    ⟨⟨s.seq, s.tmp, s.feedSaved, _, s.chip, s.sel, rs, rfl⟩, hrs, [.ind level], rfl, Nat.le_refl 0,
      fun h => ⟨h, rfl, by simp [FramesOnly], rfl⟩⟩
  unfold Confined Leaves emit
  match hr : s.resets with
  | [] => simpa [hr] using (shown [] (by simp [hr])).run (W := W) fun _ => rfl
  | 0 :: later =>
    have steady : ∀ hs : s.Steady, { s with resets := later }.Steady := fun hs =>
      ⟨hs.deselected, hs.buffer, hs.logBitZero, hs.logged, hs.idleNoTouch, hs.tidy⟩
    exact ⟨by simp [hr], fun hs => inv_resetEngine (steady hs)⟩
  | (n + 1) :: later => exact (shown (n :: later) (by simp [hr])).run fun _ => rfl

/-! ### The meanings -/

/-- Everything an instruction can answer: it ended with a kind, or was a stage that ran by itself to its
end, or a reset that was due cut it. -/
inductive Answer (W : List RegGroup) (s : State) : State → Prop where
  | ended {u : State} (h : Run W s u) (e : ErrKind) : Answer W s (u.endWith e)
  | rested {u : State} (h : Run W s u) (hb : u.busy = false) :
      Answer W s { u with seq := Sequencer.idle }
  | cut {t : State} (h : Cut s t) : Answer W s t

theorem runCommand_answer {op : SeqOp} {code : BitVec 4} {legal : Bool} {a b : Word16}
    {body : Sequence Unit} (h : runCommand op code legal a b body s = .next t)
    (hbody : legal = true → Confined W body (s.accept op code a b)) : Answer W s t := by
  obtain ⟨-, ⟨hlegal, rfl⟩ | ⟨-, rfl⟩⟩ := runCommand_cases h
  · have hrun := hbody hlegal
    have haccept : Run W s (s.accept op code a b) := Run.accept op code a b
    unfold Confined Leaves at hrun
    match hres : body (s.accept op code a b) with
    | .ok _ u => simp only [hres] at hrun; exact .ended (haccept.trans hrun) .none
    | .error (.raised e) u => simp only [hres] at hrun; exact .ended (haccept.trans hrun) e
    | .error .reset u => simp only [hres] at hrun; exact .cut (haccept.cut hrun)
  · exact .ended (Run.scratch s.seq s.tmp) .illegalCommand

theorem Moved.busy {n : Nat} (h : Moved n s u) : u.busy = s.busy := by
  obtain ⟨⟨q, t, f, tr, c, sl, rs, rfl⟩, -⟩ := h
  rfl

theorem runStage_answer {body : Sequence Unit} {n : Nat} {E : ErrKind → Prop}
    (h : runStage body s = .next t) (hbody : Within n E body s) (hfeed : KeepsFeed body) :
    Answer W s t := by
  obtain ⟨hidle, rfl⟩ := runStage_cases h
  have hrun : Confined W body s := .of_within hbody (.inr hfeed)
  unfold Confined Leaves at hrun
  unfold Within at hbody
  match hres : body s with
  | .ok _ u =>
    simp only [hres] at hrun hbody
    exact .rested hrun (hbody.busy.trans hidle)
  | .error (.raised e) u => simp only [hres] at hrun; exact .ended hrun e
  | .error .reset u => simp only [hres] at hrun; exact .cut hrun

section
variable (a b : Word16)

theorem execRapRd_answer (h : execRapRd a b s = .next t) : Answer (writes (.rapRd a b)) s t := by
  refine runCommand_answer h fun hlegal => .read ?_
  rw [Bool.and_eq_true] at hlegal
  refine (confined_rapRead _ _).bind fun d u hd hu => (Confined.stage 2).bind fun _ v _ hv =>
    (Confined.write (.storeRead ?_ (by simp [writes]))).bind fun _ _ _ _ => .stage 4
  rw [hv.outside.cfg, hu.outside.cfg]
  exact (rapRead_length_le _ _ _ _ _ hd).trans (of_decide_eq_true hlegal.2)

theorem execRapWr_answer (h : execRapWr a b s = .next t) : Answer (writes (.rapWr a b)) s t :=
  runCommand_answer h fun _ => .read ((confined_rapWrite _ _).bind fun _ _ _ _ => .stage 2)

theorem execEraRd_answer (h : execEraRd a b s = .next t) : Answer (writes (.eraRd a b)) s t := by
  refine runCommand_answer h fun hlegal => .read ?_
  refine (Confined.inner fun _ _ => .of_within (within_eraRead _ _) (.inl (by simp [writes]))).bind
    fun d u hd hu => (Confined.stage 2).bind fun _ v _ hv =>
    (Confined.write (.storeRead ?_ (by simp [writes]))).bind fun _ _ _ _ => .stage 4
  rw [hv.outside.cfg, hu.outside.cfg, (eraRead_length _ _).inner _ _ _ hd]
  exact of_decide_eq_true hlegal

theorem execEraWr_answer (h : execEraWr a b s = .next t) : Answer (writes (.eraWr a b)) s t :=
  runCommand_answer h fun _ => .read ((Confined.inner fun _ _ =>
    .of_within (within_eraWrite _ _) (.inl (by simp [writes]))).bind fun _ _ _ _ => .stage 2)

theorem execClrFlags_answer (h : execClrFlags a b s = .next t) :
    Answer (writes (.clrFlags a b)) s t :=
  runCommand_answer h fun _ => confined_clearFlags

theorem execSetFeed_answer (h : execSetFeed a b s = .next t) : Answer (writes (.setFeed a b)) s t :=
  runCommand_answer h fun _ => .read (.of_within (within_setFeed _) (.inr (keepsFeed_setFeed _)))

theorem execGetAbs_answer (h : execGetAbs a b s = .next t) : Answer (writes (.getAbs a b)) s t := by
  refine runCommand_answer h fun _ => (confined_rapRead _ _).bind fun d _ hd _ =>
    (Confined.stage 2).bind fun _ _ _ _ => (Confined.inner fun _ _ => confined_clearFlags).bind
    fun _ _ _ _ => (Confined.stage 3).bind fun _ u _ _ =>
    (Confined.write (.storeRead ?_ (by simp [writes]))).bind fun _ _ _ _ =>
    (Confined.stage 4).bind fun _ _ _ _ => (Confined.write (.storeSample _ (by simp [writes])
      (by simp [writes]) (by simp [writes]))).bind fun _ _ _ _ => .stage 8
  exact (rapRead_length_le _ _ _ _ _ hd).trans (config_maxCount u.cfg)

theorem execClip_answer (h : execClip a b s = .next t) : Answer (writes (.clip a b)) s t :=
  runCommand_answer h fun _ => .write (.clipXY (by simp [writes]))

theorem execScale_answer (h : execScale a b s = .next t) : Answer (writes (.scale a b)) s t :=
  runCommand_answer h fun _ => (Confined.write (.clipXY (by simp [writes]))).bind fun _ _ _ _ =>
    (Confined.stage 2).bind fun _ u _ _ =>
    (Confined.write (.scaleXY u.opa u.opb (by simp [writes]))).bind fun _ _ _ _ => .stage 5

theorem execChkHover_answer (h : execChkHover a b s = .next t) :
    Answer (writes (.chkHover a b)) s t := by
  refine runCommand_answer h fun _ => .read ((Confined.stage 2).bind fun _ _ _ _ => ?_)
  split
  · exact .raise .outOfRange
  · exact (Confined.write (.setHov _ (by simp [writes]))).bind fun _ _ _ _ => .stage 5

theorem execSetAtten_answer (h : execSetAtten a b s = .next t) :
    Answer (writes (.setAtten a b)) s t :=
  runCommand_answer h fun _ => .read ((confined_attenuationTuning _ (by simp [writes])
    (by simp [writes])).bind fun _ _ _ _ => .stage 6)

theorem execTuneEdge_answer (h : execTuneEdge a b s = .next t) :
    Answer (writes (.tuneEdge a b)) s t :=
  runCommand_answer h fun _ => (confined_edgeTuning (by simp [writes])).bind fun _ _ _ _ => .stage 3

theorem execInit_answer (h : execInit a b s = .next t) : Answer (writes (.init a b)) s t :=
  runCommand_answer h fun _ => (Confined.inner fun _ _ => confined_clearFlags).bind fun _ _ _ _ =>
    (Confined.stage 2).bind fun _ _ _ _ => .read ((confined_baseWrites _ 0).bind fun _ _ _ _ =>
    (Confined.idx 0).bind fun _ _ _ _ => (Confined.stage 3).bind fun _ _ _ _ =>
    (Confined.inner fun _ _ => confined_attenuationTuning _ (by simp [writes]) (by simp [writes])).bind
    fun _ _ _ _ => (Confined.stage 4).bind fun _ _ _ _ =>
    (Confined.inner fun _ _ => confined_edgeTuning (by simp [writes])).bind fun _ _ _ _ => .stage 5)

theorem execSetInd_answer (h : execSetInd a b s = .next t) : Answer (writes (.setInd a b)) s t :=
  runCommand_answer h fun _ => .read ((Confined.write (.setInd _ (by simp [writes]))).bind
    fun _ _ _ _ => confined_emit_ind _)

end

/-- Everything an instruction can do to the state, whatever the chip answers and whenever a reset
strikes. -/
theorem exec_answer {i : Instr} (h : exec i s = .next t) : Answer (writes i) s t := by
  cases i with
  | nop a b => exact runCommand_answer h fun _ => .ret ()
  | rapRd a b => exact execRapRd_answer a b h
  | rapWr a b => exact execRapWr_answer a b h
  | eraRd a b => exact execEraRd_answer a b h
  | eraWr a b => exact execEraWr_answer a b h
  | clrFlags a b => exact execClrFlags_answer a b h
  | setFeed a b => exact execSetFeed_answer a b h
  | getAbs a b => exact execGetAbs_answer a b h
  | clip a b => exact execClip_answer a b h
  | scale a b => exact execScale_answer a b h
  | chkHover a b => exact execChkHover_answer a b h
  | setAtten a b => exact execSetAtten_answer a b h
  | tuneEdge a b => exact execTuneEdge_answer a b h
  | init a b => exact execInit_answer a b h
  | setInd a b => exact execSetInd_answer a b h
  | reservedF a b => exact runCommand_answer h fun _ => .ret ()
  | frameRapRead address count =>
    exact runStage_answer h ((within_rapRead address count).bind (k := 0) fun _ _ _ => .ret ())
      ((keepsFeed_rapRead address count).bind fun _ => .ret ())
  | frameRapWrite address value =>
    exact runStage_answer h (within_rapWrite address value) (keepsFeed_rapWrite address value)
  | eraCodeWrite => exact runStage_answer h (within_rapWrite _ _) (keepsFeed_rapWrite _ _)
  | eraCodeRead => exact runStage_answer h (within_rapWrite _ _) (keepsFeed_rapWrite _ _)
  | eraCodeDone => exact runStage_answer h within_poll keepsFeed_poll

end Sys2Proof.Machine
end

section
/-!
PROOFS. The invariant of a machine between two steps (`10_state.md` R11, R13, R14, R16, R22;
`40_bus_transport.md` R49, R60, R83), the error log (R14, R180), and the registers each instruction leaves
alone (R15 to R28): three readings of `exec_answer`.
-/

namespace Sys2Proof.Machine

variable {s t : State} {W : List RegGroup}

/-! ### The invariant -/

theorem State.Inv.steady (h : s.Inv) : s.Steady := ((State.inv_iff s).1 h).2

/-- The invariant does not speak of the host's moves, the word set to run, `DR` and the step count. -/
theorem State.Inv.outside (h : s.Inv) {m : List Move} {w : Option WireWord} {d : Bool} {n : Nat} :
    { s with moves := m, stageWord := w, dr := d, tick := n }.Inv :=
  ⟨h.atRest, h.deselected, h.buffer, h.logBitZero, h.logged, h.idleNoTouch, h.shape, h.frames, h.settles⟩

theorem State.Inv.sampleDr (h : s.Inv) : s.sampleDr.Inv := h.outside

theorem Answer.inv (h : Answer W s t) (hs : s.Inv) : t.Inv := by
  cases h with
  | ended hrun e => exact (hrun.steady hs.steady).endWith e
  | @rested u hrun hidle =>
    have hu : u.Steady := hrun.steady hs.steady
    exact (State.inv_iff _).2 ⟨⟨hidle, rfl⟩, (Run.scratch (W := W) Sequencer.idle u.tmp).steady hu⟩
  | cut hcut =>
    obtain ⟨-, hinv⟩ := hcut
    exact hinv hs.steady

theorem runWord_inv {word : Encoded} (hs : s.Inv) (h : runWord word s = .next t) : t.Inv := by
  unfold runWord at h
  split at h
  · rename_i i _
    match hexec : exec i s with
    | .next u =>
      rw [hexec] at h
      cases h
      exact ((exec_answer hexec).inv hs).sampleDr
    | .fault f => rw [hexec] at h; cases h
    | .refused r => rw [hexec] at h; cases h
  · cases h

/-- A host read that gives a value only samples `DR`. -/
theorem stepRead_next {r : HostReg} (h : stepRead r s = .next t) : t = s.sampleDr := by
  unfold stepRead at h
  split at h <;> cases h
  rfl

theorem step_inv (hs : s.Inv) (h : step s = .next t) : t.Inv := by
  unfold step at h
  split at h
  · exact runWord_inv hs.outside h
  · split at h
    · cases h; exact hs.sampleDr
    · exact runWord_inv hs.outside h
    · exact stepRead_next h ▸ hs.outside.sampleDr
    · cases h; exact (inv_resetEngine hs.outside.steady).sampleDr
    · cases h; exact hs.outside.sampleDr

/-- Settles O59: one case for every kind of step. -/
theorem stepKeepsTheInvariant : Obligations.StepKeepsTheInvariant := fun _ _ => step_inv

/-- Settles O60. -/
theorem resetHasTheInvariant : Obligations.ResetHasTheInvariant :=
  ⟨inv_resetWith, inv_resetWith Config.p0⟩

/-! ### The error log and the result registers when no reset is due -/

/-- With no reset due, an instruction ended with a kind or was a stage that ran to its end. -/
theorem exec_answer_of_no_reset {i : Instr} (hr : s.resets = []) (h : exec i s = .next t) :
    ∃ u, Run (writes i) s u ∧ ((∃ e, t = u.endWith e) ∨ t = { u with seq := Sequencer.idle }) := by
  cases exec_answer h with
  | ended hrun e => exact ⟨_, hrun, Or.inl ⟨e, rfl⟩⟩
  | rested hrun _ => exact ⟨_, hrun, Or.inr rfl⟩
  | cut hcut =>
    obtain ⟨hlt, -⟩ := hcut
    simp [hr] at hlt

/-- The log after an instruction: that kind logged which `ERR` then holds, or the log and `ERR` as
before. -/
theorem exec_errlog {i : Instr} (hr : s.resets = []) (h : exec i s = .next t) :
    t.errlog = logError s.errlog t.err ∨ t.errlog = s.errlog := by
  obtain ⟨u, hrun, ⟨e, rfl⟩ | rfl⟩ := exec_answer_of_no_reset hr h <;>
    obtain ⟨-, hlog, -⟩ := hrun.outside
  · exact Or.inl (by rw [State.endWith_errlog, State.endWith_err, hlog])
  · exact Or.inr hlog

/-- Settles O19, by the bits of `logError`. -/
theorem errlogIsSticky : Obligations.ErrlogIsSticky := by
  intro i s t hr h k
  obtain hlog | hlog := exec_errlog hr h
  · rw [hlog, logError_bit]
    refine ⟨Or.inl, fun hclear hset => ?_⟩
    obtain hold | ⟨hne, hcode⟩ := hset
    · exact absurd (hclear.symm.trans hold) Bool.false_ne_true
    · exact ⟨hcode, hne⟩
  · rw [hlog]
    exact ⟨id, fun hclear hset => absurd (hclear.symm.trans hset) Bool.false_ne_true⟩

/-- The end of an instruction writes no result register and nothing around the engine. -/
theorem exec_same {i : Instr} (hr : s.resets = []) (h : exec i s = .next t) :
    (∀ g, g ∉ writes i → SameIn g s t) ∧
      t.cfg = s.cfg ∧ t.moves = s.moves ∧ t.stageWord = s.stageWord ∧ t.dr = s.dr := by
  obtain ⟨u, hrun, hend⟩ := exec_answer_of_no_reset hr h
  obtain ⟨-, -, hworld⟩ := hrun.outside
  obtain ⟨e, rfl⟩ | rfl := hend
  · exact ⟨fun g hg => (hrun.same g hg).trans (by cases g <;> simp [SameIn]), hworld⟩
  · exact ⟨fun g hg => (hrun.same g hg).trans (by cases g <;> simp [SameIn]), hworld⟩

/-- The commands the rules let write a group (R15 to R28). -/
def MayWrite (i : Instr) : RegGroup → Prop
  | .sample => ∃ a b, i = .getAbs a b
  | .hover => ∃ a b, i = .getAbs a b ∨ i = .chkHover a b
  | .position => ∃ a b, i = .getAbs a b ∨ i = .clip a b ∨ i = .scale a b
  | .scaled => ∃ a b, i = .scale a b
  | .pin => ∃ a b, i = .setInd a b
  | .buffer => ∃ a b,
      i = .rapRd a b ∨ i = .eraRd a b ∨ i = .getAbs a b ∨ i = .setAtten a b ∨ i = .init a b
  | .feed => ∃ a b,
      i = .eraRd a b ∨ i = .eraWr a b ∨ i = .setAtten a b ∨ i = .tuneEdge a b ∨ i = .init a b

theorem mayWrite_of_mem_writes {i : Instr} {g : RegGroup} (h : g ∈ writes i) : MayWrite i g := by
  cases g
  all_goals cases i <;> simp [writes, MayWrite] at h ⊢

/-- Settles O56: a group that changed is one the instruction writes. -/
theorem registersChangeOnlyUnderTheirCommands : Obligations.RegistersChangeOnlyUnderTheirCommands := by
  intro i s t hr h
  obtain ⟨hsame, hworld⟩ := exec_same hr h
  have changed : ∀ g, ¬ SameIn g s t → MayWrite i g := fun g hg =>
    mayWrite_of_mem_writes (by_contra fun hmem => hg (hsame g hmem))
  refine ⟨fun hc => changed .sample ?_, fun hc => changed .hover hc, fun hc => changed .position ?_,
    fun hc => changed .scaled ?_, fun hc => changed .pin hc, fun hc => changed .buffer ?_,
    fun hc => changed .feed hc, hworld⟩
  all_goals
    simp only [SameIn]
    tauto

end Sys2Proof.Machine
end

section
/-!
PROOFS. The commands of this family that run to their end (`44_sample_pipeline.md` R125, `45_tuning_init.md`
R150, R151): what `Laws/Era.lean` says of their sequences, carried over the end of the command.
-/

namespace Sys2Proof.Machine

variable {s : State} {p : Params} {rest : List ChipReply} {t : Byte} {f : Bool}

/-! ### A command that stores what it read -/

/-- A legal command whose sequence runs over the bus to its end and then writes result registers by `g`,
which leaves `SEQ` alone: the facts of the end of a command hold of the state before `g`. -/
theorem runCommand_does_then {A : List Act} {op : SeqOp} {code : BitVec 4} {a b : Word16}
    {body : Sequence Unit} {t' : Byte} {f' : Bool} {o : Outcome} (g : State → State)
    (ho : o = runCommand op code true a b body s) (hb : s.busy = false) (hr : s.resets = []) (hA : A ≠ [])
    (hg : ∀ u q, ({ g u with seq := q } : State).endWith .none = g (u.endWith .none))
    (h : ∀ u, At s.cfg.toParams ⟨s.chip, s.tmp, s.feedSaved⟩ u → u.opb = b →
      ∃ v q, body u = .ok () { g v with seq := q } ∧ Ran u v A ∧
        At s.cfg.toParams ⟨rest, t', f'⟩ v) :
    ∃ w, o = .next (g w) ∧ Ended s w .none ∧ Latched w code a b ∧
      w.chip = rest ∧ Sent s w A ∧ w.tmp = t' ∧ w.feedSaved = f' ∧ SameBeyondBus s w ∧
      SameBuffer s w := by
  obtain ⟨v, q, hv, hran, hat⟩ := h _ (at_accept hr op code a b) rfl
  exact ⟨v.endWith .none, by rw [ho, runCommand_legal _ _ _ _ _ hb, hv, finish_ok, hg],
    endWith_facts .none hA hran hat⟩

/-! ### `GET_ABS` -/

/-- Lines 1 to 3 of `GET_ABS`: the six bytes, once the flags are cleared (R125). -/
def sampleRead : Sequence (List Byte) := do
  let d ← rapRead regAbsData 6
  atStage 2
  inner clearFlags
  atStage 3
  return d

theorem does_sampleRead {d : List Byte} {r w : ChipReply} (hlen : d.length = 6) (hr : AnswersData d r)
    (hw : Answers w) :
    Does p ⟨r :: w :: rest, t, f⟩ sampleRead d
      [Act.R p 0x12 6, Act.W p 0x02 0x00, .settle] ⟨rest, t, f⟩ := by
  have hread := does_rapRead (p := p) (rest := w :: rest) (t := t) (f := f) hr regAbsData
  rw [hlen] at hread
  exact hread.bind (Does.quiet (Does.stage 2) ((does_clearFlags hw).inner.hush
    (Does.quiet (Does.stage 3) (Does.ret d))))

theorem exec_getAbs_eq (a b : Word16) (s : State) :
    exec (.getAbs a b) s = runCommand .getAbs 0x7 true a b
      (do
        let d ← sampleRead
        modify fun t => t.storeRead d
        atStage 4
        modify fun t => t.storeSample (decodeBlock d)
        atStage 8)
      s := by
  simp only [exec, execGetAbs, sampleRead, bind_assoc, pure_bind]

/-- Settles O41. -/
theorem getAbsCompletes : Obligations.GetAbsCompletes := by
  intro a b s d r w rest hb hres hchip hlen hr hw v
  obtain ⟨u, hrun, hended, hlatched, hrest, hsent, htmp, hfeed, ⟨hworld, -, hscaled, hind⟩, hrb, -⟩ :=
    runCommand_does_then (fun u => (u.storeRead d).storeSample v) (exec_getAbs_eq a b s) hb hres
      (List.cons_ne_nil _ _) (fun _ _ => rfl) fun u hat _ => by
        obtain ⟨v, hread, hran, hat'⟩ := does_sampleRead hlen hr hw u (hchip ▸ hat)
        exact ⟨v, _, by rw [bind_run, hread]; rfl, hran, hat'⟩
  refine ⟨_, hrun, hended, hlatched, hrest, hsent, ?_, hlen, rfl, rfl, rfl, rfl, rfl, rfl, rfl, rfl, hworld,
    hscaled, hind, htmp, hfeed⟩
  simp [hrb, hlen]

/-! ### Tuning -/

/-- Settles O51. -/
theorem setAttenCompletes : Obligations.SetAttenCompletes := by
  intro a b s c1 c2 c3 rs rest hb hres hchip hreplies h1 h2 h3
  have hdata : [byteAt c3.data 0] = c3.data := by
    obtain ⟨-, -, -, -, -, hlen, -⟩ := hreplies
    obtain ⟨v, hv⟩ := List.length_eq_one_iff.1 hlen
    rw [hv]
    rfl
  obtain ⟨u, hrun, hended, hlatched, hrest, hsent, htmp, hfeed, hsame, hrb, -⟩ :=
    runCommand_does_then (A := attenActs s.cfg.toParams (lowByte b) c1 c2 c3)
      (fun u => u.storeRead [byteAt c3.data 0]) (rfl : exec (.setAtten a b) s = _) hb hres
      (by simp [attenActs, eraReadActs, beginActs]) (fun _ _ => rfl) (by
        rintro u hat rfl
        obtain ⟨v, htuned, hran, hat'⟩ :=
          attenuationTuning_run hreplies h1 h2 h3 (lowByte u.opb) (hchip ▸ hat)
        exact ⟨v, _, by simp only [bind_run, get_run, htuned]; rfl, hran, hat'⟩)
  have hstored : (u.storeRead [byteAt c3.data 0]).rb = c3.data ++ s.rb.drop 1 := by
    rw [State.storeRead_rb, hdata, hrb, ← hdata]
    rfl
  exact ⟨_, hrun, hended, hlatched, hrest, hsent, hstored, rfl, hfeed, htmp, hsame⟩

/-- Settles O52. -/
theorem tuneEdgeCompletes : Obligations.TuneEdgeCompletes := by
  intro a b s c1 c2 rs rest hb hres hchip hreplies h1 h2
  obtain ⟨t, hrun, hended, hlatched, hrest, hsent, htmp, hfeed, hsame, hbuf⟩ :=
    runCommand_does (op := .tuneEdge) (code := 0xC) (a := a) (b := b)
      (A := edgeActs s.cfg.toParams c1 c2) hb hres (by simp [edgeActs, eraWriteActs, beginActs])
      fun u hat _ _ => (does_edgeTuning hreplies h1 h2).hush (f := fun _ => atStage 3) (Does.stage 3) u
        (hchip ▸ hat)
  exact ⟨t, hrun, hended, hlatched, hrest, hsent, hfeed, htmp, hsame, hbuf⟩

end Sys2Proof.Machine
end

section
/-!
PROOFS. The port as the host sees it (`10_state.md` R22 to R25, R38; `46_host_pins.md` R167, R168), reset
between commands (R200), the end of a command (R180), and the presence predicates (R127, R128).
-/

namespace Sys2Proof.Machine

variable {s : State}

/-! ### Host reads -/

theorem hostRead_idle (h : s.busy = false) (r : HostReg) : hostRead s r = readIdle s r := by
  simp [hostRead, h]

theorem heldValue_held {held : Bool} (h : held = true) (r : HostReg) (v : Nat) :
    heldValue held r v = .ok v := by
  simp [heldValue, h]

theorem heldValue_unheld {held : Bool} (h : held = false) (r : HostReg) (v : Nat) :
    heldValue held r v = .error (.noValue r) := by
  simp [heldValue, h]

/-- `RB[i]` holds a value below `RLEN` (R22). -/
theorem hostRead_rb (h : s.busy = false) {i : Nat} (hi : i < s.rlen) :
    hostRead s (.rb i) = .ok (byteAt s.rb i).toNat :=
  (hostRead_idle h _).trans (heldValue_held (decide_eq_true hi) ..)

theorem hostRead_rb_unheld (h : s.busy = false) {i : Nat} (hi : s.rlen ≤ i) :
    hostRead s (.rb i) = .error (.noValue (.rb i)) :=
  (hostRead_idle h _).trans (heldValue_unheld (decide_eq_false (Nat.not_lt.2 hi)) ..)

theorem hostRead_latch_unheld (h : s.busy = false) (hheld : s.opsLoaded = false) {r : HostReg}
    (hr : r ∈ [HostReg.opa, .opb, .opc]) : hostRead s r = .error (.noValue r) := by
  rw [hostRead_idle h]
  simp only [List.mem_cons, List.not_mem_nil, or_false] at hr
  obtain rfl | rfl | rfl := hr <;> exact heldValue_unheld hheld ..

theorem hostRead_sample_unheld (h : s.busy = false) (hheld : s.sampleHeld = false) {r : HostReg}
    (hr : r ∈ [HostReg.x, .y, .z, .btn, .td, .idle, .hov]) : hostRead s r = .error (.noValue r) := by
  rw [hostRead_idle h]
  simp only [List.mem_cons, List.not_mem_nil, or_false] at hr
  obtain rfl | rfl | rfl | rfl | rfl | rfl | rfl := hr <;> exact heldValue_unheld hheld ..

theorem hostRead_scaled_unheld (h : s.busy = false) (hheld : s.scaledHeld = false) {r : HostReg}
    (hr : r ∈ [HostReg.ox, .oy]) : hostRead s r = .error (.noValue r) := by
  rw [hostRead_idle h]
  simp only [List.mem_cons, List.not_mem_nil, or_false] at hr
  obtain rfl | rfl := hr <;> exact heldValue_unheld hheld ..

/-- At any port `BUSY`, `DONE` and `DR` can be read, `TMP` and `SEQ` cannot (R167, R168). -/
theorem hostRead_any (s : State) :
    hostRead s .busy = .ok s.busy.toNat ∧ hostRead s .done = .ok s.done.toNat ∧
      hostRead s .dr = .ok s.dr.toNat ∧
      ∀ r, r = .tmp ∨ r = .seq → hostRead s r = .error (.notHostVisible r) := by
  cases hb : s.busy
  · refine ⟨by rw [hostRead_idle hb, ← hb]; rfl, hostRead_idle hb _, hostRead_idle hb _, ?_⟩
    rintro r (rfl | rfl) <;> exact hostRead_idle hb _
  · simp [hostRead, hb]

theorem hostRead_busy (h : s.busy = true) {r : HostReg}
    (hr : r ∉ [HostReg.busy, .done, .dr, .tmp, .seq]) : hostRead s r = .error .engineBusy := by
  cases r <;> simp [hostRead, h] at hr ⊢

/-- Settles O13. -/
theorem hostReadsFollowTheRules : Obligations.HostReadsFollowTheRules := by
  intro s
  obtain ⟨hbusy, hdone, hdr, hhidden⟩ := hostRead_any s
  refine ⟨fun h => ?_, hbusy, hdone, hdr, hhidden, fun h r => hostRead_busy h⟩
  have idle : ∀ r, hostRead s r = readIdle s r := hostRead_idle h
  have held : ∀ {flag : Bool} {r : HostReg} {v : Nat}, flag = true →
      readIdle s r = heldValue flag r v → hostRead s r = .ok v := fun hflag hread =>
    (idle _).trans (hread.trans (heldValue_held hflag ..))
  exact ⟨fun i => hostRead_rb h, fun i => hostRead_rb_unheld h, idle _, idle _, idle _, idle _,
    fun ho => ⟨held ho rfl, held ho rfl, held ho rfl⟩, fun ho r => hostRead_latch_unheld h ho,
    fun hs => ⟨held hs rfl, held hs rfl, held hs rfl, held hs rfl, held hs rfl, held hs rfl, held hs rfl⟩,
    fun hs r => hostRead_sample_unheld h hs, fun hx => ⟨held hx rfl, held hx rfl⟩,
    fun hx r => hostRead_scaled_unheld h hx⟩

/-- Settles O9. -/
theorem resetValuesAndUnheldRegisters : Obligations.ResetValuesAndUnheldRegisters := by
  intro c s
  refine ⟨rfl, rfl, rfl, rfl, rfl, rfl, rfl, rfl, rfl, rfl, rfl, rfl, List.length_replicate, ?_,
    fun i => hostRead_rb_unheld rfl (Nat.zero_le i)⟩
  intro r hr
  have hgroup : r ∈ [HostReg.opa, .opb, .opc] ∨ r ∈ [HostReg.x, .y, .z, .btn, .td, .idle, .hov] ∨
      r ∈ [HostReg.ox, .oy] := by
    revert hr
    cases r <;> simp
  obtain hlatch | hsample | hscaled := hgroup
  · exact hostRead_latch_unheld rfl rfl hlatch
  · exact hostRead_sample_unheld rfl rfl hsample
  · exact hostRead_scaled_unheld rfl rfl hscaled

/-! ### Moves of the host that are no command -/

theorem step_readReg {r : HostReg} {rest : List Move} (hstage : s.stageWord = none)
    (hmoves : s.moves = .readReg r :: rest) : step s = stepRead r { s with moves := rest } := by
  simp only [step, hstage, hmoves]

theorem step_reset {rest : List Move} (hstage : s.stageWord = none) (hmoves : s.moves = .reset :: rest) :
    step s = .next (State.sampleDr (State.resetEngine { s with moves := rest })) := by
  simp only [step, hstage, hmoves]

/-- Settles O14: the read does not see the move it is made by. -/
theorem hostReadMoveChangesNothing : Obligations.HostReadMoveChangesNothing := by
  intro s r rest hstage hmoves
  have hread : hostRead { s with moves := rest } r = hostRead s r := by cases r <;> rfl
  rw [step_readReg hstage hmoves, stepRead, hread]
  exact ⟨fun v hv => by rw [hv]; rfl, fun f hf => by rw [hf]⟩

/-- Settles O10. -/
theorem resetMoveGivesResetState : Obligations.ResetMoveGivesResetState := by
  intro s rest hstage hmoves
  rw [step_reset hstage hmoves]
  simp [State.sampleDr, State.resetEngine, State.resetWith, hstage]

/-! ### The end of a command and the presence predicates -/

/-- Settles O16. -/
theorem endingACommandWritesTheStatus : Obligations.EndingACommandWritesTheStatus := fun s e =>
  ⟨rfl, logError_bit s.errlog e, rfl, rfl, rfl, rfl, rfl⟩

/-- Settles O29. -/
theorem presencePredicatesDiffer : Obligations.PresencePredicatesDiffer := by
  intro x y z
  refine ⟨touchDown_iff x, isIdle_iff x y z, touchDown_eq_false_of_isIdle, fun htouch hidle => ?_⟩
  have hx : x = 0 := not_not.1 fun hne => by simp [(touchDown_iff x).2 hne] at htouch
  refine ⟨hx, not_and_or.1 fun hyz => ?_⟩
  simp [(isIdle_iff x y z).2 ⟨hx, hyz⟩] at hidle

end Sys2Proof.Machine
end

section
/-!
PROOFS. The bytes a sequence assembles for the wire (`30_encoding.md` R67, `43_feed_flags.md` R116,
`45_tuning_init.md` R150), and two short sequences that run over the bus: the flag clear with its settle
delay (R115), and the poll of 0x1E run by itself (`42_era.md` R104).
-/

namespace Sys2Proof.Machine

/-! ### The bytes assembled for the wire -/

theorem config_feedEnMask_ne_zero (c : Config) : c.feedEnMask ≠ 0 := by
  obtain ⟨-, ⟨hne, -⟩, -⟩ := c.wf
  exact hne

/-- The bits outside the enable mask are kept (R67). -/
theorem feedByte_keeps (p : Params) (e : Bool) (old : Byte) :
    feedByte p e old &&& ~~~p.feedEnMask = old &&& ~~~p.feedEnMask := by
  cases e with
  | true =>
    calc (old ||| p.feedEnMask) &&& ~~~p.feedEnMask
        = (old &&& ~~~p.feedEnMask) ||| (p.feedEnMask &&& ~~~p.feedEnMask) := BitVec.and_or_distrib_right
      _ = old &&& ~~~p.feedEnMask := by simp
  | false =>
    calc (old &&& ~~~p.feedEnMask) &&& ~~~p.feedEnMask
        = old &&& (~~~p.feedEnMask &&& ~~~p.feedEnMask) := BitVec.and_assoc ..
      _ = old &&& ~~~p.feedEnMask := by rw [BitVec.and_self]

/-- The enable bit is as asked, under a mask that has one (R116). -/
theorem feedBit_feedByte {p : Params} (hmask : p.feedEnMask ≠ 0) (e : Bool) (old : Byte) :
    feedBit p (feedByte p e old) = e := by
  cases e with
  | true =>
    have hset : (old ||| p.feedEnMask) &&& p.feedEnMask = p.feedEnMask := by
      ext k
      rw [BitVec.getElem_and, BitVec.getElem_or]
      cases p.feedEnMask[k] <;> simp
    exact decide_eq_true (hset.symm ▸ hmask : (old ||| p.feedEnMask) &&& p.feedEnMask ≠ 0)
  | false =>
    have hclear : (old &&& ~~~p.feedEnMask) &&& p.feedEnMask = 0 := by
      ext k
      simp
    exact decide_eq_false (not_not.2 hclear)

/-- Bit `k` of the mask 0x3F of R150. -/
theorem attenMask_bit (k : Fin 8) : (0x3F : Byte).getLsbD k = decide (k.val < 6) := by
  revert k
  decide

/-- A bit of the attenuation byte: the gain's, or below bit 6 the old byte's (R150). -/
theorem attenByte_bit (old gain : Byte) (k : Fin 8) :
    (attenByte old gain).getLsbD k = ((decide (k.val < 6) && old.getLsbD k) || gain.getLsbD k) := by
  rw [attenByte, BitVec.getLsbD_or, BitVec.getLsbD_and, attenMask_bit, Bool.and_comm]

/-- Settles O32. -/
theorem assembledBytesKeepOtherBits : Obligations.AssembledBytesKeepOtherBits := fun c old gain eaddr =>
  ⟨fun e => ⟨feedByte_keeps c.toParams e old, feedBit_feedByte (config_feedEnMask_ne_zero c) e old⟩,
    attenByte_bit old gain, addrHigh_append_addrLow eaddr⟩

/-! ### `CLR_FLAGS` -/

/-- Settles O37: the command is `ClearFlags()` and nothing more. -/
theorem clrFlagsCompletes : Obligations.ClrFlagsCompletes := by
  intro a b s r rest hbusy hresets hchip hanswers
  obtain ⟨t, hrun, hended, hlatched, hrest, hsent, htmp, hfeed, hbeyond, hbuffer⟩ :=
    runCommand_does (op := .clrFlags) (code := 0x5) (a := a) (b := b) (A := clearActs s.cfg.toParams)
      hbusy hresets (List.cons_ne_nil _ _)
      fun u hat _ _ => does_clearFlags hanswers u (hchip ▸ hat)
  exact ⟨t, hrun, hended, hlatched, hrest, hsent, hbeyond, hbuffer, htmp, hfeed⟩

/-! ### The completion code run by itself -/

/-- A poll of at least one read is seen on the bus. -/
theorem pollActs_ne_nil (p : Params) {k : Nat} (h : 1 ≤ k) : pollActs p k ≠ [] := by
  simp only [pollActs, ne_eq, List.replicate_eq_nil_iff]
  omega

theorem PollReplies.one_le {k : Nat} {rs : List ChipReply} (h : PollReplies k rs) : 1 ≤ k := by
  obtain ⟨busy, last, -, rfl, -⟩ := h
  exact Nat.le_add_left ..

theorem BusyReplies.one_le {n : Nat} {last : Byte} {rs : List ChipReply}
    (h : BusyReplies n last rs) : 1 ≤ n := by
  obtain ⟨before, r, rfl, rfl, -⟩ := h
  simp

/-- The completion code run by itself is `Poll()` (R65, log 15). -/
theorem exec_eraCodeDone (s : State) : exec .eraCodeDone s = runStage poll s := rfl

/-- Settles O50: `Poll()` either finds 0x00 within its bound or uses the bound up. -/
theorem eraDoneCodePolls : Obligations.EraDoneCodePolls := by
  intro s rs rest hbusy hresets hchip
  rw [exec_eraCodeDone]
  constructor
  · intro k hreplies hbound
    exact runStage_does hbusy hresets (pollActs_ne_nil _ hreplies.one_le)
      (hchip ▸ does_poll hreplies hbound)
  · intro last hreplies
    obtain ⟨t, hrun, hsent, ht⟩ := runStage_breaks hbusy hresets (pollActs_ne_nil _ hreplies.one_le)
      (hchip ▸ breaks_poll hreplies)
    refine ⟨t, hrun, ?_, hsent, ?_⟩
    · rw [ht]
      exact ⟨rfl, rfl, rfl, rfl, rfl⟩
    · rw [ht]
      simp [SameLatches, SameBeyondBus, SameWorld, SameSample, SameScaled, SameBuffer]

end Sys2Proof.Machine
end

section
/-!
PROOFS. Decoding and encoding (`30_encoding.md` R61 to R63, R65, R70): what the decoder reads from a command
word and from a frame, each said once, and that it undoes the encoder on every well-formed instruction.
-/

namespace Sys2Proof

/-! ### Command words -/

/-- The encoder undoes the decoder on every command word: the sixteen values of `op` (R70). -/
theorem encode_decodeCommand_packCommand (p : Params) (op : BitVec 4) (a b : Word16) :
    encode p (decodeCommand (packCommand op a b)) = .command (packCommand op a b) := by
  simp only [decodeCommand, commandOp_packCommand, commandA_packCommand, commandB_packCommand]
  obtain ⟨n⟩ := op
  fin_cases n <;> rfl

theorem encode_decodeCommand (p : Params) (cw : CommandWord) :
    encode p (decodeCommand cw) = .command cw := by
  have h := encode_decodeCommand_packCommand p (commandOp cw) (commandA cw) (commandB cw)
  rwa [packCommand_fields] at h

/-- The decoder undoes the encoder on every instruction that is encoded as a command word (R70). -/
theorem decodeCommand_of_encode {p : Params} {i : Instr} {cw : CommandWord}
    (h : encode p i = .command cw) : decodeCommand cw = i := by
  cases i <;> cases h
  all_goals
    simp only [decodeCommand, commandOp_packCommand, commandA_packCommand, commandB_packCommand]
    rfl

/-- Settles O2: the decoder and the encoder undo each other on command words. -/
theorem everyCommandWordHasOneReading : Obligations.EveryCommandWordHasOneReading := fun p cw =>
  ⟨decodeCommand cw, rfl, encode_decodeCommand p cw, fun _ h => (decodeCommand_of_encode h).symm⟩

/-! ### Command bytes -/

/-- The two masks are clear of the address bits, and differ (R63). -/
theorem config_masks (c : Config) :
    c.readMask &&& 0x1F = 0 ∧ c.writeMask &&& 0x1F = 0 ∧ c.readMask ≠ c.writeMask := c.wf.1

@[simp] theorem maskPart_commandByte_read (c : Config) (a : RegAddr) :
    maskPart (commandByte c.readMask a) = c.readMask :=
  (commandByte_parts _ a (config_masks c).1).1

@[simp] theorem maskPart_commandByte_write (c : Config) (a : RegAddr) :
    maskPart (commandByte c.writeMask a) = c.writeMask :=
  (commandByte_parts _ a (config_masks c).2.1).1

@[simp] theorem addressPart_commandByte_read (c : Config) (a : RegAddr) :
    addressPart (commandByte c.readMask a) = a :=
  (commandByte_parts _ a (config_masks c).1).2.1

@[simp] theorem addressPart_commandByte_write (c : Config) (a : RegAddr) :
    addressPart (commandByte c.writeMask a) = a :=
  (commandByte_parts _ a (config_masks c).2.1).2.1

/-- Settles O4: a read and a write command byte differ in their mask part. -/
theorem commandByteIsMaskThenAddress : Obligations.CommandByteIsMaskThenAddress := by
  intro c a b
  obtain ⟨hread, hwrite, hne⟩ := config_masks c
  refine ⟨?_, fun heq => hne ?_, ?_, ?_⟩
  · intro mask hmask
    have hclear : mask &&& 0x1F = 0 := by obtain rfl | rfl := hmask <;> assumption
    obtain ⟨-, haddr, hbits⟩ := commandByte_parts mask a hclear
    exact ⟨rfl, haddr, hbits⟩
  · simpa using congrArg maskPart heq
  · revert a
    decide
  · revert a
    decide

/-! ### Frames -/

/-- A read frame: the read command byte, two bytes, and at most `MAX_COUNT` more (R61). -/
theorem decodeFrame_read (c : Config) {a : RegAddr} {n : Nat} {bs : List Byte}
    (hhead : bs.head? = some (commandByte c.readMask a)) (hlen : bs.length = 3 + n)
    (hn : n ≤ c.maxCount) : decodeFrame c.toParams bs = .ok (.frameRapRead a n) := by
  obtain ⟨rest, rfl⟩ := List.head?_eq_some_iff.1 hhead
  have hrest : rest.length = n + 2 := by rw [List.length_cons] at hlen; omega
  simp [decodeFrame, hrest, Nat.not_lt.2 hn]

/-- A write frame: the write command byte and one value (R62). -/
theorem decodeFrame_write (c : Config) (a : RegAddr) (v : Byte) :
    decodeFrame c.toParams [commandByte c.writeMask a, v] = .ok (.frameRapWrite a v) := by
  simp [decodeFrame, (config_masks c).2.2.symm]

/-- Everything a byte list can decode as: a read frame or a write frame (R61 to R63, R68). -/
theorem decodeFrame_cases {p : Params} {bs : List Byte} {i : Instr} (h : decodeFrame p bs = .ok i) :
    (∃ a n, i = .frameRapRead a n ∧ n ≤ p.maxCount ∧ bs.length = 3 + n ∧
      bs.head? = some (commandByte p.readMask a)) ∨
    ∃ a v, i = .frameRapWrite a v ∧ bs = [commandByte p.writeMask a, v] := by
  match bs with
  | [] => cases h
  | cmd :: rest =>
    have hcmd := commandByte_of_parts cmd
    simp only [decodeFrame] at h
    split at h
    · rename_i hmask
      rw [hmask] at hcmd
      split at h
      · cases h
      · split at h
        · cases h
        · cases h
          exact .inl ⟨_, _, rfl, by omega, by rw [List.length_cons]; omega, congrArg some hcmd.symm⟩
    · split at h
      · rename_i hmask
        rw [hmask] at hcmd
        split at h
        · cases h
          exact .inr ⟨_, _, rfl, by rw [hcmd]⟩
        · cases h
      · cases h

/-- Settles O3: `decodeFrame_cases` one way, the two forms the other. -/
theorem framesDecodeExactly : Obligations.FramesDecodeExactly := by
  intro c bs
  refine ⟨fun a n => ⟨fun h => ?_, ?_⟩, fun a v => ⟨fun h => ?_, ?_⟩, fun i h => ?_⟩
  · obtain ⟨_, _, heq, hform⟩ | ⟨_, _, heq, -⟩ := decodeFrame_cases h <;> cases heq
    exact hform
  · rintro ⟨hn, hlen, hhead⟩
    exact decodeFrame_read c hhead hlen hn
  · obtain ⟨_, _, heq, -⟩ | ⟨_, _, heq, hform⟩ := decodeFrame_cases h <;> cases heq
    exact hform
  · rintro rfl
    exact decodeFrame_write c a v
  · obtain ⟨a, n, heq, -⟩ | ⟨a, v, heq, -⟩ := decodeFrame_cases h
    · exact .inl ⟨a, n, heq⟩
    · exact .inr ⟨a, v, heq⟩

/-! ### Every form -/

/-- Settles O1: a command word by its three fields, a frame by its mask and length, a code by its value. -/
theorem decodeEncodeAgree : Obligations.DecodeEncodeAgree := by
  intro c i hwf
  cases i
  case frameRapRead a n =>
    have hlen := Machine.readFrame_length c.toParams a n
    exact decodeFrame_read c rfl (hlen.trans (Nat.add_comm n 3)) (of_decide_eq_true hwf)
  case frameRapWrite a v => exact decodeFrame_write c a v
  case eraCodeWrite => rfl
  case eraCodeRead => rfl
  case eraCodeDone => rfl
  all_goals exact congrArg Except.ok (decodeCommand_of_encode (p := c.toParams) rfl)

/-- Settles O5: each word is the encoding of the instruction it stands for. -/
theorem specWordsDecode : Obligations.SpecWordsDecode := by
  have reads : ∀ i : Instr, i.wellFormed Params.p0 = true →
      decode Params.p0 (encode Params.p0 i) = .ok i := decodeEncodeAgree Config.p0
  exact ⟨reads (.eraWr 0x0187 0x00AB) rfl, reads (.rapRd 0xFF84 0x0001) rfl,
    reads (.scale 0x0400 0x0300) rfl, reads (.setFeed 0 1) rfl, reads (.reservedF 0 0) rfl,
    reads (.frameRapRead 0x04 1) rfl, reads (.frameRapWrite 0x02 0x00) rfl, reads .eraCodeWrite rfl,
    reads .eraCodeRead rfl, reads .eraCodeDone rfl⟩

end Sys2Proof
end

section
/-!
PROOFS. One step (`30_encoding.md` R69, R168): which word it runs and what becomes of the answer; and the
port that takes no command while it is busy (R69, U7).
-/

namespace Sys2Proof.Machine

variable {s t : State} {i : Instr}

/-! ### The word a step runs -/

theorem runWord_of_decode {word : Encoded} (h : decode s.cfg.toParams word = .ok i) :
    runWord word s = afterMeaning (exec i s) := by
  simp only [runWord, h]

theorem runWord_of_decode_error {word : Encoded} {e : DecodeError}
    (h : decode s.cfg.toParams word = .error e) : runWord word s = .refused (.undecodable e) := by
  simp only [runWord, h]

theorem step_command {cw : CommandWord} {rest : List Move} (hstage : s.stageWord = none)
    (hmoves : s.moves = .command cw :: rest) :
    step s = runWord (.command cw) { s with moves := rest } := by
  simp only [step, hstage, hmoves]

theorem step_stageWord {w : WireWord} (h : s.stageWord = some w) :
    step s = runWord w.encoded { s with stageWord := none } := by
  simp only [step, h]

/-- Settles O6. -/
theorem stepRunsTheDecodedInstruction : Obligations.StepRunsTheDecodedInstruction := by
  intro s ran
  have hran : ∀ o : Outcome, afterMeaning o = ran o := fun o => by cases o <;> rfl
  refine ⟨fun cw rest i hstage hmoves hdec => ?_, fun w i hstage hdec => ?_, fun w e hstage hdec => ?_⟩
  · calc step s = runWord (.command cw) { s with moves := rest } := step_command hstage hmoves
      _ = afterMeaning (exec i { s with moves := rest }) :=
          runWord_of_decode (s := { s with moves := rest }) hdec
      _ = _ := hran _
  · calc step s = runWord w.encoded { s with stageWord := none } := step_stageWord hstage
      _ = afterMeaning (exec i { s with stageWord := none }) :=
          runWord_of_decode (s := { s with stageWord := none }) hdec
      _ = _ := hran _
  · calc step s = runWord w.encoded { s with stageWord := none } := step_stageWord hstage
      _ = _ := runWord_of_decode_error hdec

/-- The step after a word is placed runs that word, on the state with no wire word set to run. -/
theorem step_placeWord (s : State) (nbits w : Nat) :
    step (placeWord s nbits w) =
      runWord (encodedOfTableWord s.cfg.toParams nbits w) { s with stageWord := none } := by
  unfold placeWord
  match encodedOfTableWord s.cfg.toParams nbits w with
  | .command cw => exact step_command rfl rfl
  | .frame bytes => exact step_stageWord (w := .frame bytes) rfl
  | .eraCode code => exact step_stageWord (w := .eraCode code) rfl

theorem decode_of_decodeTableWord {nbits w : Nat} (h : decodeTableWord nbits w = some i) :
    decode Params.p0 (encodedOfTableWord Params.p0 nbits w) = .ok i := by
  unfold decodeTableWord at h
  split at h
  · rename_i heq
    cases h
    exact heq
  · cases h

/-- Settles O7. -/
theorem fetchWordRunsNext : Obligations.FetchWordRunsNext := by
  intro s nbits w i hp0 hword t hexec
  have hdec : decode s.cfg.toParams (encodedOfTableWord s.cfg.toParams nbits w) = .ok i := by
    rw [hp0]
    exact decode_of_decodeTableWord hword
  calc step (placeWord s nbits w)
      = afterMeaning (exec i { s with stageWord := none }) :=
        (step_placeWord s nbits w).trans (runWord_of_decode hdec)
    _ = .next t.sampleDr := by rw [hexec, afterMeaning]

/-! ### The busy port -/

theorem runCommand_busy (op : SeqOp) (code : BitVec 4) (legal : Bool) (a b : Word16)
    (body : Sequence Unit) (h : s.busy = true) :
    runCommand op code legal a b body s = .fault .engineBusy := by
  simp [runCommand, h]

theorem runStage_busy (body : Sequence Unit) (h : s.busy = true) :
    runStage body s = .fault .engineBusy := by
  simp [runStage, h]

/-- Settles O15: every meaning is a command or a stage run by itself. -/
theorem busyPortTakesNoCommand : Obligations.BusyPortTakesNoCommand := by
  intro i s h
  cases i
  case frameRapRead | frameRapWrite | eraCodeWrite | eraCodeRead | eraCodeDone =>
    exact runStage_busy _ h
  all_goals exact runCommand_busy _ _ _ _ _ _ h

/-! ### Commands that end at once -/

/-- Settles O20. -/
theorem nopCompletes : Obligations.NopCompletes := by
  intro a b s hbusy
  calc exec (.nop a b) s
      = .next ((s.accept .nop 0x0 a b).endWith .none) := runCommand_legal _ _ _ _ _ hbusy
    _ = _ := by simp only [State.accept, State.endWith, logError, hbusy]

/-- What a refused command leaves of an idle port: the status, and nothing else (R72, R179). -/
theorem endWith_illegal_of_idle (h : s.busy = false) :
    s.endWith .illegalCommand = { s with
      err := .illegalCommand, errlog := s.errlog ||| 0b10000, done := true, seq := Sequencer.idle } := by
  simp only [State.endWith, logError, h]

/-- Settles O22. -/
theorem reservedOpEndsIllegal : Obligations.ReservedOpEndsIllegal := by
  intro a b s hbusy
  rw [← endWith_illegal_of_idle hbusy]
  exact runCommand_illegal _ _ _ _ _ hbusy

/-- A command whose operand check fails is refused (R72). -/
theorem runCommand_refused {op : SeqOp} {code : BitVec 4} {legal : Bool} {a b : Word16}
    {body : Sequence Unit} (hbusy : s.busy = false) (hlegal : legal = false) :
    runCommand op code legal a b body s = .next (s.endWith .illegalCommand) :=
  hlegal ▸ runCommand_illegal op code a b body hbusy

theorem addressLegal_eq_false (c : Config) {a : Word16} (h : 0x1F < a.toNat % 128) :
    addressLegal c.toParams a = false := by
  rw [addressLegal_eq]
  exact decide_eq_false (Nat.not_le.2 h)

theorem countLegal_eq_false (c : Config) {b : Word16} (h : c.maxCount < b.toNat % 256) :
    countLegal c.toParams b = false := by
  rw [countLegal, countOf_eq]
  exact decide_eq_false (Nat.not_le.2 h)

/-- Settles O23. -/
theorem illegalOperandsAreRefused : Obligations.IllegalOperandsAreRefused := by
  intro a b s t hbusy ht
  rw [ht, ← endWith_illegal_of_idle hbusy]
  refine ⟨fun haddr => ?_, fun hcount => ?_⟩
  · have hillegal := addressLegal_eq_false s.cfg haddr
    exact ⟨runCommand_refused hbusy (by rw [hillegal, Bool.false_and]), runCommand_refused hbusy hillegal⟩
  · have hillegal := countLegal_eq_false s.cfg hcount
    exact ⟨runCommand_refused hbusy (by rw [hillegal, Bool.and_false]), runCommand_refused hbusy hillegal⟩

end Sys2Proof.Machine
end

section
/-!
PROOFS. How a host command ends when no reset is due (`60_exceptions.md` R175, R180): its sequence gives no
reset, touches neither `ERR` nor `ERRLOG`, and raises only the kinds R175 gives the command.
-/

namespace Sys2Proof.Machine

variable {α β : Type} {s t u : State}

/-! ### Sequences that end, with an error of `E` if with one -/

/-- No reset is due, and the status a command's end writes over is that of `s` (R180). -/
def Undisturbed (s u : State) : Prop := u.resets = [] ∧ u.err = s.err ∧ u.errlog = s.errlog

/-- With no reset due, `m` runs to its end or raises an error of `E`, and leaves `ERR` and `ERRLOG` to the
end of the command. -/
def Ends (E : ErrKind → Prop) (m : Sequence α) : Prop :=
  ∀ s, s.resets = [] →
    match m s with
    | .ok _ u => Undisturbed s u
    | .error (.raised e) u => E e ∧ Undisturbed s u
    | .error .reset _ => False

namespace Ends

variable {E E' : ErrKind → Prop}

theorem bind {m : Sequence α} {f : α → Sequence β} (hm : Ends E m) (hf : ∀ a, Ends E (f a)) :
    Ends E (m >>= f) := by
  intro s hs
  have h1 := hm s hs
  rw [bind_run]
  match hms : m s with
  | .error (.raised e) u => simpa only [hms] using h1
  | .error .reset u => simp only [hms] at h1
  | .ok a u =>
    simp only [hms] at h1
    obtain ⟨hu, herr, hlog⟩ := h1
    have h2 := hf a u hu
    match hfa : f a u with
    | .ok b v => simpa only [hfa, Undisturbed, herr, hlog] using h2
    | .error (.raised e) v => simpa only [hfa, Undisturbed, herr, hlog] using h2
    | .error .reset v => simp only [hfa] at h2

theorem ret (a : α) : Ends E (pure a) := fun _ hs => ⟨hs, rfl, rfl⟩

theorem raise {e : ErrKind} (he : E e) : Ends E (Machine.raise e : Sequence α) :=
  fun _ hs => ⟨he, hs, rfl, rfl⟩

/-- A write of other registers, which the default argument sees. -/
theorem write {f : State → State}
    (hf : ∀ s, s.resets = [] → Undisturbed s (f s) := by exact fun _ hs => ⟨hs, rfl, rfl⟩) :
    Ends E (modify f) := hf

theorem read {f : State → Sequence β} (hf : ∀ s, Ends E (f s)) : Ends E (get >>= f) :=
  bind (fun _ hs => ⟨hs, rfl, rfl⟩) hf

theorem seq (f : State → Sequencer) : Ends E (modify fun s => { s with seq := f s }) :=
  write

theorem tmp (v : Byte) : Ends E (setTmp v) := write

theorem stage (line : Nat) {part : Nat} : Ends E (atStage line part) := seq _

theorem idx (n : Nat) : Ends E (setIdx n) := seq _

theorem inner {m : Sequence α} (h : Ends E m) : Ends E (inner m) := by
  unfold Machine.inner
  exact (seq fun s => s.seq.push).bind fun _ => h.bind fun a =>
    (seq fun s => s.seq.pop).bind fun _ => ret a

theorem emit (e : BusEvent) : Ends E (emit e) := by
  intro s hs
  simp [Machine.emit, hs, Undisturbed]

theorem mono {m : Sequence α} (h : Ends E m) (hE : ∀ e, E e → E' e) : Ends E' m := by
  intro s hs
  have hm := h s hs
  match hms : m s with
  | .ok a u => simpa only [hms] using hm
  | .error (.raised e) u =>
    simp only [hms] at hm ⊢
    exact ⟨hE e hm.1, hm.2⟩
  | .error .reset u => simp only [hms] at hm

/-- A bus procedure, by what it keeps whatever the chip answers. -/
theorem of_within {m : Sequence α} {n : State → Nat} (h : ∀ s, Within (n s) E m s) : Ends E m := by
  intro s hs
  have hm := h s
  have kept : ∀ {u}, Moved (n s) s u → Undisturbed s u := fun hu => by
    obtain ⟨herr, hlog, -⟩ := (hu.run (W := [.feed]) (by simp)).outside
    exact ⟨List.length_eq_zero_iff.1 (by rw [hu.2.1, hs, List.length_nil]), herr, hlog⟩
  unfold Within at hm
  match hms : m s with
  | .ok a u => simp only [hms] at hm; exact kept hm
  | .error (.raised e) u => simp only [hms] at hm; exact ⟨hm.1, kept hm.2⟩
  | .error .reset u =>
    simp only [hms] at hm
    obtain ⟨-, hlt, -⟩ := hm
    simp [hs] at hlt

end Ends

/-! ### The procedures -/

theorem ends_rapRead (a : RegAddr) (n : Nat) : Ends OnlyBus (rapRead a n) :=
  .of_within fun _ => within_rapRead a n

theorem ends_rapWrite (a : RegAddr) (v : Byte) : Ends OnlyBus (rapWrite a v) :=
  .of_within fun _ => within_rapWrite a v

theorem ends_clearFlags : Ends OnlyBus clearFlags := .of_within fun _ => within_clearFlags

theorem ends_baseWrites : ∀ (l : List (RegAddr × Byte)) (j : Nat), Ends OnlyBus (baseWrites l j)
  | [], _ => .ret ()
  | (a, v) :: l, j => (Ends.idx j).bind fun _ => (ends_rapWrite a v).bind fun _ => ends_baseWrites l (j + 1)

theorem ends_eraRead (eaddr : Word16) (n : Nat) : Ends BusOrTimeout (eraRead eaddr n) :=
  .of_within fun _ => within_eraRead eaddr n

theorem ends_eraWrite (eaddr : Word16) (v : Byte) : Ends BusOrTimeout (eraWrite eaddr v) :=
  .of_within fun _ => within_eraWrite eaddr v

theorem ends_attenuationTuning (gain : Byte) : Ends BusOrTimeout (attenuationTuning gain) :=
  .read fun _ => (ends_eraRead _ 1).inner.bind fun _ => (Ends.tmp _).bind fun _ =>
    (Ends.stage 2).bind fun _ => (Ends.stage 3).bind fun _ => (ends_eraWrite _ _).inner.bind fun _ =>
    (Ends.stage 4).bind fun _ => (ends_eraRead _ 1).inner.bind fun _ => (Ends.stage 5).bind fun _ => .write

theorem ends_edgeTuning : Ends BusOrTimeout edgeTuning :=
  .read fun _ => (ends_eraWrite _ _).inner.bind fun _ => (Ends.stage 2).bind fun _ =>
    (ends_eraWrite _ _).inner

/-! ### The host commands -/

/-- At a free port with no reset due, `o` is a next state in which the command has ended with a kind of
`K` (R175, R180). -/
def EndsWith (K : List ErrKind) (s : State) (o : Outcome) : Prop :=
  s.busy = false → s.resets = [] → ∃ t, o = .next t ∧ Ended s t t.err ∧ t.err ∈ K ∧ t.resets = []

theorem Undisturbed.endWith (h : Undisturbed s u) (e : ErrKind) :
    Ended s (u.endWith e) e ∧ (u.endWith e).resets = [] := by
  obtain ⟨hresets, -, hlog⟩ := h
  exact ⟨⟨rfl, by rw [State.endWith_errlog, hlog], rfl, rfl, rfl⟩, hresets⟩

/-- A command ends with `None`, with a kind its sequence raises, or with `IllegalCommand` where its
operands are illegal. -/
theorem runCommand_ends {E : ErrKind → Prop} {K : List ErrKind} {op : SeqOp} {code : BitVec 4}
    {legal : Bool} {a b : Word16} {body : Sequence Unit} (hbody : Ends E body)
    (hlegal : legal = true → .none ∈ K ∧ ∀ e, E e → e ∈ K)
    (hillegal : legal = false → .illegalCommand ∈ K) :
    EndsWith K s (runCommand op code legal a b body s) := by
  intro hbusy hresets
  cases legal with
  | false =>
    have hend : Undisturbed s s := ⟨hresets, rfl, rfl⟩
    exact ⟨_, runCommand_illegal _ _ _ _ _ hbusy, (hend.endWith _).1, hillegal rfl, hresets⟩
  | true =>
    obtain ⟨hnone, hkinds⟩ := hlegal rfl
    have hrun := hbody (s.accept op code a b) hresets
    rw [runCommand_legal _ _ _ _ _ hbusy]
    match hres : body (s.accept op code a b) with
    | .ok _ u =>
      simp only [hres] at hrun
      obtain ⟨hended, hu⟩ := Undisturbed.endWith (s := s) hrun .none
      exact ⟨_, rfl, hended, hnone, hu⟩
    | .error (.raised e) u =>
      simp only [hres] at hrun
      obtain ⟨he, hsame⟩ := hrun
      obtain ⟨hended, hu⟩ := Undisturbed.endWith (s := s) hsame e
      exact ⟨_, rfl, hended, hkinds e he, hu⟩
    | .error .reset u => simp only [hres] at hrun

/-- The kinds of a command whose sequence raises nothing. -/
def NoError (_ : ErrKind) : Prop := False

/-- Every host command ends with one of the kinds R175 gives it, whatever the chip does. -/
theorem exec_ends {i : Instr} (hi : isHostCommand i = true) (s : State) :
    EndsWith (possibleErrors i) s (exec i s) := by
  cases i with
  | nop a b =>
    exact runCommand_ends (E := NoError) (.ret ()) (by simp [possibleErrors, NoError]) nofun
  | rapRd a b =>
    refine runCommand_ends (E := OnlyBus) ?_ (by simp [possibleErrors, OnlyBus]) (by simp [possibleErrors])
    exact .read fun _ => (ends_rapRead _ _).bind fun _ => (Ends.stage 2).bind fun _ =>
      Ends.bind .write fun _ => .stage 4
  | rapWr a b =>
    refine runCommand_ends (E := OnlyBus) ?_ (by simp [possibleErrors, OnlyBus]) (by simp [possibleErrors])
    exact .read fun _ => (ends_rapWrite _ _).bind fun _ => .stage 2
  | eraRd a b =>
    refine runCommand_ends (E := BusOrTimeout) ?_ (by simp [possibleErrors, BusOrTimeout])
      (by simp [possibleErrors])
    exact .read fun _ => (ends_eraRead _ _).inner.bind fun _ => (Ends.stage 2).bind fun _ =>
      Ends.bind .write fun _ => .stage 4
  | eraWr a b =>
    refine runCommand_ends (E := BusOrTimeout) ?_ (by simp [possibleErrors, BusOrTimeout]) nofun
    exact .read fun _ => (ends_eraWrite _ _).inner.bind fun _ => .stage 2
  | clrFlags a b =>
    exact runCommand_ends ends_clearFlags (by simp [possibleErrors, OnlyBus]) nofun
  | setFeed a b =>
    refine runCommand_ends (E := OnlyBus) ?_ (by simp [possibleErrors, OnlyBus]) nofun
    exact .read fun _ => .of_within fun _ => within_setFeed _
  | getAbs a b =>
    refine runCommand_ends (E := OnlyBus) ?_ (by simp [possibleErrors, OnlyBus]) nofun
    exact (ends_rapRead _ _).bind fun _ => (Ends.stage 2).bind fun _ => ends_clearFlags.inner.bind fun _ =>
      (Ends.stage 3).bind fun _ => Ends.bind .write fun _ => (Ends.stage 4).bind fun _ =>
      Ends.bind .write fun _ => .stage 8
  | clip a b =>
    exact runCommand_ends (E := NoError) .write (by simp [possibleErrors, NoError]) nofun
  | scale a b =>
    refine runCommand_ends (E := NoError) ?_ (by simp [possibleErrors, NoError]) nofun
    exact Ends.bind .write fun _ => (Ends.stage 2).bind fun _ => Ends.bind .write fun _ => .stage 5
  | chkHover a b =>
    refine runCommand_ends (E := (· = .outOfRange)) ?_ (by simp [possibleErrors]) nofun
    refine .read fun _ => (Ends.stage 2).bind fun _ => ?_
    split
    · exact .raise rfl
    · exact Ends.bind .write fun _ => .stage 5
  | setAtten a b =>
    refine runCommand_ends (E := BusOrTimeout) ?_ (by simp [possibleErrors, BusOrTimeout]) nofun
    exact .read fun _ => (ends_attenuationTuning _).bind fun _ => .stage 6
  | tuneEdge a b =>
    refine runCommand_ends (E := BusOrTimeout) ?_ (by simp [possibleErrors, BusOrTimeout]) nofun
    exact ends_edgeTuning.bind fun _ => .stage 3
  | init a b =>
    refine runCommand_ends (E := BusOrTimeout) ?_ (by simp [possibleErrors, BusOrTimeout]) nofun
    have bus : ∀ e, OnlyBus e → BusOrTimeout e := fun _ => .inl
    exact (ends_clearFlags.mono bus).inner.bind fun _ => (Ends.stage 2).bind fun _ =>
      .read fun _ => ((ends_baseWrites _ 0).mono bus).bind fun _ => (Ends.idx 0).bind fun _ =>
      (Ends.stage 3).bind fun _ => (ends_attenuationTuning _).inner.bind fun _ =>
      (Ends.stage 4).bind fun _ => ends_edgeTuning.inner.bind fun _ => .stage 5
  | setInd a b =>
    refine runCommand_ends (E := NoError) ?_ (by simp [possibleErrors, NoError]) nofun
    exact .read fun _ => Ends.bind .write fun _ => .emit _
  | reservedF a b => exact runCommand_ends (E := NoError) (.ret ()) nofun (by simp [possibleErrors])
  | frameRapRead | frameRapWrite | eraCodeWrite | eraCodeRead | eraCodeDone => cases hi

/-- Settles O17. -/
theorem everyCommandEnds : Obligations.EveryCommandEnds := by
  intro i s hi hbusy hresets
  obtain ⟨t, hexec, hended, -, ht⟩ := exec_ends hi s hbusy hresets
  exact ⟨t, hexec, hended, ht⟩

/-- A stage run by itself leaves `ERR`, or raises one of its kinds (log 15). -/
theorem runStage_err {E : ErrKind → Prop} {body : Sequence Unit} (hbody : Ends E body)
    (hresets : s.resets = []) (h : runStage body s = .next t) : t.err = s.err ∨ E t.err := by
  obtain ⟨-, rfl⟩ := runStage_cases h
  have hrun := hbody s hresets
  match hres : body s with
  | .ok _ u =>
    simp only [hres] at hrun
    obtain ⟨-, herr, -⟩ := hrun
    exact .inl herr
  | .error (.raised e) u =>
    simp only [hres] at hrun
    exact .inr hrun.1
  | .error .reset u => simp only [hres] at hrun

theorem exec_next_idle {i : Instr} (h : exec i s = .next t) : s.busy = false := by
  refine Bool.eq_false_iff.2 fun hbusy => ?_
  rw [busyPortTakesNoCommand i s hbusy] at h
  cases h

/-- The kinds a wire frame or code run by itself can leave in `ERR` (log 15). -/
theorem exec_stage_err {i : Instr} (hi : isHostCommand i = false) (hresets : s.resets = [])
    (h : exec i s = .next t) : t.err = s.err ∨ t.err ∈ possibleErrors i := by
  cases i with
  | frameRapRead a n =>
    exact (runStage_err ((ends_rapRead a n).bind fun _ => .ret ()) hresets h).imp_right List.mem_singleton.2
  | frameRapWrite a v => exact (runStage_err (ends_rapWrite a v) hresets h).imp_right List.mem_singleton.2
  | eraCodeWrite => exact (runStage_err (ends_rapWrite _ _) hresets h).imp_right List.mem_singleton.2
  | eraCodeRead => exact (runStage_err (ends_rapWrite _ _) hresets h).imp_right List.mem_singleton.2
  | eraCodeDone =>
    exact (runStage_err (.of_within fun _ => within_poll) hresets h).imp_right List.mem_pair.2
  | _ => cases hi

/-- Settles O18. -/
theorem errorKindsByCommand : Obligations.ErrorKindsByCommand := by
  intro i s t hresets h
  refine ⟨fun hi => ?_, fun hi => exec_stage_err hi hresets h⟩
  obtain ⟨t', hexec, -, hkind, -⟩ := exec_ends hi s (exec_next_idle h) hresets
  cases hexec.symm.trans h
  exact hkind

end Sys2Proof.Machine
end

section
/-!
PROOFS. `RAP_RD` and `RAP_WR` with legal operands (`41_rap.md` R91, R92, R95), and the wire frames and
trigger codes run by themselves (`30_encoding.md` R61, R62, R65, log 15): one frame, and what it leaves.
-/

namespace Sys2Proof.Machine

variable {s : State} {p : Params} {r : ChipReply} {rest : List ChipReply} {t : Byte} {f : Bool}

/-! ### Legal operands -/

/-- The index in the command byte is the whole port when that is legal (R63, R71). -/
theorem directIndex_toNat {a : Word16} (h : a.toNat % 128 ≤ 0x1F) :
    (directIndex a).toNat = a.toNat % 128 := by
  simp only [directIndex, BitVec.extractLsb'_toNat, Nat.shiftRight_zero]
  omega

theorem addressLegal_eq_true (c : Config) {a : Word16} (h : a.toNat % 128 ≤ 0x1F) :
    addressLegal c.toParams a = true := by
  rw [addressLegal_eq]
  exact decide_eq_true h

theorem countLegal_eq_true (c : Config) {b : Word16} (h : b.toNat % 256 ≤ c.maxCount) :
    countLegal c.toParams b = true := by
  rw [countLegal, countOf_eq]
  exact decide_eq_true h

/-! ### The two commands -/

/-- `RAP_RD` with legal operands, its sequence reading the operands themselves: the latches hold them when
it starts (R69). -/
theorem exec_rapRd_legal {a b : Word16} (haddr : a.toNat % 128 ≤ 0x1F)
    (hcount : b.toNat % 256 ≤ s.cfg.maxCount) :
    exec (.rapRd a b) s = runCommand .rapRd 0x1 true a b
      (do
        let d ← rapRead (directIndex a) (b.toNat % 256)
        atStage 2
        modify fun u => u.storeRead d
        atStage 4)
      s := by
  simp only [exec, execRapRd, addressLegal_eq_true s.cfg haddr, countLegal_eq_true s.cfg hcount,
    Bool.and_self, runCommand, bind_run, get_run, State.accept_opa, State.accept_opb, countOf_eq]

/-- `RAP_WR` with a legal index, likewise (R92). -/
theorem exec_rapWr_legal {a b : Word16} (haddr : a.toNat % 128 ≤ 0x1F) :
    exec (.rapWr a b) s = runCommand .rapWr 0x2 true a b
      (do
        rapWrite (directIndex a) (lowByte b)
        atStage 2)
      s := by
  simp only [exec, execRapWr, addressLegal_eq_true s.cfg haddr, runCommand, bind_run, get_run,
    State.accept_opa, State.accept_opb]

/-- Settles O33: one read of the data, which `storeRead` then puts into the buffer. -/
theorem rapRdCompletes : Obligations.RapRdCompletes := by
  intro a b s d r rest hbusy hresets haddr hcount hchip hlen hdata
  obtain ⟨u, hrun, hended, hlatched, hrest, hsent, htmp, hfeed, hsame, hrb, -⟩ :=
    runCommand_does_then (fun u => u.storeRead d) (exec_rapRd_legal haddr hcount) hbusy hresets
      (List.cons_ne_nil _ _) (fun _ _ => rfl) fun u hat _ => by
        obtain ⟨v, hread, hran, hat'⟩ := does_rapRead hdata (directIndex a) u (hchip ▸ hat)
        rw [hlen] at hread hran
        exact ⟨v, _, by rw [bind_run, hread]; rfl, hran, hat'⟩
  exact ⟨_, hrun, hended, hlatched, by rw [State.storeRead_rb, hrb], rfl, hrest, directIndex_toNat haddr,
    hsent, hsame, htmp, hfeed⟩

/-- Settles O34. -/
theorem rapWrCompletes : Obligations.RapWrCompletes := by
  intro a b s r rest hbusy hresets haddr hchip hanswers
  obtain ⟨t, hrun, hended, hlatched, hrest, hsent, htmp, hfeed, hbeyond, hbuffer⟩ :=
    runCommand_does (op := .rapWr) (code := 0x2) (a := a) (b := b)
      (A := [Act.W s.cfg.toParams (directIndex a) (lowByte b)]) hbusy hresets (List.cons_ne_nil _ _)
      fun u hat _ _ => (does_rapWrite hanswers _ _).hush (f := fun _ => atStage 2) (Does.stage 2) u
        (hchip ▸ hat)
  exact ⟨t, (exec_rapWr_legal haddr).trans hrun, hended, hlatched, hrest, directIndex_toNat haddr, hsent,
    hbeyond, hbuffer, htmp, hfeed⟩

/-! ### Frames and codes run by themselves -/

/-- A read frame whose bytes nothing uses: any answer will do (R91, log 15). -/
theorem does_rapRead_discarded (hr : Answers r) (a : RegAddr) (n : Nat) :
    Does p ⟨r :: rest, t, f⟩ (do let _ ← rapRead a n; return ()) () [Act.R p a n] ⟨rest, t, f⟩ := by
  intro s hs
  obtain ⟨hran, hat⟩ := does_transact hs hr (readFrame p a n)
  obtain ⟨hresets, rfl, hchip, -⟩ := hs
  obtain ⟨bs, rfl⟩ := hr
  exact ⟨_, by rw [bind_run, rapRead_answered hresets hchip]; rfl, hran, hat⟩

/-- A write frame sent by a stage run by itself: that frame, and nothing else but `SEQ` at rest. -/
theorem runStage_rapWrite (hbusy : s.busy = false) (hresets : s.resets = []) (hchip : s.chip = r :: rest)
    (hr : Answers r) (a : RegAddr) (v : Byte) :
    ∃ t, runStage (rapWrite a v) s = .next t ∧ Sent s t [Act.W s.cfg.toParams a v] ∧
      t = { s with seq := Sequencer.idle, chip := rest, trace := t.trace, sel := false } :=
  runStage_does hbusy hresets (List.cons_ne_nil _ _) (hchip ▸ does_rapWrite hr a v)

/-- Settles O36. -/
theorem wireFramesComplete : Obligations.WireFramesComplete :=
  fun k n v _ _ _ hbusy hresets hchip hr =>
    ⟨runStage_does hbusy hresets (List.cons_ne_nil _ _) (hchip ▸ does_rapRead_discarded hr k n),
      runStage_rapWrite hbusy hresets hchip hr k v⟩

/-- Settles O49: each trigger code is the write of that code to 0x1E (R65). -/
theorem eraTriggerCodesComplete : Obligations.EraTriggerCodesComplete :=
  fun _ _ _ hbusy hresets hchip hr =>
    ⟨runStage_rapWrite hbusy hresets hchip hr regEraCtl eraWriteCode,
      runStage_rapWrite hbusy hresets hchip hr regEraCtl eraReadCode⟩

end Sys2Proof.Machine
end

section
/-!
PROOFS. The bytes clocked in at the discarded positions of an exchange (`30_encoding.md` R64, `41_rap.md`
R95, D25): two runs whose answers agree from byte 3 on go the same way. `Mirrors` is the relation of the two
runs; a run that has used its script up is let go.
-/

namespace Sys2Proof.Machine

variable {α β γ δ : Type} {s s' t : State}

/-! ### States that are the same but for the bytes clocked in -/

/-- The state with another script and another trace. -/
def State.withReplies (s : State) (c : List ChipReply) (tr : List BusEvent) : State :=
  { s with chip := c, trace := tr }

section

variable (s : State) (c : List ChipReply) (tr : List BusEvent)

@[simp] theorem State.withReplies_chip : (s.withReplies c tr).chip = c := rfl
@[simp] theorem State.withReplies_trace : (s.withReplies c tr).trace = tr := rfl
@[simp] theorem State.withReplies_sel : (s.withReplies c tr).sel = s.sel := rfl
@[simp] theorem State.withReplies_resets : (s.withReplies c tr).resets = s.resets := rfl

end

theorem SameButReplies.exists_eq (h : SameButReplies s s') :
    ∃ c tr, s' = s.withReplies c tr ∧ List.Forall₂ Alike s.chip c ∧ actsOf tr = actsOf s.trace := by
  obtain ⟨hchip, hacts, heq⟩ := h
  exact ⟨_, _, heq, hchip, hacts⟩

/-- `f` neither reads nor writes the script and the trace. -/
def Aside (f : State → State) : Prop := ∀ s c tr, f (s.withReplies c tr) = (f s).withReplies c tr

theorem Aside.chip {f : State → State} (hf : Aside f) (s : State) : (f s).chip = s.chip :=
  (congrArg State.chip (hf s s.chip s.trace) :)

theorem Aside.trace {f : State → State} (hf : Aside f) (s : State) : (f s).trace = s.trace :=
  (congrArg State.trace (hf s s.chip s.trace) :)

theorem SameButReplies.map {f : State → State} (hf : Aside f) (h : SameButReplies s s') :
    SameButReplies (f s) (f s') := by
  obtain ⟨c, tr, rfl, hchip, hacts⟩ := h.exists_eq
  rw [hf]
  refine ⟨?_, ?_, rfl⟩
  · rw [hf.chip]
    exact hchip
  · rw [hf.trace]
    exact hacts

/-- Events with the same acts keep the two traces alike. -/
theorem SameButReplies.log (h : SameButReplies s s') {e e' : BusEvent} (he : actOf e = actOf e') :
    SameButReplies { s with trace := s.trace ++ [e] } { s' with trace := s'.trace ++ [e'] } := by
  obtain ⟨c, tr, rfl, hchip, hacts⟩ := h.exists_eq
  exact ⟨hchip, by simp [hacts, he], rfl⟩

theorem SameButReplies.resetEngine (h : SameButReplies s s') :
    SameButReplies s.resetEngine s'.resetEngine := by
  obtain ⟨c, tr, rfl, hchip, hacts⟩ := h.exists_eq
  refine ⟨hchip, ?_, rfl⟩
  rw [State.resetEngine_trace, State.resetEngine_trace, actsOf_append, actsOf_append]
  exact congrArg (· ++ _) hacts

theorem SameButReplies.takeReply (h : SameButReplies s s') :
    SameButReplies { s with chip := s.chip.tail } { s' with chip := s'.chip.tail } := by
  obtain ⟨c, tr, rfl, hchip, hacts⟩ := h.exists_eq
  exact ⟨by simpa using List.forall₂_drop 1 hchip, hacts, rfl⟩

/-! ### Answers that are alike -/

/-- A script as long as what is sent gives the whole reply (R80). -/
theorem replyBytes_eq_take (h : List BusEvent) {out script : List Byte} (hlen : out.length ≤ script.length) :
    replyBytes h [] out script = script.take out.length := by
  rw [← replyBytes_take h [] out script, List.take_of_length_le (by rwa [replyBytes_length])]

/-- What an answer tells the engine: whether the exchange failed, and the bytes from byte 3 on (R64). -/
def dataOf (r : Option (List Byte)) : Option (List Byte) := r.map (List.drop 3)

/-- To a frame no longer than the longest read, the two chips give the same data. -/
theorem chipAnswer_dataOf (h : SameButReplies s s') (hchip : s.chip ≠ []) {out : List Byte}
    (hout : out.length ≤ 258) : dataOf (chipAnswer s out) = dataOf (chipAnswer s' out) := by
  obtain ⟨c, tr, rfl, halike, -⟩ := h.exists_eq
  simp only [chipAnswer, State.withReplies_chip, State.withReplies_trace]
  match hs : s.chip, c, halike with
  | [], _, _ => exact absurd hs hchip
  | .fail :: _, .fail :: _, _ => rfl
  | .fail :: _, .answer _ :: _, .cons hx _ => exact hx.elim
  | .answer _ :: _, .fail :: _, .cons hx _ => exact hx.elim
  | .answer x :: _, .answer x' :: _, .cons hx _ =>
    obtain ⟨hlen, hlen', hdrop⟩ := hx
    simp only [dataOf, Option.map_some, replyBytes_eq_take _ (hout.trans hlen),
      replyBytes_eq_take _ (hout.trans hlen'), List.drop_take, hdrop]

/-- Answers with the same data show as the same act. -/
theorem exchangeEvent_acts {r r' : Option (List Byte)} (h : dataOf r = dataOf r') (out : List Byte) :
    actOf (exchangeEvent out r) = actOf (exchangeEvent out r') := by
  cases r <;> cases r' <;> simp [dataOf, exchangeAct] at h ⊢

/-! ### Sequences that mirror each other -/

/-- The state a sequence leaves, however it ends. -/
def endState : EStateM.Result Abort State α → State
  | .ok _ u => u
  | .error _ u => u

/-- Two results of the same kind, with values that look the same through `view` and states that are the same
but for the bytes clocked in. -/
inductive Matches (view : α → γ) :
    EStateM.Result Abort State α → EStateM.Result Abort State α → Prop where
  | ok {a a' : α} {u u' : State} (hv : view a = view a') (h : SameButReplies u u') :
    Matches view (.ok a u) (.ok a' u')
  | error (e : Abort) {u u' : State} (h : SameButReplies u u') : Matches view (.error e u) (.error e u')

/-- On states that are the same but for the bytes clocked in, `m` and `m'` match, unless `m` uses its script
up. -/
structure Mirrors (view : α → γ) (m m' : Sequence α) : Prop where
  dry : ∀ s, s.chip = [] → (endState (m s)).chip = []
  same : ∀ {s s'}, SameButReplies s s' → (endState (m s)).chip = [] ∨ Matches view (m s) (m' s')

/-- `m` goes the same way whatever was clocked in at the discarded positions. -/
abbrev Blind (m : Sequence α) : Prop := Mirrors id m m

theorem Matches.exists_ok {view : α → γ} {a : α} {u : State} {r : EStateM.Result Abort State α}
    (h : Matches view (.ok a u) r) :
    ∃ a' u', r = .ok a' u' ∧ view a = view a' ∧ SameButReplies u u' := by
  cases h with
  | ok hv h => exact ⟨_, _, rfl, hv, h⟩

theorem Matches.exists_error {view : α → γ} {e : Abort} {u : State} {r : EStateM.Result Abort State α}
    (h : Matches view (.error e u) r) : ∃ u', r = .error e u' ∧ SameButReplies u u' := by
  cases h with
  | error _ h => exact ⟨_, rfl, h⟩

theorem Mirrors.bind {view : α → γ} {view' : β → δ} {m m' : Sequence α} {f f' : α → Sequence β}
    (hm : Mirrors view m m') (hf : ∀ a a', view a = view a' → Mirrors view' (f a) (f' a')) :
    Mirrors view' (m >>= f) (m' >>= f') where
  dry s hs := by
    have hdry := hm.dry s hs
    rw [bind_run]
    match hms : m s with
    | .ok a u => rw [hms] at hdry; exact (hf a a rfl).dry u hdry
    | .error e u => rw [hms] at hdry; exact hdry
  same {s s'} h := by
    have hsame := hm.same h
    rw [bind_run, bind_run]
    match hms : m s with
    | .error e u =>
      rw [hms] at hsame
      refine hsame.imp_right fun hmatch => ?_
      obtain ⟨u', hms', hu⟩ := hmatch.exists_error
      rw [hms']
      exact .error e hu
    | .ok a u =>
      rw [hms] at hsame
      obtain hdry | hmatch := hsame
      · exact .inl ((hf a a rfl).dry u hdry)
      · obtain ⟨a', u', hms', hv, hu⟩ := hmatch.exists_ok
        rw [hms']
        exact (hf a a' hv).same hu

namespace Blind

theorem bind {m : Sequence α} {f : α → Sequence β} (hm : Blind m) (hf : ∀ a, Blind (f a)) :
    Blind (m >>= f) :=
  Mirrors.bind hm fun a _ (hv : a = _) => hv ▸ hf a

theorem ret (a : α) : Blind (pure a) := ⟨fun _ hs => hs, fun h => .inr (.ok rfl h)⟩

theorem raise (e : ErrKind) : Blind (Machine.raise e : Sequence α) :=
  ⟨fun _ hs => hs, fun h => .inr (.error _ h)⟩

/-- A write that neither reads nor writes the script and the trace, which the default argument sees. -/
theorem write {f : State → State} (hf : Aside f := by exact fun _ _ _ => rfl) : Blind (modify f) where
  dry s hs := (hf.chip s).trans hs
  same h := .inr (.ok rfl (h.map hf))

/-- A step that reads neither the script nor the trace, which the default argument sees. -/
theorem read {f : State → Sequence β} (h : ∀ s, Blind (f s))
    (hf : ∀ s c tr, f (s.withReplies c tr) = f s := by exact fun _ _ _ => rfl) :
    Blind (get >>= f) where
  dry s hs := (h s).dry s hs
  same {s s'} hss := by
    obtain ⟨c, tr, heq, -⟩ := hss.exists_eq
    have hfs : f s' = f s := by rw [heq, hf]
    simpa only [bind_run, get_run, hfs] using (h s).same hss

theorem seq (f : Sequencer → Sequencer) : Blind (modify fun s => { s with seq := f s.seq }) := write

theorem stage (line : Nat) {part : Nat} : Blind (atStage line part) :=
  seq fun q => { q with stage := ⟨line, part⟩ }

theorem idx (n : Nat) : Blind (setIdx n) := seq fun q => { q with idx := n }

theorem polls (n : Nat) : Blind (setPolls n) := seq fun q => { q with polls := n }

theorem enter : Blind Machine.enter := seq Sequencer.push

theorem leave : Blind Machine.leave := seq Sequencer.pop

theorem tmp (v : Byte) : Blind (setTmp v) := write

theorem inner {m : Sequence α} (h : Blind m) : Blind (inner m) := by
  unfold Machine.inner
  exact enter.bind fun _ => h.bind fun a => leave.bind fun _ => ret a

end Blind

/-! ### The transceiver -/

/-- Two events with the same acts; a reset that is due cuts both runs (R201). -/
theorem mirrors_emit {e e' : BusEvent} (he : actOf e = actOf e') : Mirrors id (emit e) (emit e') where
  dry s hs := by
    unfold emit
    split <;> exact hs
  same {s s'} h := by
    obtain ⟨c, tr, heq, -⟩ := h.exists_eq
    have hresets : s'.resets = s.resets := by rw [heq, State.withReplies_resets]
    have due : ∀ rs, SameButReplies { s with resets := rs } { s' with resets := rs } := fun rs =>
      h.map (f := fun s => { s with resets := rs }) fun _ _ _ => rfl
    unfold emit
    rw [hresets]
    match s.resets with
    | [] => exact .inr (.ok rfl ((due []).log he))
    | 0 :: later => exact .inr (.error _ (due later).resetEngine)
    | (n + 1) :: later => exact .inr (.ok rfl ((due (n :: later)).log he))

theorem blind_emit (e : BusEvent) : Blind (emit e) := mirrors_emit rfl

theorem blind_driveSelect (level : Bool) : Blind (driveSelect level) :=
  (blind_emit _).bind fun _ => .write

theorem blind_takeReply : Blind (modify fun t => { t with chip := t.chip.tail }) :=
  ⟨fun _ hs => congrArg List.tail hs, fun h => .inr (.ok rfl h.takeReply)⟩

/-- An exchange once the chip's answer `r` to it is known (R80). -/
def exchangeOf (out : List Byte) (r : Option (List Byte)) : Sequence (Option (List Byte)) := do
  emit (exchangeEvent out r)
  modify fun t => { t with chip := t.chip.tail }
  return r

theorem exchange_run (out : List Byte) (s : State) :
    exchange out s = exchangeOf out (chipAnswer s out) s := by
  simp only [exchange, exchangeOf, bind_run, get_run]

theorem mirrors_exchangeOf {r r' : Option (List Byte)} (h : dataOf r = dataOf r') (out : List Byte) :
    Mirrors dataOf (exchangeOf out r) (exchangeOf out r') :=
  (mirrors_emit (exchangeEvent_acts h out)).bind fun _ _ _ => Mirrors.bind blind_takeReply fun _ _ _ =>
    ⟨fun _ hs => hs, fun hss => .inr (.ok h hss)⟩

/-- An exchange no longer than the longest read mirrors itself in the data it brings. -/
theorem mirrors_exchange {out : List Byte} (hout : out.length ≤ 258) :
    Mirrors dataOf (exchange out) (exchange out) where
  dry s hs := by
    rw [exchange_run]
    exact (mirrors_exchangeOf rfl out).dry s hs
  same {s s'} h := by
    rw [exchange_run, exchange_run]
    by_cases hchip : s.chip = []
    · exact .inl ((mirrors_exchangeOf rfl out).dry s hchip)
    · exact (mirrors_exchangeOf (chipAnswer_dataOf h hchip hout) out).same h

theorem mirrors_transact {out : List Byte} (hout : out.length ≤ 258) :
    Mirrors (List.drop 3) (transact out) (transact out) := by
  refine Mirrors.bind (blind_driveSelect true) fun _ _ _ => (mirrors_exchange hout).bind fun r r' hr =>
    Mirrors.bind (blind_driveSelect false) fun _ _ _ => ?_
  match r, r', hr with
  | none, none, _ => exact ⟨fun _ hs => hs, fun h => .inr (.error _ h)⟩
  | some inp, some inp', hr => exact ⟨fun _ hs => hs, fun h => .inr (.ok (Option.some.inj hr) h)⟩

/-! ### The procedures -/

/-- A read of at most 255 bytes drops the three discarded ones (R64, R91). -/
theorem blind_rapRead (a : RegAddr) {n : Nat} (hn : n ≤ 255) : Blind (rapRead a n) := by
  refine .read fun s => (mirrors_transact ?_).bind fun i i' hi => ?_
  · rw [readFrame_length]
    omega
  · rw [hi]
    exact Blind.ret _

theorem blind_rapReadByte (a : RegAddr) : Blind (rapReadByte a) :=
  (blind_rapRead a (by decide)).bind fun _ => .ret _

theorem blind_rapWrite (a : RegAddr) (v : Byte) : Blind (rapWrite a v) :=
  .read fun _ => (mirrors_transact (by simp [writeFrame])).bind fun _ _ _ => Blind.ret ()

theorem blind_clearFlags : Blind clearFlags :=
  (blind_rapWrite _ _).bind fun _ => (Blind.stage 2).bind fun _ => .read fun _ => blind_emit _

theorem blind_setFeed (enable : Bool) : Blind (setFeed enable) :=
  .read fun _ => (blind_rapReadByte _).bind fun v => (Blind.tmp v).bind fun _ =>
    (Blind.stage 2).bind fun _ => (Blind.stage 3).bind fun _ => blind_rapWrite _ _

theorem blind_pollLoop : ∀ n, Blind (pollLoop n)
  | 0 => (Blind.stage 2).bind fun _ => .raise _
  | n + 1 => by
    unfold pollLoop
    refine (Blind.stage 2).bind fun _ => (Blind.stage 2).bind fun _ =>
      (blind_rapReadByte _).bind fun c => (Blind.tmp c).bind fun _ =>
      .read fun s => (Blind.polls _).bind fun _ => (Blind.stage 2).bind fun _ => ?_
    split
    · exact .ret ()
    · exact blind_pollLoop n

theorem blind_poll : Blind poll := (Blind.polls 0).bind fun _ => .read fun _ => blind_pollLoop _

theorem blind_eraCapture : Blind eraCapture :=
  .read fun _ => (blind_rapReadByte _).bind fun v => (Blind.tmp v).bind fun _ =>
    (Blind.stage 2).bind fun _ => Blind.bind .write fun _ => (Blind.stage 3).bind fun _ => .ret v

theorem blind_eraLoadAddr (eaddr : Word16) : Blind (eraLoadAddr eaddr) :=
  (blind_rapWrite _ _).bind fun _ => (Blind.stage 2).bind fun _ => blind_rapWrite _ _

theorem blind_eraRestore : Blind eraRestore := by
  refine .read fun s => ?_
  split
  · exact (blind_setFeed true).inner
  · exact .ret ()

/-- What an operation that raised `e` ends with once its restore gave `r`: an error of the restore does not
count (R182), a reset does (R201). -/
def abortAfter (e : ErrKind) : EStateM.Result Abort State Unit → Abort
  | .error .reset _ => .reset
  | _ => .raised e

section

variable {m : Sequence α} {line : Nat} {stack : List Stage}

theorem eraExit_ok {a : α} (h : m s = .ok a t) :
    eraExit line stack m s = (do eraRestore; return a : Sequence α) (t.unwindTo line stack) := by
  simp only [eraExit, h, bind_run, pure_run]
  cases eraRestore (t.unwindTo line stack) <;> rfl

theorem eraExit_raised {e : ErrKind} (h : m s = .error (.raised e) t) :
    eraExit line stack m s = .error (abortAfter e (eraRestore (t.unwindTo line stack)))
      (endState (eraRestore (t.unwindTo line stack))) := by
  simp only [eraExit, h]
  match eraRestore (t.unwindTo line stack) with
  | .ok _ u => rfl
  | .error (.raised _) u => rfl
  | .error .reset u => rfl

theorem eraExit_reset (h : m s = .error .reset t) : eraExit line stack m s = .error .reset t := by
  simp only [eraExit, h]

end

theorem Matches.abortAfter {e : ErrKind} {r r' : EStateM.Result Abort State Unit} (h : Matches id r r') :
    Matches (α := α) id (.error (abortAfter e r) (endState r)) (.error (abortAfter e r') (endState r')) := by
  cases h with
  | ok _ h => exact .error _ h
  | error a h => cases a <;> exact .error _ h

/-- The body mirrors itself, and then so does the restore its end calls for (R106). -/
theorem blind_eraExit {m : Sequence α} (hm : Blind m) (line : Nat) (stack : List Stage) :
    Blind (eraExit line stack m) := by
  have blind_restore : ∀ a : α, Blind (do eraRestore; return a : Sequence α) := fun a =>
    blind_eraRestore.bind fun _ => .ret a
  have aside : Aside fun t => t.unwindTo line stack := fun _ _ _ => rfl
  constructor
  · intro s hs
    have hdry := hm.dry s hs
    match hms : m s with
    | .ok a t => rw [hms] at hdry; rw [eraExit_ok hms]; exact (blind_restore a).dry _ hdry
    | .error (.raised e) t => rw [hms] at hdry; rw [eraExit_raised hms]; exact blind_eraRestore.dry _ hdry
    | .error .reset t => rw [hms] at hdry; rw [eraExit_reset hms]; exact hdry
  · intro s s' h
    have hsame := hm.same h
    match hms : m s with
    | .ok a t =>
      rw [hms] at hsame
      rw [eraExit_ok hms]
      obtain hdry | hmatch := hsame
      · exact .inl ((blind_restore a).dry _ hdry)
      · obtain ⟨_, t', hms', rfl, ht⟩ := hmatch.exists_ok
        rw [eraExit_ok hms']
        exact (blind_restore a).same (ht.map aside)
    | .error (.raised e) t =>
      rw [hms] at hsame
      rw [eraExit_raised hms]
      obtain hdry | hmatch := hsame
      · exact .inl (blind_eraRestore.dry _ hdry)
      · obtain ⟨t', hms', ht⟩ := hmatch.exists_error
        rw [eraExit_raised hms']
        exact (blind_eraRestore.same (ht.map aside)).imp_right Matches.abortAfter
    | .error .reset t =>
      rw [hms] at hsame
      rw [eraExit_reset hms]
      refine hsame.imp_right fun hmatch => ?_
      obtain ⟨t', hms', ht⟩ := hmatch.exists_error
      rw [eraExit_reset hms']
      exact .error _ ht

theorem blind_eraOperation {body : Sequence α} (h : Blind body) (line : Nat) :
    Blind (eraOperation line body) :=
  .read fun s => Blind.enter.bind fun _ => blind_eraCapture.bind fun v =>
    blind_eraExit (Blind.bind (.read fun _ => blind_rapWrite _ _) fun _ => Blind.leave.bind fun _ => h)
      line s.seq.ret

theorem blind_eraWrite (eaddr : Word16) (v : Byte) : Blind (eraWrite eaddr v) :=
  blind_eraOperation (line := 7) <| (Blind.stage 2).bind fun _ => (blind_rapWrite _ _).bind fun _ =>
    (Blind.stage 3).bind fun _ => (blind_eraLoadAddr eaddr).inner.bind fun _ =>
    (Blind.stage 4).bind fun _ => (blind_rapWrite _ _).bind fun _ => (Blind.stage 5).bind fun _ =>
    blind_poll.inner.bind fun _ => (Blind.stage 6).bind fun _ => blind_clearFlags.inner

theorem blind_eraCycles : ∀ n i, Blind (eraCycles n i)
  | 0, _ => .ret []
  | n + 1, i => (Blind.idx i).bind fun _ => (Blind.stage 3).bind fun _ => (blind_rapWrite _ _).bind fun _ =>
      (Blind.stage 3).bind fun _ => blind_poll.inner.bind fun _ => (Blind.stage 3).bind fun _ =>
      (blind_rapReadByte _).bind fun v => (Blind.stage 3).bind fun _ => blind_clearFlags.inner.bind fun _ =>
      (blind_eraCycles n (i + 1)).bind fun rest => .ret (v :: rest)

theorem blind_eraRead (eaddr : Word16) (n : Nat) : Blind (eraRead eaddr n) :=
  blind_eraOperation (line := 4) <| (Blind.stage 2).bind fun _ => (blind_eraLoadAddr eaddr).inner.bind fun _ =>
    (Blind.stage 3).bind fun _ => blind_eraCycles n 0

theorem blind_attenuationTuning (gain : Byte) : Blind (attenuationTuning gain) :=
  .read fun _ => (blind_eraRead _ 1).inner.bind fun _ => (Blind.tmp _).bind fun _ =>
    (Blind.stage 2).bind fun _ => (Blind.stage 3).bind fun _ => (blind_eraWrite _ _).inner.bind fun _ =>
    (Blind.stage 4).bind fun _ => (blind_eraRead _ 1).inner.bind fun _ => (Blind.stage 5).bind fun _ => .write

theorem blind_edgeTuning : Blind edgeTuning :=
  .read fun _ => (blind_eraWrite _ _).inner.bind fun _ => (Blind.stage 2).bind fun _ =>
    (blind_eraWrite _ _).inner

theorem blind_baseWrites : ∀ (l : List (RegAddr × Byte)) (j : Nat), Blind (baseWrites l j)
  | [], _ => .ret ()
  | (a, v) :: l, j => (Blind.idx j).bind fun _ => (blind_rapWrite a v).bind fun _ =>
      blind_baseWrites l (j + 1)

/-! ### The host commands -/

theorem finish_chip (r : EStateM.Result Abort State Unit) : (finish r).chip = (endState r).chip := by
  match r with
  | .ok _ _ => rfl
  | .error (.raised _) _ => rfl
  | .error .reset _ => rfl

theorem aside_endWith (e : ErrKind) : Aside fun s => s.endWith e := fun _ _ _ => rfl

theorem Matches.finish {r r' : EStateM.Result Abort State Unit} (h : Matches id r r') :
    SameButReplies (finish r) (finish r') := by
  cases h with
  | ok _ h => exact h.map (aside_endWith .none)
  | error e h =>
    cases e with
    | raised e => exact h.map (aside_endWith e)
    | reset => exact h

/-- `o'` is the same next state as `o` but for the bytes clocked in, unless `o` has used its script up. -/
def FollowedBy (o o' : Outcome) : Prop :=
  ∀ t, o = .next t → t.chip ≠ [] → ∃ t', o' = .next t' ∧ SameButReplies t t'

/-- A command whose sequence is blind, on two states that are the same but for the bytes clocked in. -/
theorem runCommand_blind {op : SeqOp} {code : BitVec 4} {legal : Bool} {a b : Word16} {body : Sequence Unit}
    (h : SameButReplies s s') (hbody : Blind body) :
    FollowedBy (runCommand op code legal a b body s) (runCommand op code legal a b body s') := by
  intro t hrun hchip
  obtain ⟨c, tr, heq, -⟩ := h.exists_eq
  obtain ⟨hidle, ⟨rfl, rfl⟩ | ⟨rfl, rfl⟩⟩ := runCommand_cases hrun
  all_goals have hidle' : s'.busy = false := by rw [heq]; exact hidle
  · have haccept := h.map (f := fun s => s.accept op code a b) fun _ _ _ => rfl
    rw [finish_chip] at hchip
    exact ⟨_, runCommand_legal _ _ _ _ _ hidle', ((hbody.same haccept).resolve_left hchip).finish⟩
  · exact ⟨_, runCommand_illegal _ _ _ _ _ hidle', h.map (aside_endWith _)⟩

theorem countOf_le (b : Word16) : countOf b ≤ 255 := Nat.le_of_lt_succ (lowByte b).isLt

/-- The operand checks, which read only the configuration, fall out alike; the sequences are blind. -/
theorem exec_blind {i : Instr} (hi : isHostCommand i = true) (h : SameButReplies s s') :
    FollowedBy (exec i s) (exec i s') := by
  obtain ⟨c, tr, rfl, -⟩ := h.exists_eq
  cases i with
  | nop a b => exact runCommand_blind h (.ret ())
  | rapRd a b =>
    exact runCommand_blind h (.read fun s => (blind_rapRead _ (countOf_le s.opb)).bind fun _ =>
      (Blind.stage 2).bind fun _ => Blind.bind .write fun _ => .stage 4)
  | rapWr a b =>
    exact runCommand_blind h (.read fun _ => (blind_rapWrite _ _).bind fun _ => .stage 2)
  | eraRd a b =>
    exact runCommand_blind h (.read fun _ => (blind_eraRead _ _).inner.bind fun _ =>
      (Blind.stage 2).bind fun _ => Blind.bind .write fun _ => .stage 4)
  | eraWr a b =>
    exact runCommand_blind h (.read fun _ => (blind_eraWrite _ _).inner.bind fun _ => .stage 2)
  | clrFlags a b => exact runCommand_blind h blind_clearFlags
  | setFeed a b => exact runCommand_blind h (.read fun _ => blind_setFeed _)
  | getAbs a b =>
    exact runCommand_blind h ((blind_rapRead _ (by decide)).bind fun _ => (Blind.stage 2).bind fun _ =>
      blind_clearFlags.inner.bind fun _ => (Blind.stage 3).bind fun _ => Blind.bind .write fun _ =>
      (Blind.stage 4).bind fun _ => Blind.bind .write fun _ => .stage 8)
  | clip a b => exact runCommand_blind h .write
  | scale a b =>
    exact runCommand_blind h (Blind.bind .write fun _ => (Blind.stage 2).bind fun _ =>
      Blind.bind .write fun _ => .stage 5)
  | chkHover a b =>
    refine runCommand_blind h (.read fun s => (Blind.stage 2).bind fun _ => ?_)
    split
    · exact .raise _
    · exact Blind.bind .write fun _ => .stage 5
  | setAtten a b =>
    exact runCommand_blind h (.read fun _ => (blind_attenuationTuning _).bind fun _ => .stage 6)
  | tuneEdge a b => exact runCommand_blind h (blind_edgeTuning.bind fun _ => .stage 3)
  | init a b =>
    exact runCommand_blind h (blind_clearFlags.inner.bind fun _ => (Blind.stage 2).bind fun _ =>
      .read fun _ => (blind_baseWrites _ 0).bind fun _ => (Blind.idx 0).bind fun _ =>
      (Blind.stage 3).bind fun _ => (blind_attenuationTuning _).inner.bind fun _ =>
      (Blind.stage 4).bind fun _ => blind_edgeTuning.inner.bind fun _ => .stage 5)
  | setInd a b =>
    exact runCommand_blind h (.read fun _ => Blind.bind .write fun _ => blind_emit _)
  | reservedF a b => exact runCommand_blind h (.ret ())
  | frameRapRead | frameRapWrite | eraCodeWrite | eraCodeRead | eraCodeDone => cases hi

/-- Settles O57: the command uses up no script that is not empty after it. -/
theorem discardedBytesDoNotMatter : Obligations.DiscardedBytesDoNotMatter :=
  fun _ _ _ t hi h hexec hchip => exec_blind hi h t hexec hchip

end Sys2Proof.Machine
end

section
/-!
PROOFS. How `RAP_RD` and `RAP_WR` end early (`40_bus_transport.md` R81): a failing exchange (R94, R95, R176),
and a reset due at each bus event of the one transaction (`70_reset_and_hazards.md` R200, R201).
-/

namespace Sys2Proof.Machine

variable {s u : State} {out : List Byte} {n : Nat} {later : List Nat}

/-! ### A failing exchange -/

/-- Settles O35: the failing frame is the whole bus activity, and what stores the data does not run. -/
theorem rapFailureEndsTheCommand : Obligations.RapFailureEndsTheCommand := by
  intro a b s rest hbusy hresets haddr hchip
  constructor
  · intro hcount
    obtain ⟨t, hrun, hended, -, hrest, hsent, htmp, hfeed, hbeyond, hbuffer⟩ :=
      runCommand_breaks (op := .rapRd) (code := 0x1) hbusy hresets (List.cons_ne_nil _ _)
        fun u hat _ _ => (breaks_rapRead (directIndex a) (b.toNat % 256)).bind u (hchip ▸ hat)
    exact ⟨t, (exec_rapRd_legal haddr hcount).trans hrun, hended, hrest, hsent, hbeyond, hbuffer, htmp,
      hfeed⟩
  · obtain ⟨t, hrun, hended, -, hrest, hsent, htmp, hfeed, hbeyond, hbuffer⟩ :=
      runCommand_breaks (op := .rapWr) (code := 0x2) hbusy hresets (List.cons_ne_nil _ _)
        fun u hat _ _ => (breaks_rapWrite (directIndex a) (lowByte b)).bind u (hchip ▸ hat)
    exact ⟨t, (exec_rapWr_legal haddr).trans hrun, hended, hrest, hsent, hbeyond, hbuffer, htmp, hfeed⟩

/-! ### A bus event and the next reset -/

/-- Past a step that ended, the rest runs on what it left. -/
theorem bind_run_of_ok {α β : Type} {m : Sequence α} {a : α} (h : m s = .ok a u) (f : α → Sequence β) :
    (m >>= f) s = f a u := by
  rw [bind_run, h]

/-- A step that a reset cut is the last (R201). -/
theorem bind_run_of_reset {α β : Type} {m : Sequence α} (h : m s = .error .reset u) (f : α → Sequence β) :
    (m >>= f) s = .error .reset u := by
  rw [bind_run, h]

/-- A reset that is due strikes in place of the event (R201, log 9). -/
theorem emit_due (h : s.resets = 0 :: later) (e : BusEvent) :
    emit e s = .error .reset (State.resetEngine { s with resets := later }) := by
  simp only [emit, h]

/-- An event brings a reset that is not yet due one event nearer (R201, log 9). -/
theorem emit_before_due (h : s.resets = (n + 1) :: later) (e : BusEvent) :
    emit e s = .ok () { s with resets := n :: later, trace := s.trace ++ [e] } := by
  simp only [emit, h]

theorem driveSelect_due (h : s.resets = 0 :: later) (level : Bool) :
    driveSelect level s = .error .reset (State.resetEngine { s with resets := later }) := by
  rw [driveSelect, bind_run_of_reset (emit_due h _)]

theorem driveSelect_before_due (h : s.resets = (n + 1) :: later) (level : Bool) :
    driveSelect level s =
      .ok () { s with resets := n :: later, trace := s.trace ++ [.sel level], sel := level } := by
  rw [driveSelect, bind_run_of_ok (emit_before_due h _), modify_run]

theorem exchange_due (h : s.resets = 0 :: later) (out : List Byte) :
    exchange out s = .error .reset (State.resetEngine { s with resets := later }) := by
  rw [exchange_run, exchangeOf, bind_run_of_reset (emit_due h _)]

theorem exchange_before_due (h : s.resets = (n + 1) :: later) (out : List Byte) :
    exchange out s = .ok (chipAnswer s out)
      { s with
        resets := n :: later, trace := s.trace ++ [exchangeEvent out (chipAnswer s out)],
        chip := s.chip.tail } := by
  rw [exchange_run, exchangeOf, bind_run_of_ok (emit_before_due h _)]
  rfl

/-! ### One transaction and the next reset -/

/-- What a reset leaves of `s` once the events `ev` are on the trace: the registers of reset, the answers
`c` and the resets `later` still to come (R38, R201, log 10). -/
def State.wiped (s : State) (ev : List BusEvent) (c : List ChipReply) (later : List Nat) : State :=
  { State.resetWith s.cfg with
    trace := s.trace ++ ev, chip := c, resets := later, moves := s.moves, stageWord := s.stageWord,
    tick := s.tick, dr := s.dr }

/-- A reset with select low adds no event (log 9). -/
theorem resetEngine_deselected (hsel : s.sel = false) (later : List Nat) :
    State.resetEngine { s with resets := later } = s.wiped [] s.chip later := by
  simp only [State.resetEngine, State.wiped, hsel, Bool.false_eq_true, if_false]

/-- A reset with select high lets it fall, which the trace shows (R201, log 9). -/
theorem resetEngine_selected (s : State) (ev : List BusEvent) (c : List ChipReply) (later : List Nat) :
    State.resetEngine { s with sel := true, trace := s.trace ++ ev, chip := c, resets := later } =
      s.wiped (ev ++ [.sel false]) c later := by
  simp only [State.resetEngine, State.wiped, if_true, List.append_assoc]

/-- The answer in a transaction does not depend on the resets to come. -/
theorem chipAnswer_selected (s : State) (r : List Nat) (out : List Byte) :
    chipAnswer { s with resets := r, trace := s.trace ++ [.sel true], sel := true } out =
      transactAnswer s out := rfl

theorem transact_reset_before_select (h : s.resets = 0 :: later) (hsel : s.sel = false)
    (out : List Byte) : transact out s = .error .reset (s.wiped [] s.chip later) := by
  rw [transact, bind_run_of_reset (driveSelect_due h true), resetEngine_deselected hsel]

theorem transact_reset_before_exchange (h : s.resets = 1 :: later) (out : List Byte) :
    transact out s = .error .reset (s.wiped [.sel true, .sel false] s.chip later) := by
  rw [transact, bind_run_of_ok (driveSelect_before_due h true), bind_run_of_reset (exchange_due rfl out)]
  exact congrArg (EStateM.Result.error Abort.reset) (resetEngine_selected s [.sel true] s.chip later)

theorem transact_reset_after_exchange (h : s.resets = 2 :: later) (out : List Byte) :
    transact out s = .error .reset
      (s.wiped [.sel true, exchangeEvent out (transactAnswer s out), .sel false] s.chip.tail later) := by
  rw [transact, bind_run_of_ok (driveSelect_before_due h true),
    bind_run_of_ok (exchange_before_due rfl out), bind_run_of_reset (driveSelect_due rfl false),
    List.append_assoc]
  exact congrArg (EStateM.Result.error Abort.reset)
    (resetEngine_selected s [.sel true, exchangeEvent out (transactAnswer s out)] _ later)

/-- A reset three or more events away does not strike: the transaction is whole (R201). -/
theorem transact_before_due {inp : List Byte} (h : s.resets = (n + 3) :: later)
    (hanswer : transactAnswer s out = some inp) :
    transact out s = .ok inp { transactState s out with resets := n :: later } := by
  rw [transact, bind_run_of_ok (driveSelect_before_due h true),
    bind_run_of_ok (exchange_before_due rfl out), bind_run_of_ok (driveSelect_before_due rfl false)]
  simp only [chipAnswer_selected, hanswer, pure_run, transactState, List.append_assoc]
  rfl

/-! ### `RAP_WR` under a reset -/

/-- A reset that cuts the transaction of `RAP_WR` cuts the command (R201). -/
theorem exec_rapWr_reset {a b : Word16} (hbusy : s.busy = false) (haddr : a.toNat % 128 ≤ 0x1F)
    (h : transact (writeFrame s.cfg.toParams (directIndex a) (lowByte b)) (s.accept .rapWr 0x2 a b) =
      .error .reset u) :
    exec (.rapWr a b) s = .next u := by
  rw [exec_rapWr_legal haddr, runCommand_legal _ _ _ _ _ hbusy]
  simp only [rapWrite, bind_run, get_run, State.accept_cfg, h, finish_reset]

/-- When the transaction of `RAP_WR` ends, so does the command (R92). -/
theorem exec_rapWr_sent {a b : Word16} {inp : List Byte} (hbusy : s.busy = false)
    (haddr : a.toNat % 128 ≤ 0x1F)
    (h : transact (writeFrame s.cfg.toParams (directIndex a) (lowByte b)) (s.accept .rapWr 0x2 a b) =
      .ok inp u) :
    exec (.rapWr a b) s = .next (u.endWith .none) := by
  rw [exec_rapWr_legal haddr, runCommand_legal _ _ _ _ _ hbusy]
  simp only [rapWrite, bind_run, get_run, State.accept_cfg, h, pure_run, atStage_run, finish_ok]
  rfl

/-- A script of two bytes or more answers a write frame with its first two (R62, R80). -/
theorem transactAnswer_writeFrame {bs : List Byte} {rest : List ChipReply}
    (hchip : s.chip = .answer bs :: rest) (hlen : 2 ≤ bs.length) (p : Params) (k : RegAddr) (v : Byte) :
    transactAnswer s (writeFrame p k v) = some (bs.take 2) := by
  rw [transactAnswer_script hchip, replyBytes_eq_take (out := writeFrame p k v) _ hlen]
  rfl

/-- Settles O12: one case per bus event of the transaction, and the transaction that no reset cuts. -/
theorem resetCutsAWriteCommandAtEachEvent : Obligations.ResetCutsAWriteCommandAtEachEvent := by
  intro a b s bs rest later hbusy hsel hchip hlen haddr out gone
  have hanswer : transactAnswer (s.accept .rapWr 0x2 a b) out = some (bs.take 2) :=
    transactAnswer_writeFrame hchip hlen _ _ _
  refine ⟨fun hdue => ?_, fun hdue => ?_, fun hdue => ?_, fun n hdue => ?_⟩
  · exact exec_rapWr_reset hbusy haddr
      (transact_reset_before_select (s := s.accept .rapWr 0x2 a b) hdue hsel out)
  · exact exec_rapWr_reset hbusy haddr
      (transact_reset_before_exchange (s := s.accept .rapWr 0x2 a b) hdue out)
  · have hcut := exec_rapWr_reset hbusy haddr
      (transact_reset_after_exchange (s := s.accept .rapWr 0x2 a b) hdue out)
    rw [hanswer, State.accept_chip, hchip] at hcut
    exact hcut
  · exact ⟨_, exec_rapWr_sent hbusy haddr (transact_before_due hdue hanswer), ⟨rfl, rfl, rfl, rfl, rfl⟩,
      rfl⟩

end Sys2Proof.Machine
end

section
/-!
PROOFS. A command of R181's list that ends with an error leaves `RB`, `RLEN` and the sample registers as
before (`60_exceptions.md` R181; `41_rap.md` R95, `42_era.md` R105, `44_sample_pipeline.md` R125): whatever can
raise runs before the first store, and no step after a store raises.
-/

namespace Sys2Proof.Machine

variable {α β : Type} {s t u v : State}

/-! ### The result registers a failing command spares -/

/-- The read buffer and the sample are as before (R181). -/
def SameResults (s u : State) : Prop := SameBuffer s u ∧ SameSample s u

theorem SameResults.refl (s : State) : SameResults s s := by simp [SameResults, SameBuffer, SameSample]

theorem SameResults.trans (h1 : SameResults s u) (h2 : SameResults u v) : SameResults s v := by
  simp_all [SameResults, SameBuffer, SameSample]

theorem Moved.sameResults {n : Nat} (h : Moved n s u) : SameResults s u := by
  obtain ⟨⟨q, t, f, tr, c, sl, rs, rfl⟩, -⟩ := h
  exact SameResults.refl s

/-- A reset leaves `ERR = None` (R38, R200). -/
theorem Wiped.err {n : Nat} (h : Wiped n s u) : u.err = .none := by
  obtain ⟨⟨tr, c, rs, rfl⟩, -⟩ := h
  rfl

/-! ### Sequences that store nothing -/

/-- `m` leaves the result registers alone however it ends, unless a reset cuts it, which clears `ERR`. -/
def SparesResults (m : Sequence α) : Prop := ∀ s, Leaves SameResults (fun _ u => u.err = .none) m s

namespace SparesResults

theorem bind {m : Sequence α} {f : α → Sequence β} (hm : SparesResults m)
    (hf : ∀ a, SparesResults (f a)) : SparesResults (m >>= f) :=
  fun s => (hm s).bind SameResults.trans (fun _ herr => herr) fun a u _ _ => hf a u

/-- A bus procedure stores nothing. -/
theorem of_within {m : Sequence α} {n : State → Nat} {E : ErrKind → Prop}
    (h : ∀ s, Within (n s) E m s) : SparesResults m := by
  intro s
  have hm := h s
  unfold Within at hm
  unfold Leaves
  match hms : m s with
  | .ok a u => simp only [hms] at hm; exact hm.sameResults
  | .error (.raised e) u => simp only [hms] at hm; exact hm.2.sameResults
  | .error .reset u => simp only [hms] at hm; exact hm.err

theorem ret (a : α) : SparesResults (pure a) := SameResults.refl

theorem seq (f : State → Sequencer) : SparesResults (modify fun s => { s with seq := f s }) :=
  SameResults.refl

theorem tmp (b : Byte) : SparesResults (setTmp b) := SameResults.refl

theorem stage (line : Nat) {part : Nat} : SparesResults (atStage line part) := seq _

theorem inner {m : Sequence α} (h : SparesResults m) : SparesResults (inner m) := by
  unfold Machine.inner
  exact (seq fun s => s.seq.push).bind fun _ => h.bind fun a =>
    (seq fun s => s.seq.pop).bind fun _ => ret a

end SparesResults

/-! ### Sequences that store only once nothing can raise any more -/

/-- When `m` raises, the result registers are as before; a reset that cuts it clears `ERR`. Where `m` runs to
its end it may have stored. -/
def SparesOnError (m : Sequence α) : Prop :=
  ∀ s, match m s with
    | .ok _ _ => True
    | .error (.raised _) u => SameResults s u
    | .error .reset u => u.err = .none

namespace SparesOnError

/-- The stores at the end of a command: they cannot raise. -/
theorem of_ok {m : Sequence α} (h : ∀ s, ∃ a u, m s = .ok a u) : SparesOnError m := by
  intro s
  obtain ⟨a, u, hms⟩ := h s
  simp only [hms]

/-- Steps that store nothing may stand before. -/
theorem after {m : Sequence α} {f : α → Sequence β} (hm : SparesResults m)
    (hf : ∀ a, SparesOnError (f a)) : SparesOnError (m >>= f) := by
  intro s
  have h1 := hm s
  unfold Leaves at h1
  rw [bind_run]
  match hms : m s with
  | .error (.raised e) u => simpa only [hms] using h1
  | .error .reset u => simpa only [hms] using h1
  | .ok a u =>
    simp only [hms] at h1 ⊢
    have h2 := hf a u
    match hfa : f a u with
    | .ok b v => trivial
    | .error (.raised e) v => simp only [hfa] at h2; exact h1.trans h2
    | .error .reset v => simpa only [hfa] using h2

/-- Steps that cannot raise may stand behind. -/
theorem before {m : Sequence α} {f : α → Sequence β} (hm : SparesOnError m)
    (hf : ∀ a s, ∃ b u, f a s = .ok b u) : SparesOnError (m >>= f) := by
  intro s
  have h1 := hm s
  rw [bind_run]
  match hms : m s with
  | .error (.raised e) u => simpa only [hms] using h1
  | .error .reset u => simpa only [hms] using h1
  | .ok a u =>
    obtain ⟨b, v, hfa⟩ := hf a u
    simp only [hfa]

theorem read {f : State → Sequence β} (hf : ∀ s, SparesOnError (f s)) : SparesOnError (get >>= f) :=
  after SameResults.refl hf

end SparesOnError

theorem sparesResults_eraRead (eaddr : Word16) (n : Nat) : SparesResults (eraRead eaddr n) :=
  .of_within fun _ => within_eraRead eaddr n

theorem sparesResults_eraWrite (eaddr : Word16) (b : Byte) : SparesResults (eraWrite eaddr b) :=
  .of_within fun _ => within_eraWrite eaddr b

/-- `SET_ATTEN` stores the confirmation last, after its three ERA operations (R150). -/
theorem sparesOnError_attenuationTuning (gain : Byte) : SparesOnError (attenuationTuning gain) :=
  .read fun _ => .after (sparesResults_eraRead _ 1).inner fun _ => .after (.tmp _) fun _ =>
    .after (.stage 2) fun _ => .after (.stage 3) fun _ => .after (sparesResults_eraWrite _ _).inner fun _ =>
    .after (.stage 4) fun _ => .after (sparesResults_eraRead _ 1).inner fun _ => .after (.stage 5) fun _ =>
    .of_ok fun _ => ⟨_, _, rfl⟩

/-! ### The commands -/

/-- A command that ends with an error raised it or was refused (R179, R180). -/
theorem runCommand_error_sameResults {op : SeqOp} {code : BitVec 4} {legal : Bool} {a b : Word16}
    {body : Sequence Unit} (h : runCommand op code legal a b body s = .next t) (herr : t.err ≠ .none)
    (hbody : SparesOnError body) : SameResults s t := by
  obtain ⟨-, ⟨-, rfl⟩ | ⟨-, rfl⟩⟩ := runCommand_cases h
  · have hrun := hbody (s.accept op code a b)
    match hres : body (s.accept op code a b) with
    | .ok _ u =>
      rw [hres] at herr
      exact absurd rfl herr
    | .error (.raised e) u =>
      rw [hres] at hrun
      exact hrun
    | .error .reset u =>
      rw [hres] at hrun herr
      exact absurd hrun herr
  · exact SameResults.refl s

/-- Settles O55: in each of the four commands every step that can raise comes before the first store. -/
theorem errorsKeepTheResultRegisters : Obligations.ErrorsKeepTheResultRegisters := by
  intro a b i s t hi _ h herr
  simp only [List.mem_cons, List.not_mem_nil, or_false] at hi
  obtain rfl | rfl | rfl | rfl := hi
  · exact runCommand_error_sameResults h herr (.read fun _ =>
      .after (.of_within fun _ => within_rapRead _ _) fun _ => .after (.stage 2) fun _ =>
      .of_ok fun _ => ⟨_, _, rfl⟩)
  · exact runCommand_error_sameResults h herr (.read fun _ =>
      .after (sparesResults_eraRead _ _).inner fun _ => .after (.stage 2) fun _ =>
      .of_ok fun _ => ⟨_, _, rfl⟩)
  · exact runCommand_error_sameResults h herr (
      .after (.of_within fun _ => within_rapRead _ _) fun _ => .after (.stage 2) fun _ =>
      .after (SparesResults.of_within fun _ => within_clearFlags).inner fun _ => .after (.stage 3) fun _ =>
      .of_ok fun _ => ⟨_, _, rfl⟩)
  · exact runCommand_error_sameResults h herr (.read fun _ =>
      (sparesOnError_attenuationTuning _).before fun _ _ => ⟨_, _, rfl⟩)

end Sys2Proof.Machine
end

section
/-!
PROOFS. `ERA_WR` and `ERA_RD` (`42_era.md` R101 to R106): how they run to their end, time out, meet a failing
poll read, and what a failing restore of the feed bit makes of each (R177, R181, R182). An ERA write is cut at
its poll, an ERA read at its cycles; `Laws/Era.lean` and `Laws/Fail.lean` say what the parts do.
-/

namespace Sys2Proof.Machine

variable {s : State} {p : Params} {ps rs ws xs rest : List ChipReply} {w : ChipReply} {t t' feed : Byte}
  {f f' : Bool} {e : ErrKind} {A B : List Act} {c : EraTalk} {eaddr : Word16} {v : Byte}

/-! ### The commands -/

/-- `ERA_WR`, its sequence reading the operands themselves: the latches hold them when it starts (R69). -/
theorem exec_eraWr_eq (a b : Word16) (s : State) :
    exec (.eraWr a b) s = runCommand .eraWr 0x4 true a b
      (do
        inner (eraWrite a (lowByte b))
        atStage 2)
      s := by
  simp only [exec, execEraWr, runCommand, bind_run, get_run, State.accept_opa, State.accept_opb]

/-- `ERA_RD`, likewise. -/
theorem exec_eraRd_eq (a b : Word16) (s : State) :
    exec (.eraRd a b) s = runCommand .eraRd 0x3 (countLegal s.cfg.toParams b) a b
      (do
        let d ← inner (eraRead a (countOf b))
        atStage 2
        modify fun u => u.storeRead d
        atStage 4)
      s := by
  simp only [exec, execEraRd, runCommand, bind_run, get_run, State.accept_opa, State.accept_opb]

/-- `ERA_RD` with a legal count (R72). -/
theorem exec_eraRd_legal {a b : Word16} (hcount : b.toNat % 256 ≤ s.cfg.maxCount) :
    exec (.eraRd a b) s = runCommand .eraRd 0x3 true a b
      (do
        let d ← inner (eraRead a (b.toNat % 256))
        atStage 2
        modify fun u => u.storeRead d
        atStage 4)
      s := by
  rw [exec_eraRd_eq, countLegal_eq_true s.cfg hcount, countOf_eq]

/-- An `ERA_WR` whose operation raises after its trigger; the default argument sees the frames up to it. -/
theorem exec_eraWr_breaks {a b : Word16} (hbusy : s.busy = false) (hresets : s.resets = [])
    (h : Breaks s.cfg.toParams ⟨s.chip, s.tmp, s.feedSaved⟩ (eraWrite a (lowByte b)) e A ⟨rest, t', f'⟩)
    (hA : A ≠ [] := by simp [triggerActs, beginActs]) :
    ∃ t, exec (.eraWr a b) s = .next t ∧ Ended s t e ∧ t.chip = rest ∧ Sent s t A ∧ t.tmp = t' ∧
      t.feedSaved = f' ∧ SameBeyondBus s t ∧ SameBuffer s t := by
  obtain ⟨t, hrun, hended, -, hkept⟩ :=
    runCommand_breaks (op := .eraWr) (code := 0x4) (a := a) (b := b) hbusy hresets hA
      fun u hat _ _ => h.inner.bind (f := fun _ => atStage 2) u hat
  exact ⟨t, (exec_eraWr_eq a b s).trans hrun, hended, hkept⟩

/-! ### An ERA operation that runs to its end -/

/-- Settles O43. -/
theorem eraWrCompletes : Obligations.EraWrCompletes := by
  intro a b s c rs rest hbusy hresets hchip hreplies hbound
  obtain ⟨t, hrun, hended, hlatched, hrest, hsent, htmp, hfeed, hkept⟩ :=
    runCommand_does (op := .eraWr) (code := 0x4) (a := a) (b := b)
      (A := eraWriteActs s.cfg.toParams a (lowByte b) c) hbusy hresets (by simp [eraWriteActs, beginActs])
      fun u hat _ _ => (does_eraWrite hreplies hbound a (lowByte b)).inner.hush
        (f := fun _ => atStage 2) (Does.stage 2) u (hchip ▸ hat)
  exact ⟨t, (exec_eraWr_eq a b s).trans hrun, hended, hlatched, hrest, hsent, hfeed, htmp, hkept⟩

/-- Settles O44: the bytes fetched come out of the operation, and `storeRead` then puts them into the
buffer. -/
theorem eraRdCompletes : Obligations.EraRdCompletes := by
  intro a b s c rs rest hbusy hresets hcount hchip hlen hreplies hbound
  obtain ⟨u, hrun, hended, hlatched, hrest, hsent, htmp, hfeed, hbeyond, hrb, -⟩ :=
    runCommand_does_then (A := eraReadActs s.cfg.toParams a c) (fun u => u.storeRead c.data)
      (exec_eraRd_legal hcount) hbusy hresets (by simp [eraReadActs, beginActs]) (fun _ _ => rfl)
      fun u hat _ => by
        obtain ⟨v, hread, hran, hat'⟩ := (does_eraRead hreplies hbound a).inner u (hchip ▸ hat)
        rw [hlen] at hread
        exact ⟨v, _, by rw [bind_run, hread]; rfl, hran, hat'⟩
  exact ⟨_, hrun, hended, hlatched, hrest, hsent, by rw [State.storeRead_rb, hrb], rfl, hfeed, htmp, hbeyond⟩

/-! ### An ERA write, cut at its poll -/

/-- Lines 2 to 4 of `EraWrite`: the data, the address, the trigger (R102). -/
def eraStaging (eaddr : Word16) (value : Byte) : Sequence Unit := do
  atStage 2
  rapWrite regEraData value
  atStage 3
  inner (eraLoadAddr eaddr)
  atStage 4
  rapWrite regEraCtl eraWriteCode
  atStage 5

/-- `eraStaging` as the chip sees it. -/
def stagingActs (p : Params) (eaddr : Word16) (value : Byte) : List Act :=
  [Act.W p regEraData value] ++ (addrActs p eaddr ++ [Act.W p regEraCtl 0x02])

/-- Lines 2 to 6 of `EraWrite`: staging, poll, flag clear (R102). -/
def eraWriteBody (eaddr : Word16) (value : Byte) : Sequence Unit := do
  eraStaging eaddr value
  inner poll
  atStage 6
  inner clearFlags

theorem eraWrite_eq (eaddr : Word16) (value : Byte) :
    eraWrite eaddr value = eraOperation 7 (eraWriteBody eaddr value) := by
  simp only [eraWrite, eraWriteBody, eraStaging, bind_assoc]

theorem triggerActs_eq (p : Params) (eaddr : Word16) (value feed : Byte) :
    triggerActs p eaddr value feed = beginActs p feed ++ stagingActs p eaddr value := by
  simp [triggerActs, stagingActs]

theorem does_eraStaging (hlen : ws.length = 4) (hws : ∀ r ∈ ws, Answers r) :
    Does p ⟨ws ++ rest, t, f⟩ (eraStaging eaddr v) () (stagingActs p eaddr v) ⟨rest, t, f⟩ := by
  match ws, hlen with
  | [w1, w2, w3, w4], _ =>
    exact Does.quiet (Does.stage 2)
      ((does_rapWrite (hws w1 (by simp)) regEraData v).bind (Does.quiet (Does.stage 3)
      ((does_eraLoadAddr (hws w2 (by simp)) (hws w3 (by simp)) eaddr).inner.bind (Does.quiet (Does.stage 4)
      ((does_rapWrite (hws w4 (by simp)) regEraCtl eraWriteCode).hush (Does.stage 5))))))

/-- The chip's answers up to the poll, taken apart where the operation's guarded part begins (log 21). -/
theorem TriggerReplies.exists_cons (h : TriggerReplies feed rs) :
    ∃ r0 w0 ws, rs = r0 :: w0 :: ws ∧ AnswersData [feed] r0 ∧ Answers w0 ∧ ws.length = 4 ∧
      ∀ r ∈ ws, Answers r := by
  obtain ⟨r0, ws, rfl, hr0, hlen, hws⟩ := h
  match ws, hlen with
  | w0 :: ws, hlen =>
    obtain ⟨hw0, hws⟩ := List.forall_mem_cons.1 hws
    exact ⟨r0, w0, ws, rfl, hr0, hw0, Nat.succ.inj hlen, hws⟩

/-- `Poll()` with a failing read, the failure counted among the poll's answers (R104). -/
theorem breaks_poll_fail (hlen : rs.length < p.pollBound)
    (hbusy : ∀ x ∈ rs, ∃ c : Byte, c ≠ 0 ∧ AnswersData [c] x) :
    ∃ t', Breaks p ⟨rs ++ [.fail] ++ rest, t, f⟩ poll .busFailure
      (pollActs p rs.length ++ [Act.RFail p regEraCtl 1]) ⟨rest, t', f⟩ := by
  rw [← List.append_cons]
  exact breaks_poll_bus hlen hbusy

/-- A poll that raises is the end of the body: no flag clear (R102, R104). -/
theorem breaks_eraWriteBody (hlen : ws.length = 4) (hws : ∀ r ∈ ws, Answers r)
    (hpoll : Breaks p ⟨ps, t, f⟩ poll e A ⟨rest, t', f⟩) :
    Breaks p ⟨ws ++ ps, t, f⟩ (eraWriteBody eaddr v) e (stagingActs p eaddr v ++ A) ⟨rest, t', f⟩ :=
  .after (does_eraStaging hlen hws) hpoll.inner.bind

/-- An ERA write whose poll raises and whose restore, if any, succeeds (R104, R106). -/
theorem breaks_eraWrite (htrigger : TriggerReplies c.feed rs)
    (hpoll : Breaks p ⟨ps ++ (xs ++ rest), c.feed, feedBit p c.feed⟩ poll e A
      ⟨xs ++ rest, t', feedBit p c.feed⟩) (hx : RestoreReplies p c xs) :
    Breaks p ⟨rs ++ ps ++ xs ++ rest, t, f⟩ (eraWrite eaddr v) e
      (triggerActs p eaddr v c.feed ++ A ++ restoreActs p c)
      ⟨rest, if c.restores p then c.after else t', feedBit p c.feed⟩ := by
  obtain ⟨r0, w0, ws, rfl, hr0, hw0, hlen, hws⟩ := htrigger.exists_cons
  have hbody := breaks_eraWriteBody (eaddr := eaddr) (v := v) hlen hws hpoll
  rw [← List.append_assoc] at hbody
  rw [eraWrite_eq, triggerActs_eq]
  simpa only [List.append_assoc, List.cons_append] using
    breaks_eraOperation (t := t) (f := f) hr0 hw0 hbody hx

/-- An ERA write whose poll raises and whose restore fails: the error of the poll (R182). -/
theorem breaks_eraWrite_both (htrigger : TriggerReplies feed rs) (he : p.eraRestoreFeed = true)
    (hfeed : feedBit p feed = true)
    (hpoll : Breaks p ⟨ps ++ (xs ++ rest), feed, true⟩ poll e A ⟨xs ++ rest, t', true⟩)
    (hx : RestoreFails p xs B) :
    ∃ t'', Breaks p ⟨rs ++ ps ++ xs ++ rest, t, f⟩ (eraWrite eaddr v) e
      (triggerActs p eaddr v feed ++ A ++ B) ⟨rest, t'', true⟩ := by
  obtain ⟨r0, w0, ws, rfl, hr0, hw0, hlen, hws⟩ := htrigger.exists_cons
  have hbody := breaks_eraWriteBody (eaddr := eaddr) (v := v) hlen hws hpoll
  rw [← List.append_assoc] at hbody
  rw [eraWrite_eq, triggerActs_eq]
  simpa only [List.append_assoc, List.cons_append] using
    breaks_eraOperation_both (t := t) (f := f) hr0 hw0 he hfeed hbody hx

/-- An ERA write that succeeds up to its flag clear and whose restore fails: the error of the restore
(R106). -/
theorem breaks_eraWrite_restore {k : Nat} (htrigger : TriggerReplies feed rs) (he : p.eraRestoreFeed = true)
    (hfeed : feedBit p feed = true) (hpoll : PollReplies k ps) (hk : k ≤ p.pollBound) (hw : Answers w)
    (hx : RestoreFails p xs B) :
    ∃ t'', Breaks p ⟨rs ++ ps ++ w :: xs ++ rest, t, f⟩ (eraWrite eaddr v) .busFailure
      (triggerActs p eaddr v feed ++ pollActs p k ++ clearActs p ++ B) ⟨rest, t'', true⟩ := by
  obtain ⟨r0, w0, ws, rfl, hr0, hw0, hlen, hws⟩ := htrigger.exists_cons
  have hbody : Does p ⟨ws ++ (ps ++ w :: (xs ++ rest)), feed, true⟩ (eraWriteBody eaddr v) ()
      (stagingActs p eaddr v ++ (pollActs p k ++ clearActs p)) ⟨xs ++ rest, 0x00, true⟩ :=
    (does_eraStaging hlen hws).bind ((does_poll hpoll hk).inner.bind
      (Does.quiet (Does.stage 6) (does_clearFlags hw).inner))
  rw [List.append_cons ps, ← List.append_assoc] at hbody
  rw [eraWrite_eq, triggerActs_eq]
  simpa only [List.append_assoc, List.cons_append, List.nil_append] using
    breaks_eraOperation_restore (t := t) (f := f) hr0 hw0 he hfeed hbody hx

/-- Settles O45: the poll uses its bound up, and the restore is all that follows. -/
theorem eraWrTimesOut : Obligations.EraWrTimesOut := by
  intro a b s c last r1 r2 r3 rest hbusy hresets hchip htrigger hpoll hrestore
  obtain ⟨t, hrun, hended, hrest, hsent, htmp, hfeed, hkept⟩ :=
    exec_eraWr_breaks (a := a) (b := b) hbusy hresets
      (hchip ▸ breaks_eraWrite htrigger (breaks_poll hpoll) hrestore)
  exact ⟨t, hrun, hended, hrest, hsent, hfeed, htmp, hkept⟩

/-- Settles O47: the failing read comes before the bound is used up. -/
theorem pollBusFailureWins : Obligations.PollBusFailureWins := by
  intro a b s c r1 r2 r3 rest hbusy hresets hchip htrigger hlen hpoll hrestore
  obtain ⟨t', hbreaks⟩ := breaks_poll_fail hlen hpoll
  have hscript : s.chip = r1 ++ (r2 ++ [.fail]) ++ r3 ++ rest := by simpa using hchip
  obtain ⟨t, hrun, hended, hrest, hsent, htmp, hfeed, hkept⟩ :=
    exec_eraWr_breaks (a := a) (b := b) hbusy hresets
      (hscript ▸ breaks_eraWrite htrigger hbreaks hrestore)
  rw [← List.append_assoc] at hsent
  exact ⟨t, hrun, hended, hrest, hsent, hfeed, fun hx => by rw [htmp, if_pos hx], hkept⟩

/-- An `ERA_WR` whose restore fails, whatever byte that leaves in `TMP`. -/
theorem exec_eraWr_breaks_any {a b : Word16} {cs : List ChipReply} (hbusy : s.busy = false)
    (hresets : s.resets = []) (hchip : s.chip = cs)
    (h : ∃ t', Breaks s.cfg.toParams ⟨cs, s.tmp, s.feedSaved⟩ (eraWrite a (lowByte b)) e A ⟨rest, t', f'⟩)
    (hA : A ≠ [] := by simp [triggerActs, beginActs]) :
    ∃ t, exec (.eraWr a b) s = .next t ∧ Ended s t e ∧ t.chip = rest ∧ Sent s t A ∧
      SameBeyondBus s t ∧ SameBuffer s t := by
  obtain ⟨t', h⟩ := h
  obtain ⟨t, hrun, hended, hrest, hsent, -, -, hkept⟩ := exec_eraWr_breaks hbusy hresets (hchip ▸ h) hA
  exact ⟨t, hrun, hended, hrest, hsent, hkept⟩

/-- Settles O48: the restore fails after a body that ran, after a timeout, and after a failing poll read. -/
theorem restoreFailureNeverHidesAnError : Obligations.RestoreFailureNeverHidesAnError := by
  intro a b s feed r1 xs rest X hbusy hresets he hfeed htrigger hx
  refine ⟨fun k r2 w hchip hpoll hk hw => ?_, fun last r2 hchip hpoll => ?_, fun r2 hchip hlen hpoll => ?_⟩
  · exact exec_eraWr_breaks_any hbusy hresets hchip
      (breaks_eraWrite_restore htrigger he hfeed hpoll hk hw hx)
  · exact exec_eraWr_breaks_any hbusy hresets hchip
      (breaks_eraWrite_both htrigger he hfeed (breaks_poll hpoll) hx)
  · obtain ⟨t', hbreaks⟩ := breaks_poll_fail hlen hpoll
    have hscript : s.chip = r1 ++ (r2 ++ [.fail]) ++ xs ++ rest := by simpa using hchip
    obtain ⟨t, hrun, hended, hrest, hsent, hkept⟩ :=
      exec_eraWr_breaks_any hbusy hresets hscript
        (breaks_eraWrite_both htrigger he hfeed hbreaks hx)
    rw [← List.append_assoc] at hsent
    exact ⟨t, hrun, hended, hrest, hsent, hkept⟩

/-! ### An ERA read, cut at its cycles -/

/-- One cycle of line 3 of `EraRead`: trigger, poll, fetch, clear (R103). -/
def eraCycle (i : Nat) : Sequence Byte := do
  setIdx i
  atStage 3 1
  rapWrite regEraCtl eraReadCode
  atStage 3 2
  inner poll
  atStage 3 3
  let b ← rapReadByte regEraData
  atStage 3 4
  inner clearFlags
  return b

theorem eraCycles_succ (left i : Nat) :
    eraCycles (left + 1) i = (do
      let b ← eraCycle i
      let rest ← eraCycles left (i + 1)
      return b :: rest) := by
  simp only [eraCycles, eraCycle, bind_assoc, pure_bind]

theorem does_eraCycle {k : Nat} {fetch clear : ChipReply} (hw : Answers w) (hpoll : PollReplies k ps)
    (hk : k ≤ p.pollBound) (hfetch : AnswersData [v] fetch) (hclear : Answers clear) (i : Nat) :
    Does p ⟨w :: (ps ++ fetch :: clear :: rest), t, f⟩ (eraCycle i) v
      ([Act.W p regEraCtl 0x05] ++ (pollActs p k ++ ([Act.R p regEraData 1] ++ clearActs p)))
      ⟨rest, 0x00, f⟩ :=
  Does.quiet (Does.idx i) (Does.quiet (Does.stage 3) ((does_rapWrite hw regEraCtl eraReadCode).bind
    (Does.quiet (Does.stage 3) ((does_poll hpoll hk).inner.bind (Does.quiet (Does.stage 3)
    ((does_rapReadByte hfetch regEraData).bind (Does.quiet (Does.stage 3)
    ((does_clearFlags hclear).inner.hush (Does.ret v)))))))))

/-- A cycle whose poll raises: no fetch, no flag clear. -/
theorem breaks_eraCycle (hw : Answers w) (hpoll : Breaks p ⟨ps, t, f⟩ poll e A ⟨rest, t', f⟩) (i : Nat) :
    Breaks p ⟨w :: ps, t, f⟩ (eraCycle i) e ([Act.W p regEraCtl 0x05] ++ A) ⟨rest, t', f⟩ :=
  Breaks.quiet (Does.idx i) (Breaks.quiet (Does.stage 3)
    (.after (does_rapWrite hw regEraCtl eraReadCode) (Breaks.quiet (Does.stage 3) hpoll.inner.bind)))

/-- Whole cycles, and one more that raises: the bytes fetched are lost (R103, R105). -/
theorem breaks_eraCycles {ks : List Nat} {d : List Byte} {n : Nat} (hcycles : CycleReplies ks d rs)
    (hks : ∀ k ∈ ks, k ≤ p.pollBound) (hn : d.length < n) (hw : Answers w)
    (hpoll : ∀ t, Breaks p ⟨ps, t, f⟩ poll e A ⟨rest, t', f⟩) (i : Nat) :
    Breaks p ⟨rs ++ w :: ps, t, f⟩ (eraCycles n i) e
      (cyclesActs p ks ++ ([Act.W p regEraCtl 0x05] ++ A)) ⟨rest, t', f⟩ := by
  induction ks generalizing rs d t n i with
  | nil =>
    match d, n, hcycles with
    | [], n + 1, hrs =>
      obtain rfl : rs = [] := hrs
      rw [eraCycles_succ]
      exact (breaks_eraCycle hw (hpoll t) i).bind
  | cons k ks ih =>
    match d, n, hcycles with
    | v :: d, n + 1, ⟨w', ps', fetch, clear, more, hrs, hw', hps', hfetch, hclear, hmore⟩ =>
      subst hrs
      obtain ⟨hk, hks⟩ := List.forall_mem_cons.1 hks
      have later := ih (t := 0x00) hmore hks (Nat.lt_of_succ_lt_succ hn) (i + 1)
      rw [eraCycles_succ, List.append_assoc, List.cons_append, List.cons_append]
      exact (Breaks.after (does_eraCycle hw' hps' hk hfetch hclear i) later.bind).acts (by simp [cyclesActs])

/-- An ERA read whose poll raises after whole cycles, and whose restore, if any, succeeds (R105, R106). -/
theorem breaks_eraRead {r0 : ChipReply} {cs : List ChipReply} {n : Nat} (hr0 : AnswersData [c.feed] r0)
    (hlen : ws.length = 3) (hws : ∀ r ∈ ws, Answers r) (hcycles : CycleReplies c.polls c.data cs)
    (hbound : c.InBound p) (hn : c.data.length < n) (hw : Answers w)
    (hpoll : ∀ t, Breaks p ⟨ps ++ (xs ++ rest), t, feedBit p c.feed⟩ poll e A
      ⟨xs ++ rest, t', feedBit p c.feed⟩) (hx : RestoreReplies p c xs) :
    Breaks p ⟨r0 :: ws ++ cs ++ w :: ps ++ xs ++ rest, t, f⟩ (eraRead eaddr n) e
      (beginActs p c.feed ++ addrActs p eaddr ++ cyclesActs p c.polls ++ [Act.W p regEraCtl 0x05] ++ A ++
        restoreActs p c)
      ⟨rest, if c.restores p then c.after else t', feedBit p c.feed⟩ := by
  match ws, hlen with
  | [w0, w1, w2], _ =>
    have hbody : Breaks p ⟨(w1 :: w2 :: (cs ++ w :: ps)) ++ (xs ++ rest), c.feed, feedBit p c.feed⟩
        (do
          atStage 2
          inner (eraLoadAddr eaddr)
          atStage 3
          eraCycles n 0) e
        (addrActs p eaddr ++ (cyclesActs p c.polls ++ ([Act.W p regEraCtl 0x05] ++ A)))
        ⟨xs ++ rest, t', feedBit p c.feed⟩ := by
      simp only [List.cons_append, List.append_assoc]
      exact Breaks.quiet (Does.stage 2)
        (.after (does_eraLoadAddr (hws w1 (by simp)) (hws w2 (by simp)) eaddr).inner
          (Breaks.quiet (Does.stage 3) (breaks_eraCycles hcycles hbound hn hw hpoll 0)))
    unfold eraRead
    simpa only [List.append_assoc, List.cons_append, List.nil_append] using
      breaks_eraOperation (t := t) (f := f) hr0 (hws w0 (by simp)) hbody hx

/-- Settles O46: the cycles raise before the step that would store the bytes. -/
theorem eraRdTimeoutDeliversNothing : Obligations.EraRdTimeoutDeliversNothing := by
  intro a b s c last r0 w ws cs ps xs rest hbusy hresets hcount hn hchip hr0 hlen hws hcycles hbound hw hpoll
    hrestore
  obtain ⟨t, hrun, hended, -, hrest, hsent, htmp, hfeed, hkept⟩ :=
    runCommand_breaks (op := .eraRd) (code := 0x3) (a := a) (b := b) hbusy hresets
      (by simp [beginActs]) fun u hat _ _ =>
        (breaks_eraRead (eaddr := a) hr0 hlen hws hcycles hbound hn hw (fun _ => breaks_poll hpoll)
          hrestore).inner.bind u (hchip ▸ hat)
  exact ⟨t, (exec_eraRd_legal hcount).trans hrun, hended, hrest, hsent, hfeed, htmp, hkept⟩

end Sys2Proof.Machine
end

section
/-!
PROOFS. How many frames an instruction sends at most, whatever the chip answers and whenever a reset strikes
(`42_era.md` R104, `91_timing_annex.md` R214): the bounds of the bus procedures are those of `Within`; here
they are added up along the sequences.
-/

namespace Sys2Proof.Machine

variable {α β : Type} {s t u v : State} {c : Config} {n k : Nat}

/-! ### Traces that grow by a bounded number of frames -/

/-- From `s` to `u` the trace grew by at most `n` frames, under the same configuration. -/
def Grew (n : Nat) (s u : State) : Prop :=
  u.cfg = s.cfg ∧ ∃ ev, u.trace = s.trace ++ ev ∧ frameCount ev ≤ n

theorem Grew.trans (h1 : Grew n s u) (h2 : Grew k u v) : Grew (n + k) s v := by
  obtain ⟨hcfg, ev, htrace, hcount⟩ := h1
  obtain ⟨hcfg', ev', htrace', hcount'⟩ := h2
  exact ⟨hcfg'.trans hcfg, ev ++ ev', by rw [htrace', htrace, List.append_assoc],
    by rw [frameCount_append]; exact Nat.add_le_add hcount hcount'⟩

theorem Grew.mono (h : Grew n s u) (hk : n ≤ k) : Grew k s u := by
  obtain ⟨hcfg, ev, htrace, hcount⟩ := h
  exact ⟨hcfg, ev, htrace, hcount.trans hk⟩

/-- Events that are no exchange. -/
theorem Grew.unframed {ev : List BusEvent} (hcfg : u.cfg = s.cfg) (htrace : u.trace = s.trace ++ ev)
    (hev : frameCount ev = 0) : Grew 0 s u :=
  ⟨hcfg, ev, htrace, hev.le⟩

theorem Trail.grew (h : Trail n s u) (hcfg : u.cfg = s.cfg) : Grew n s u := by
  obtain ⟨ev, htrace, hcount, -⟩ := h
  exact ⟨hcfg, ev, htrace, hcount⟩

theorem Moved.grew (h : Moved n s u) : Grew n s u := by
  obtain ⟨-, -, htrail⟩ := id h
  exact htrail.grew h.cfg

theorem Wiped.grew (h : Wiped n s u) : Grew n s u := by
  obtain ⟨⟨tr, ch, rs, rfl⟩, -, htrail⟩ := h
  exact htrail.grew rfl

/-! ### Sequences that send a bounded number of frames -/

/-- Under the configuration `c`, `m` sends at most `n` frames, however it ends. -/
def Sends (c : Config) (n : Nat) (m : Sequence α) : Prop := ∀ s, s.cfg = c → Grew n s (endState (m s))

namespace Sends

theorem bind {m : Sequence α} {f : α → Sequence β} (hm : Sends c n m) (hf : ∀ a, Sends c k (f a)) :
    Sends c (n + k) (m >>= f) := by
  intro s hs
  have h1 := hm s hs
  rw [bind_run]
  match hms : m s with
  | .error e u => rw [hms] at h1; exact h1.mono (Nat.le_add_right n k)
  | .ok a u =>
    rw [hms] at h1
    obtain ⟨hcfg, -⟩ := id h1
    exact h1.trans (hf a u (hcfg.trans hs))

theorem mono {m : Sequence α} (h : Sends c n m) (hk : n ≤ k) : Sends c k m :=
  fun s hs => (h s hs).mono hk

/-- A write of registers, which the default argument sees. -/
theorem write {f : State → State}
    (hf : ∀ s, Grew 0 s (f s) := by
      exact fun _ => Grew.unframed rfl (List.append_nil _).symm rfl) : Sends c 0 (modify f) :=
  fun s _ => hf s

theorem ret (a : α) : Sends c 0 (pure a) :=
  fun s _ => Grew.unframed rfl (List.append_nil s.trace).symm rfl

theorem raise (e : ErrKind) : Sends c 0 (Machine.raise e : Sequence α) :=
  fun s _ => Grew.unframed rfl (List.append_nil s.trace).symm rfl

/-- `bind` after a step that sends nothing. -/
theorem quiet {m : Sequence α} {f : α → Sequence β} (hm : Sends c 0 m) (hf : ∀ a, Sends c n (f a)) :
    Sends c n (m >>= f) :=
  (hm.bind hf).mono (Nat.zero_add n).le

/-- `bind` before a step that sends nothing. -/
theorem hush {m : Sequence α} {f : α → Sequence β} (hm : Sends c n m) (hf : ∀ a, Sends c 0 (f a)) :
    Sends c n (m >>= f) :=
  hm.bind hf

theorem read {f : State → Sequence β} (hf : ∀ s, s.cfg = c → Sends c n (f s)) :
    Sends c n (get >>= f) := by
  intro s hs
  rw [bind_run]
  exact hf s hs s hs

theorem tmp (b : Byte) : Sends c 0 (setTmp b) := write

theorem stage (line : Nat) {part : Nat} : Sends c 0 (atStage line part) := write

theorem idx (i : Nat) : Sends c 0 (setIdx i) := write

theorem inner {m : Sequence α} (h : Sends c n m) : Sends c n (inner m) := by
  unfold Machine.inner
  exact quiet write fun _ => h.hush fun a => quiet write fun _ => ret a

/-- A bus procedure, by what it keeps whatever the chip answers. -/
theorem of_within {m : Sequence α} {E : ErrKind → Prop} (h : ∀ s, s.cfg = c → Within n E m s) :
    Sends c n m := by
  intro s hs
  have hm := h s hs
  unfold Within at hm
  match hms : m s with
  | .ok a u => simp only [hms] at hm; exact hm.grew
  | .error (.raised e) u => simp only [hms] at hm; exact hm.2.grew
  | .error .reset u => simp only [hms] at hm; exact hm.grew

end Sends

/-! ### The procedures -/

theorem sends_rapRead (a : RegAddr) (count : Nat) : Sends c 1 (rapRead a count) :=
  .of_within fun _ _ => within_rapRead a count

theorem sends_rapWrite (a : RegAddr) (b : Byte) : Sends c 1 (rapWrite a b) :=
  .of_within fun _ _ => within_rapWrite a b

theorem sends_clearFlags : Sends c 1 clearFlags := .of_within fun _ _ => within_clearFlags

theorem sends_setFeed (enable : Bool) : Sends c 2 (setFeed enable) :=
  .of_within fun _ _ => within_setFeed enable

theorem sends_poll : Sends c c.pollBound poll := .of_within fun _ hs => hs ▸ within_poll

theorem sends_eraWrite (eaddr : Word16) (b : Byte) :
    Sends c (eraWriteBound c.toParams) (eraWrite eaddr b) :=
  .of_within fun _ hs => hs ▸ within_eraWrite eaddr b

theorem sends_eraRead (eaddr : Word16) (count : Nat) :
    Sends c (eraReadBound c.toParams count) (eraRead eaddr count) :=
  .of_within fun _ hs => hs ▸ within_eraRead eaddr count

/-- Read, write, read again (R150). -/
theorem sends_attenuationTuning (gain : Byte) :
    Sends c (2 * eraReadBound c.toParams 1 + eraWriteBound c.toParams) (attenuationTuning gain) := by
  refine .mono (.read fun _ _ => (sends_eraRead _ 1).inner.bind fun _ => .quiet (.tmp _) fun _ =>
    .quiet (.stage 2) fun _ => .quiet (.stage 3) fun _ => (sends_eraWrite _ _).inner.bind fun _ =>
    .quiet (.stage 4) fun _ => (sends_eraRead _ 1).inner.hush fun _ => .quiet (.stage 5) fun _ => .write) ?_
  omega

/-- Two writes (R151). -/
theorem sends_edgeTuning : Sends c (2 * eraWriteBound c.toParams) edgeTuning := by
  refine .mono (.read fun _ _ => (sends_eraWrite _ _).inner.bind fun _ => .quiet (.stage 2) fun _ =>
    (sends_eraWrite _ _).inner) ?_
  omega

/-- One frame per entry (R152). -/
theorem sends_baseWrites : ∀ (l : List (RegAddr × Byte)) (j : Nat), Sends c l.length (baseWrites l j)
  | [], _ => .ret ()
  | (a, b) :: l, j =>
    .quiet (.idx j) fun _ => ((sends_rapWrite a b).bind fun _ => sends_baseWrites l (j + 1)).mono
      (Nat.add_comm ..).le

theorem sends_baseCfg (hs : s.cfg = c) : Sends c c.baseCfg.length (baseWrites s.cfg.baseCfg 0) :=
  hs ▸ sends_baseWrites s.cfg.baseCfg 0

/-- `IND(level)` is no frame, and neither is the `SEL(0)` of a reset (R9, R201). -/
theorem sends_emit_ind (level : Bool) : Sends c 0 (emit (.ind level)) := by
  intro s _
  unfold emit
  match s.resets with
  | [] => exact .unframed rfl rfl rfl
  | 0 :: later => exact .unframed rfl rfl (by split <;> rfl)
  | (m + 1) :: later => exact .unframed rfl rfl rfl

/-! ### The instructions -/

theorem endWith_grew (e : ErrKind) : Grew 0 s (s.endWith e) :=
  .unframed rfl (List.append_nil s.trace).symm rfl

theorem finish_grew (r : EStateM.Result Abort State Unit) : Grew 0 (endState r) (finish r) := by
  match r with
  | .ok _ u => exact endWith_grew .none
  | .error (.raised e) u => exact endWith_grew e
  | .error .reset u => exact .unframed rfl (List.append_nil u.trace).symm rfl

theorem finishStage_grew (r : EStateM.Result Abort State Unit) : Grew 0 (endState r) (finishStage r) := by
  match r with
  | .ok _ u => exact .unframed rfl (List.append_nil u.trace).symm rfl
  | .error (.raised e) u => exact endWith_grew e
  | .error .reset u => exact .unframed rfl (List.append_nil u.trace).symm rfl

/-- Acceptance, the end of a command and a refusal send nothing. -/
theorem runCommand_grew {op : SeqOp} {code : BitVec 4} {legal : Bool} {a b : Word16} {body : Sequence Unit}
    (h : runCommand op code legal a b body s = .next t) (hbody : Sends s.cfg n body) : Grew n s t := by
  obtain ⟨-, ⟨-, rfl⟩ | ⟨-, rfl⟩⟩ := runCommand_cases h
  · exact (hbody (s.accept op code a b) rfl).trans (finish_grew _)
  · exact (endWith_grew _).mono (Nat.zero_le n)

theorem runStage_grew {body : Sequence Unit} (h : runStage body s = .next t) (hbody : Sends s.cfg n body) :
    Grew n s t := by
  obtain ⟨-, rfl⟩ := runStage_cases h
  exact (hbody s rfl).trans (finishStage_grew _)

/-- Every instruction keeps the configuration and sends at most its bound of frames. -/
theorem exec_grew {i : Instr} (h : exec i s = .next t) : Grew (frameBound s.cfg.toParams i) s t := by
  cases i with
  | nop a b => exact runCommand_grew h (.ret ())
  | rapRd a b =>
    exact runCommand_grew h (.read fun _ _ => (sends_rapRead _ _).hush fun _ => .quiet (.stage 2) fun _ =>
      .quiet .write fun _ => .stage 4)
  | rapWr a b => exact runCommand_grew h (.read fun _ _ => (sends_rapWrite _ _).hush fun _ => .stage 2)
  | eraRd a b =>
    rw [exec_eraRd_eq] at h
    exact runCommand_grew h ((sends_eraRead _ _).inner.hush fun _ => .quiet (.stage 2) fun _ =>
      .quiet .write fun _ => .stage 4)
  | eraWr a b => exact runCommand_grew h (.read fun _ _ => (sends_eraWrite _ _).inner.hush fun _ => .stage 2)
  | clrFlags a b => exact runCommand_grew h sends_clearFlags
  | setFeed a b => exact runCommand_grew h (.read fun _ _ => sends_setFeed _)
  | getAbs a b =>
    exact runCommand_grew h ((sends_rapRead _ _).bind fun _ => .quiet (.stage 2) fun _ =>
      sends_clearFlags.inner.hush fun _ => .quiet (.stage 3) fun _ => .quiet .write fun _ =>
      .quiet (.stage 4) fun _ => .quiet .write fun _ => .stage 8)
  | clip a b => exact runCommand_grew h .write
  | scale a b =>
    exact runCommand_grew h (.quiet .write fun _ => .quiet (.stage 2) fun _ => .quiet .write fun _ => .stage 5)
  | chkHover a b =>
    refine runCommand_grew h (.read fun _ _ => .quiet (.stage 2) fun _ => ?_)
    split
    · exact .raise _
    · exact .quiet .write fun _ => .stage 5
  | setAtten a b =>
    exact runCommand_grew h (.read fun _ _ => (sends_attenuationTuning _).hush fun _ => .stage 6)
  | tuneEdge a b => exact runCommand_grew h (sends_edgeTuning.hush fun _ => .stage 3)
  | init a b =>
    refine runCommand_grew h (.mono (sends_clearFlags.inner.bind fun _ => .quiet (.stage 2) fun _ =>
      .read fun u hu => (sends_baseCfg hu).bind fun _ => .quiet (.idx 0) fun _ =>
      .quiet (.stage 3) fun _ => (sends_attenuationTuning _).inner.bind fun _ => .quiet (.stage 4) fun _ =>
      sends_edgeTuning.inner.hush fun _ => .stage 5) ?_)
    simp only [frameBound]
    omega
  | setInd a b => exact runCommand_grew h (.read fun _ _ => .quiet .write fun _ => sends_emit_ind _)
  | reservedF a b => exact runCommand_grew h (.ret ())
  | frameRapRead a count => exact runStage_grew h ((sends_rapRead a count).hush fun _ => .ret ())
  | frameRapWrite a b => exact runStage_grew h (sends_rapWrite a b)
  | eraCodeWrite => exact runStage_grew h (sends_rapWrite _ _)
  | eraCodeRead => exact runStage_grew h (sends_rapWrite _ _)
  | eraCodeDone => exact runStage_grew h sends_poll

/-- Settles O58. -/
theorem framesAreBounded : Obligations.FramesAreBounded := by
  intro i s t h
  obtain ⟨-, hgrew⟩ := exec_grew h
  exact hgrew

end Sys2Proof.Machine
end

section
/-!
PROOFS. Flag clear and feed control over the bus (`43_feed_flags.md` R115, R116): the flag clear that fails, and
`SET_FEED` in each of the three ways its read and its write can go (R176, R181).
-/

namespace Sys2Proof.Machine

variable {s : State} {a b : Word16} {rest : List ChipReply} {A : List Act} {e : ErrKind} {t' : Byte}
  {f' : Bool}

/-! ### `CLR_FLAGS` -/

/-- Settles O38: the settle delay stands after the write that raised, so it does not run. -/
theorem clrFlagsFailureHasNoSettle : Obligations.ClrFlagsFailureHasNoSettle := by
  intro a b s rest hbusy hresets hchip
  obtain ⟨t, hrun, hended, -, hrest, hsent, htmp, hfeed, hbeyond, hbuffer⟩ :=
    runCommand_breaks (op := .clrFlags) (code := 0x5) (a := a) (b := b) hbusy hresets
      (List.cons_ne_nil _ _) fun u hat _ _ => breaks_clearFlags u (hchip ▸ hat)
  exact ⟨t, hrun, hended, hrest, hsent, hbeyond, hbuffer, htmp, hfeed⟩

/-! ### `SET_FEED` -/

/-- The operand of `SET_FEED` is bit 0 of `b`, latched at acceptance (R69, R116). -/
theorem exec_setFeed_eq (a b : Word16) (s : State) :
    exec (.setFeed a b) s = runCommand .setFeed 0x6 true a b (setFeed (b.getLsbD 0)) s := by
  simp only [exec, execSetFeed, flagOf, runCommand, bind_run, get_run, State.accept_opb]

/-- A `SET_FEED` whose one procedure raises ends with that error where the procedure left off (R180). -/
theorem exec_setFeed_breaks (hbusy : s.busy = false) (hresets : s.resets = []) (hA : A ≠ [])
    (h : Breaks s.cfg.toParams ⟨s.chip, s.tmp, s.feedSaved⟩ (setFeed (b.getLsbD 0)) e A ⟨rest, t', f'⟩) :
    ∃ t, exec (.setFeed a b) s = .next t ∧ Ended s t e ∧ t.chip = rest ∧ Sent s t A ∧ t.tmp = t' ∧
      t.feedSaved = f' ∧ SameBeyondBus s t ∧ SameBuffer s t := by
  obtain ⟨t, hrun, hended, -, hkept⟩ :=
    runCommand_breaks (op := .setFeed) (code := 0x6) (a := a) (b := b) hbusy hresets hA fun u hat _ _ => h u hat
  exact ⟨t, (exec_setFeed_eq a b s).trans hrun, hended, hkept⟩

/-- Settles O39: the read and the write of `SetFeed` are the whole command. -/
theorem setFeedCompletes : Obligations.SetFeedCompletes := by
  intro a b s old r w rest hbusy hresets hchip hdata hanswers
  obtain ⟨t, hrun, hended, hlatched, hrest, hsent, hkept⟩ :=
    runCommand_does (op := .setFeed) (code := 0x6) (a := a) (b := b) hbusy hresets (List.cons_ne_nil _ _)
      fun u hat _ _ => does_setFeed hdata hanswers (b.getLsbD 0) u (hchip ▸ hat)
  exact ⟨t, (exec_setFeed_eq a b s).trans hrun, hended, hlatched, hrest, hsent, hkept⟩

/-- Settles O40: `TMP` is written between the read and the write, so only a failing write finds it changed. -/
theorem setFeedFailures : Obligations.SetFeedFailures := by
  intro a b s rest hbusy hresets
  constructor
  · intro hchip
    obtain ⟨t, hrun, hended, hrest, hsent, htmp, hfeed, hbeyond, hbuffer⟩ :=
      exec_setFeed_breaks (a := a) hbusy hresets (List.cons_ne_nil _ _)
        (hchip ▸ breaks_setFeed_read (b.getLsbD 0))
    exact ⟨t, hrun, hended, hrest, hsent, hbeyond, hbuffer, htmp, hfeed⟩
  · intro old r hchip hdata
    exact exec_setFeed_breaks hbusy hresets (List.cons_ne_nil _ _)
      (hchip ▸ breaks_setFeed_write hdata (b.getLsbD 0))

end Sys2Proof.Machine
end

section
/-!
PROOFS. The sample pipeline off the bus (`44_sample_pipeline.md` R126, R130 to R136): the packed decoder, the
clamp, the scaler and the zone lookup as functions, then `CLIP`, `SCALE` and `CHK_HOVER`, which apply them to the
registers; and `GET_ABS` when one of its two frames fails (R125, R181).
-/

namespace Sys2Proof.Machine

variable {s : State} {v w lo hi : Coord}

/-! ### The packed decoder -/

/-- The low six bits of a byte are what its mask keeps (R126). -/
theorem low_six_toNat (d : Byte) : (d.extractLsb' 0 6).toNat = (d &&& 0x3F).toNat := by
  rw [BitVec.extractLsb'_toNat, Nat.shiftRight_zero, BitVec.toNat_and]
  exact (Nat.and_two_pow_sub_one_eq_mod d.toNat 6).symm

/-- Bits 7:6 do not reach a field of six bits. -/
theorem low_six_congr {d e : Byte} (h : e &&& 0x3F = d &&& 0x3F) :
    e.extractLsb' 0 6 = d.extractLsb' 0 6 := by
  apply BitVec.eq_of_toNat_eq
  rw [low_six_toNat, low_six_toNat, h]

/-- A nibble above a byte, as the rule writes it: shifted and OR'd in (R126). -/
theorem nibble_append_byte (n : BitVec 4) (d : Byte) :
    n ++ d = d.setWidth 12 ||| (n.setWidth 12 <<< 8) := by
  rw [BitVec.append_def, BitVec.shiftLeftZeroExtend_eq, BitVec.setWidth'_eq, BitVec.or_comm]

/-- The low nibble of a byte is what its mask keeps. -/
theorem low_nibble_setWidth (d : Byte) :
    (d.extractLsb' 0 4).setWidth 12 = (d &&& 0x0F).setWidth 12 := by
  apply BitVec.eq_of_toNat_eq
  rw [BitVec.toNat_setWidth, BitVec.toNat_setWidth, BitVec.extractLsb'_toNat, Nat.shiftRight_zero,
    BitVec.toNat_and]
  exact congrArg (· % 2 ^ 12) (Nat.and_two_pow_sub_one_eq_mod d.toNat 4).symm

/-- Bit `k` of the mask 0xF0 of R126. -/
theorem highNibbleMask_bit (k : Fin 8) : (0xF0 : Byte).getLsbD k = decide (4 ≤ k.val) := by
  revert k
  decide

/-- The masked high nibble stands at bit 4 already, which is why the rule shifts it by 4 and not by 8. -/
theorem high_nibble_setWidth (d : Byte) :
    (d.extractLsb' 4 4).setWidth 12 <<< 4 = (d &&& 0xF0).setWidth 12 := by
  apply BitVec.eq_of_getLsbD_eq
  intro k hk
  rw [BitVec.getLsbD_shiftLeft, BitVec.getLsbD_setWidth, BitVec.getLsbD_setWidth, BitVec.getLsbD_extractLsb',
    BitVec.getLsbD_and]
  obtain hk8 | hk8 := Nat.lt_or_ge k 8
  · rw [highNibbleMask_bit ⟨k, hk8⟩]
    obtain hk4 | hk4 := Nat.lt_or_ge k 4
    · simp [hk4]
    · obtain ⟨j, rfl⟩ := Nat.exists_eq_add_of_le hk4
      have hj : j < 4 := Nat.lt_of_add_lt_add_left hk8
      have hj' : j < 12 := by omega
      simp [hk, hj, hj']
  · have hnibble : ¬ k - 4 < 4 := by omega
    simp [hnibble, BitVec.getLsbD_of_ge d k hk8]

/-- `x_pos` of R126. -/
theorem low_nibble_append (d lowest : Byte) :
    d.extractLsb' 0 4 ++ lowest = lowest.setWidth 12 ||| ((d &&& 0x0F).setWidth 12 <<< 8) := by
  rw [nibble_append_byte, low_nibble_setWidth]

/-- `y_pos` of R126. -/
theorem high_nibble_append (d lowest : Byte) :
    d.extractLsb' 4 4 ++ lowest = lowest.setWidth 12 ||| ((d &&& 0xF0).setWidth 12 <<< 4) := by
  rw [nibble_append_byte, ← high_nibble_setWidth, BitVec.shiftLeft_add _ 4 4]

/-- Settles O28. -/
theorem decodeUnpacksTheBlock : Obligations.DecodeUnpacksTheBlock := by
  intro d0 d1 d2 d3 d4 d5 v
  refine ⟨low_six_toNat d0, low_nibble_append d4 d2, high_nibble_append d4 d3, low_six_toNat d5, ?_, by decide⟩
  intro e0 e1 e5 h0 h5
  have hbtn : e0.extractLsb' 0 6 = d0.extractLsb' 0 6 := low_six_congr h0
  have hz : e5.extractLsb' 0 6 = d5.extractLsb' 0 6 := low_six_congr h5
  simp [v, decodeBlock, byteAt, hbtn, hz]

/-! ### The clamp -/

theorem clamp_of_lt (h : v.toNat < lo.toNat) : clamp v lo hi = lo := if_pos h

theorem clamp_of_gt (hle : lo.toNat ≤ hi.toNat) (h : hi.toNat < v.toNat) : clamp v lo hi = hi :=
  (if_neg (Nat.not_lt.2 (hle.trans h.le))).trans (if_pos h)

theorem clamp_of_mem (hlo : lo.toNat ≤ v.toNat) (hhi : v.toNat ≤ hi.toNat) : clamp v lo hi = v :=
  (if_neg (Nat.not_lt.2 hlo)).trans (if_neg (Nat.not_lt.2 hhi))

/-- Settles O30: clamping again finds a value inside the window. -/
theorem clampStaysInTheWindow : Obligations.ClampStaysInTheWindow := by
  intro v lo hi hle
  obtain ⟨hlo, hhi⟩ := clamp_bounds (v := v) hle
  exact ⟨clamp_of_lt, clamp_of_gt hle, clamp_of_mem, hlo, hhi, clamp_of_mem hlo hhi, fun _ => ⟨rfl, rfl⟩⟩

/-! ### The scaler -/

/-- The largest product is that of a full-width offset and a full-width resolution (R135). -/
theorem scale_product_le (v lo : Coord) (res : Word16) :
    (v.toNat - lo.toNat) * res.toNat ≤ 268365825 :=
  calc (v.toNat - lo.toNat) * res.toNat
      ≤ 4095 * 65535 := Nat.mul_le_mul (by omega) (by omega)
    _ = 268365825 := rfl

/-- The scaler is monotone: both quotients have one divisor (R135). -/
theorem scaleAxis_mono (res : Word16) (h : lo.toNat < hi.toNat) (hvw : v.toNat ≤ w.toNat)
    (hw : w.toNat ≤ hi.toNat) : (scaleAxis v lo hi res).toNat ≤ (scaleAxis w lo hi res).toNat := by
  rw [scaleAxis_toNat res h (hvw.trans hw), scaleAxis_toNat res h hw]
  exact Nat.div_le_div_right (Nat.mul_le_mul_right _ (Nat.sub_le_sub_right hvw _))

theorem scaleAxis_lower (lo hi : Coord) (res : Word16) : scaleAxis lo lo hi res = 0 := by
  simp [scaleAxis]

theorem scaleAxis_upper (res : Word16) (h : lo.toNat < hi.toNat) : scaleAxis hi lo hi res = res := by
  apply BitVec.eq_of_toNat_eq
  rw [scaleAxis_toNat res h le_rfl]
  exact Nat.mul_div_cancel_left _ (Nat.sub_pos_of_lt h)

theorem scaleAxis_zero (v lo hi : Coord) : scaleAxis v lo hi 0 = 0 := by
  simp [scaleAxis]

/-- Settles O31: the bound by the resolution is monotonicity up to the upper end of the window. -/
theorem scalerIsExactAndBounded : Obligations.ScalerIsExactAndBounded := by
  intro lo hi v w res h _ hvw hw
  have hmax : (scaleAxis v lo hi res).toNat ≤ res.toNat :=
    (scaleAxis_mono res h (hvw.trans hw) le_rfl).trans_eq (congrArg _ (scaleAxis_upper res h))
  exact ⟨scaleAxis_toNat res h (hvw.trans hw), scale_product_le v lo res, hmax, scaleAxis_mono res h hvw hw,
    scaleAxis_lower lo hi res, scaleAxis_upper res h, scaleAxis_zero v lo hi⟩

/-! ### What a configuration says of the window and the map (R6) -/

theorem config_window (c : Config) :
    c.xLower.toNat < c.xUpper.toNat ∧ c.yLower.toNat < c.yUpper.toNat := by
  obtain ⟨-, -, -, -, hwindow, -⟩ := c.wf
  exact hwindow

/-- The map reaches the zone of each upper bound of the window. -/
theorem config_map_covers_window (c : Config) :
    c.xUpper.toNat / c.zoneScale < c.mapCols ∧ c.yUpper.toNat / c.zoneScale < c.mapRows := by
  obtain ⟨-, -, -, -, -, ⟨-, hmap⟩, -⟩ := c.wf
  exact hmap

/-! ### The zone lookup -/

theorem zoneThreshold_outside {p : Params} {x y : Coord}
    (h : p.mapCols ≤ x.toNat / p.zoneScale ∨ p.mapRows ≤ y.toNat / p.zoneScale) :
    zoneThreshold p x y = none := if_pos h

theorem zoneThreshold_inside {p : Params} {x y : Coord} (hx : x.toNat / p.zoneScale < p.mapCols)
    (hy : y.toNat / p.zoneScale < p.mapRows) :
    zoneThreshold p x y =
      some ((p.zhMap.getD (y.toNat / p.zoneScale) []).getD (x.toNat / p.zoneScale) 0) :=
  if_neg (not_or.2 ⟨Nat.not_le.2 hx, Nat.not_le.2 hy⟩)

theorem zoneThreshold_entry {p : Params} {x y : Coord} {row : List Nat} {th : Nat}
    (hx : x.toNat / p.zoneScale < p.mapCols) (hy : y.toNat / p.zoneScale < p.mapRows)
    (hrow : p.zhMap[y.toNat / p.zoneScale]? = some row) (hth : row[x.toNat / p.zoneScale]? = some th) :
    zoneThreshold p x y = some th := by
  rw [zoneThreshold_inside hx hy]
  simp only [List.getD_eq_getElem?_getD, hrow, hth, Option.getD_some]

/-- A clipped position lies in the map, so its zone has a threshold (R136). -/
theorem zoneThreshold_clipped (c : Config) (x y : Coord) :
    ∃ th, zoneThreshold c.toParams (clipX c.toParams x) (clipY c.toParams y) = some th := by
  obtain ⟨hxwindow, hywindow⟩ := config_window c
  obtain ⟨hcols, hrows⟩ := config_map_covers_window c
  have hx : (clipX c.toParams x).toNat ≤ c.xUpper.toNat := (clamp_bounds hxwindow.le).2
  have hy : (clipY c.toParams y).toNat ≤ c.yUpper.toNat := (clamp_bounds hywindow.le).2
  exact ⟨_, zoneThreshold_inside ((Nat.div_le_div_right hx).trans_lt hcols)
    ((Nat.div_le_div_right hy).trans_lt hrows)⟩

/-! ### The commands off the bus: the register update between acceptance and end -/

theorem exec_clip_eq (a b : Word16) (hbusy : s.busy = false) :
    exec (.clip a b) s = .next ((s.accept .clip 0x8 a b).clipXY.endWith .none) :=
  runCommand_legal _ _ _ _ _ hbusy

/-- The resolutions of `SCALE` are the operands latched at acceptance (R134). -/
theorem exec_scale_eq (a b : Word16) (hbusy : s.busy = false) :
    exec (.scale a b) s = .next (((s.accept .scale 0x9 a b).clipXY.scaleXY a b).endWith .none) :=
  runCommand_legal _ _ _ _ _ hbusy

theorem exec_chkHover_of_threshold (a b : Word16) {th : Nat} (hbusy : s.busy = false)
    (hth : zoneThreshold s.cfg.toParams s.x s.y = some th) :
    exec (.chkHover a b) s =
      .next ({ s.accept .chkHover 0xA a b with hov := hovering s.z th }.endWith .none) := by
  refine (runCommand_legal _ _ _ _ _ hbusy).trans ?_
  simp only [bind_run, get_run, atStage_run, State.accept_cfg, State.accept_x, State.accept_y, hth, modify_run]
  rfl

theorem exec_chkHover_outside (a b : Word16) (hbusy : s.busy = false)
    (hth : zoneThreshold s.cfg.toParams s.x s.y = none) :
    exec (.chkHover a b) s = .next ((s.accept .chkHover 0xA a b).endWith .outOfRange) := by
  refine (runCommand_legal _ _ _ _ _ hbusy).trans ?_
  simp only [bind_run, get_run, atStage_run, State.accept_cfg, State.accept_x, State.accept_y, hth]
  rfl

/-- Settles O24. -/
theorem clipCompletes : Obligations.ClipCompletes := by
  intro a b s hbusy
  rw [exec_clip_eq a b hbusy]
  simp only [State.accept, State.clipXY, State.endWith, logError, clipX, clipY, hbusy]

/-- Settles O25: the scaler runs on the clipped position, where its quotient is exact. -/
theorem scaleCompletes : Obligations.ScaleCompletes := by
  intro a b s hbusy
  obtain ⟨hxwindow, hywindow⟩ := config_window s.cfg
  refine ⟨_, exec_scale_eq a b hbusy, rfl, rfl, ?_, ?_, ?_⟩
  · exact scaleAxis_toNat a hxwindow (clamp_bounds hxwindow.le).2
  · exact scaleAxis_toNat b hywindow (clamp_bounds hywindow.le).2
  · simp only [State.accept, State.clipXY, State.scaleXY, State.endWith, logError, hbusy]

/-- Settles O26. -/
theorem chkHoverCompletes : Obligations.ChkHoverCompletes := by
  intro a b s hbusy zx zy
  constructor
  · intro row th hx hy hrow hth
    rw [exec_chkHover_of_threshold a b hbusy (zoneThreshold_entry hx hy hrow hth)]
    simp only [State.accept, State.endWith, logError, hovering, Nat.not_lt, gt_iff_lt, hbusy]
  · intro h
    rw [exec_chkHover_outside a b hbusy (zoneThreshold_outside h)]
    simp only [State.accept, State.endWith, logError, hbusy]

/-- What `CLIP` and `SCALE` leave for a later `CHK_HOVER`: a free port and a clipped position. -/
theorem exec_clip_or_scale_clips {a b : Word16} {t : State} (hbusy : s.busy = false)
    (h : exec (.clip a b) s = .next t ∨ exec (.scale a b) s = .next t) :
    t.busy = false ∧ t.cfg = s.cfg ∧ t.x = clipX s.cfg.toParams s.x ∧ t.y = clipY s.cfg.toParams s.y ∧
      t.errlog = s.errlog := by
  obtain hclip | hscale := h
  · cases (exec_clip_eq a b hbusy).symm.trans hclip
    exact ⟨rfl, rfl, rfl, rfl, rfl⟩
  · cases (exec_scale_eq a b hbusy).symm.trans hscale
    exact ⟨rfl, rfl, rfl, rfl, rfl⟩

/-- Settles O27. -/
theorem hoverAfterClipIsInRange : Obligations.HoverAfterClipIsInRange := by
  intro a b a' b' s t hbusy h
  obtain ⟨hbusy', hcfg, hx, hy, hlog⟩ := exec_clip_or_scale_clips hbusy h
  obtain ⟨th, hth⟩ := zoneThreshold_clipped s.cfg s.x s.y
  rw [← hx, ← hy, ← hcfg] at hth
  exact ⟨_, exec_chkHover_of_threshold a' b' hbusy' hth, rfl, hlog⟩

/-! ### `GET_ABS` with a failing frame -/

variable {p : Params} {r : ChipReply} {rest : List ChipReply} {t : Byte} {f : Bool} {A : List Act} {e : ErrKind}

/-- A sequence that raises after a read frame, whatever the chip answered to the frame. -/
theorem breaks_after_rapRead {β : Type} {g : List Byte → Sequence β} {b' : BusView} (hr : Answers r) (a : RegAddr)
    (n : Nat) (h : ∀ d, Breaks p ⟨rest, t, f⟩ (g d) e A b') :
    Breaks p ⟨r :: rest, t, f⟩ (rapRead a n >>= g) e (Act.R p a n :: A) b' := by
  intro s hs
  obtain ⟨hran, hat⟩ := does_transact hs hr (readFrame p a n)
  obtain ⟨hresets, rfl, hchip, -⟩ := hs
  obtain ⟨bs, rfl⟩ := hr
  obtain ⟨u, hbreaks, hran', hat'⟩ := h _ _ hat
  exact ⟨u, by rw [bind_run, rapRead_answered hresets hchip]; exact hbreaks, hran.trans hran', hat'⟩

/-- A failing flag clear drops the sample read before it (R125). -/
theorem breaks_sampleRead_clear (hr : Answers r) :
    Breaks p ⟨r :: .fail :: rest, t, f⟩ sampleRead .busFailure
      [Act.R p regAbsData 6, Act.WFail p regStatus 0x00] ⟨rest, t, f⟩ :=
  breaks_after_rapRead hr regAbsData 6 fun _ =>
    Breaks.quiet (Does.stage 2) breaks_clearFlags.inner.bind

/-- A `GET_ABS` whose read or flag clear raises stores nothing: the stores stand after both (R125, R181). -/
theorem exec_getAbs_breaks {a b : Word16} (hbusy : s.busy = false) (hresets : s.resets = [])
    (hA : A ≠ [])
    (h : Breaks s.cfg.toParams ⟨s.chip, s.tmp, s.feedSaved⟩ sampleRead e A ⟨rest, s.tmp, s.feedSaved⟩) :
    ∃ t, exec (.getAbs a b) s = .next t ∧ Ended s t e ∧ t.chip = rest ∧ Sent s t A ∧
      SameBeyondBus s t ∧ SameBuffer s t ∧ SameScratch s t := by
  obtain ⟨t, hrun, hended, -, hrest, hsent, htmp, hfeed, hbeyond, hbuffer⟩ :=
    runCommand_breaks (op := .getAbs) (code := 0x7) (a := a) (b := b) hbusy hresets hA
      fun u hat _ _ => h.bind u hat
  exact ⟨t, (exec_getAbs_eq a b s).trans hrun, hended, hrest, hsent, hbeyond, hbuffer, htmp, hfeed⟩

/-- Settles O42. -/
theorem getAbsFailuresKeepTheSample : Obligations.GetAbsFailuresKeepTheSample := by
  intro a b s rest hbusy hresets
  constructor
  · intro hchip
    exact exec_getAbs_breaks hbusy hresets (List.cons_ne_nil _ _)
      (hchip ▸ (breaks_rapRead regAbsData 6).bind)
  · intro r hchip hr
    exact exec_getAbs_breaks hbusy hresets (List.cons_ne_nil _ _) (hchip ▸ breaks_sampleRead_clear hr)

end Sys2Proof.Machine
end

section
/-!
PROOFS. `INIT` (`45_tuning_init.md` R152, R153): what it sends up to its edge tuning and the confirmation it
stores there (R150), then the three ends of the edge tuning: it completes (R151), its first frame fails, and,
whatever the chip does, the store stands (R181).
-/

namespace Sys2Proof.Machine

variable {s u v : State} {p : Params} {b b' b'' : BusView} {A B : List Act} {d : List Byte} {e : ErrKind}

/-! ### A sequence over the bus that stores what it read -/

/-- On every state at `b`, `m` runs to its end: the chip sees `A`, the read buffer takes `d`, and the state is
then at `b'`. -/
def Stores (p : Params) (b : BusView) (m : Sequence Unit) (d : List Byte) (A : List Act) (b' : BusView) :
    Prop :=
  ∀ s, At p b s → ∃ u, m s = .ok () (u.storeRead d) ∧ Ran s u A ∧ At p b' u

/-- What runs over the bus after a store could as well have run before it. -/
theorem Ran.before_storeRead (h : Ran (s.storeRead d) u A) : ∃ v, u = v.storeRead d ∧ Ran s v A := by
  obtain ⟨q, t, f, ev, c, rfl, hshows⟩ := h
  exact ⟨_, rfl, q, t, f, ev, c, rfl, hshows⟩

namespace Stores

/-- Steps that do not store may stand before. -/
theorem after {α : Type} {m : Sequence α} {f : α → Sequence Unit} {a : α} (hm : Does p b m a A b')
    (hf : Stores p b' (f a) d B b'') : Stores p b (m >>= f) d (A ++ B) b'' := by
  intro s hs
  obtain ⟨u, hrun, hran, hat⟩ := hm s hs
  obtain ⟨v, hrun', hran', hat'⟩ := hf u hat
  exact ⟨v, by rw [bind_run, hrun]; exact hrun', hran.trans hran', hat'⟩

/-- `after` a step the chip does not see. -/
theorem quiet {α : Type} {m : Sequence α} {f : α → Sequence Unit} {a : α} (hm : Does p b m a [] b')
    (hf : Stores p b' (f a) d A b'') : Stores p b (m >>= f) d A b'' := by
  simpa using after hm hf

/-- Steps that do not store may stand behind. -/
theorem before {m : Sequence Unit} {f : Unit → Sequence Unit} (hm : Stores p b m d A b')
    (hf : Does p b' (f ()) () B b'') : Stores p b (m >>= f) d (A ++ B) b'' := by
  intro s hs
  obtain ⟨u, hrun, hran, hat⟩ := hm s hs
  obtain ⟨_, hrun', hafter, hat'⟩ := hf (u.storeRead d) hat
  obtain ⟨v, rfl, hran'⟩ := hafter.before_storeRead
  exact ⟨v, by rw [bind_run, hrun]; exact hrun', hran.trans hran', hat'⟩

/-- `before` a step the chip does not see. -/
theorem hush {m : Sequence Unit} {f : Unit → Sequence Unit} (hm : Stores p b m d A b')
    (hf : Does p b' (f ()) () [] b'') : Stores p b (m >>= f) d A b'' := by
  simpa using hm.before hf

/-- Steps behind that raise do not undo the store (R181). -/
theorem breaks {m : Sequence Unit} {f : Unit → Sequence Unit} (hm : Stores p b m d A b')
    (hf : Breaks p b' (f ()) e B b'') (hs : At p b s) :
    ∃ v, (m >>= f) s = .error (.raised e) (v.storeRead d) ∧ Ran s v (A ++ B) ∧ At p b'' v := by
  obtain ⟨u, hrun, hran, hat⟩ := hm s hs
  obtain ⟨_, hrun', hafter, hat'⟩ := hf (u.storeRead d) hat
  obtain ⟨v, rfl, hran'⟩ := hafter.before_storeRead
  exact ⟨v, by rw [bind_run, hrun]; exact hrun', hran.trans hran', hat'⟩

theorem read {f : State → Sequence Unit} (hf : ∀ s, At p b s → Stores p b (f s) d A b') :
    Stores p b (get >>= f) d A b' := by
  intro s hs
  obtain ⟨u, hrun, hran⟩ := hf s hs s hs
  exact ⟨u, by simpa using hrun, hran⟩

theorem inner {m : Sequence Unit} (h : Stores p b m d A b') : Stores p b (inner m) d A b' := by
  unfold Machine.inner
  exact quiet Does.enter (h.hush (Does.quiet Does.leave (Does.ret ())))

end Stores

/-! ### `INIT` up to its edge tuning -/

variable {c1 c2 c3 c4 c5 : EraTalk} {w : ChipReply} {bs r1 r2 rest : List ChipReply} {t : Byte} {f : Bool}

/-- Lines 1 to 3 of `INIT`: flag clear, base configuration writes, attenuation tuning (R152). -/
def initConfirmed : Sequence Unit := do
  inner clearFlags
  atStage 2
  let s ← get
  baseWrites s.cfg.baseCfg 0
  setIdx 0
  atStage 3
  inner (attenuationTuning s.cfg.initGain)

/-- Line 4 of `INIT`: the edge tuning, and nothing after it (R152). -/
def initEdge : Sequence Unit := do
  atStage 4
  inner edgeTuning
  atStage 5

theorem exec_init_eq (a b : Word16) (s : State) :
    exec (.init a b) s = runCommand .init 0xD true a b (do initConfirmed; initEdge) s := by
  simp only [exec, execInit, initConfirmed, initEdge, bind_assoc]

/-- `initConfirmed` as the chip sees it. -/
def confirmedActs (p : Params) (c1 c2 c3 : EraTalk) : List Act :=
  clearActs p ++ baseActs p ++ attenActs p p.initGain c1 c2 c3

/-- The confirmation is one byte (R150). -/
theorem AttenReplies.length_confirmation (h : AttenReplies p c1 c2 c3 r1) : c3.data.length = 1 := by
  obtain ⟨-, -, -, -, -, hlen, -⟩ := h
  exact hlen

theorem AttenReplies.confirmation (h : AttenReplies p c1 c2 c3 r1) : [byteAt c3.data 0] = c3.data := by
  obtain ⟨x, hx⟩ := List.length_eq_one_iff.1 h.length_confirmation
  rw [hx]
  rfl

theorem stores_attenuationTuning (h : AttenReplies p c1 c2 c3 r1) (h1 : c1.InBound p) (h2 : c2.InBound p)
    (h3 : c3.InBound p) (gain : Byte) :
    Stores p ⟨r1 ++ rest, t, f⟩ (attenuationTuning gain) c3.data (attenActs p gain c1 c2 c3)
      ⟨rest, c3.lastTmp p, feedBit p c3.feed⟩ := by
  intro s hs
  rw [← h.confirmation]
  exact attenuationTuning_run h h1 h2 h3 gain hs

theorem stores_initConfirmed (hw : Answers w) (hlen : bs.length = p.baseCfg.length)
    (hbs : ∀ r ∈ bs, Answers r) (h : AttenReplies p c1 c2 c3 r1)
    (hbound : ∀ c ∈ [c1, c2, c3], c.InBound p) :
    Stores p ⟨w :: bs ++ r1 ++ rest, t, f⟩ initConfirmed c3.data (confirmedActs p c1 c2 c3)
      ⟨rest, c3.lastTmp p, feedBit p c3.feed⟩ := by
  obtain ⟨h1, h2, h3⟩ : c1.InBound p ∧ c2.InBound p ∧ c3.InBound p := by simpa using hbound
  unfold confirmedActs
  rw [List.append_assoc, List.append_assoc]
  refine .after (does_clearFlags hw).inner (.quiet (Does.stage 2) (.read fun s hs => ?_))
  obtain ⟨-, rfl, -⟩ := hs
  exact .after (does_baseWrites hlen hbs 0) (.quiet (Does.idx 0) (.quiet (Does.stage 3)
    (stores_attenuationTuning h h1 h2 h3 _).inner))

/-! ### The edge tuning completes -/

theorem does_initEdge (h : EdgeReplies p c4 c5 r2) (h4 : c4.InBound p) (h5 : c5.InBound p) :
    Does p ⟨r2 ++ rest, t, f⟩ initEdge () (edgeActs p c4 c5) ⟨rest, c5.lastTmp p, feedBit p c5.feed⟩ :=
  Does.quiet (Does.stage 4) ((does_edgeTuning h h4 h5).inner.hush (Does.stage 5))

/-- Settles O53. -/
theorem initCompletes : Obligations.InitCompletes := by
  intro a b s c1 c2 c3 c4 c5 w bs r1 r2 rest hbusy hresets hchip hw hlen hbs hatten hedge hbound
  obtain ⟨h1, h2, h3, h4, h5⟩ : c1.InBound s.cfg.toParams ∧ c2.InBound s.cfg.toParams ∧
    c3.InBound s.cfg.toParams ∧ c4.InBound s.cfg.toParams ∧ c5.InBound s.cfg.toParams := by
    simpa using hbound
  rw [List.append_assoc (w :: bs ++ r1)] at hchip
  obtain ⟨u, hrun, hended, hlatched, hrest, hsent, htmp, hfeed, hsame, hrb, -⟩ :=
    runCommand_does_then (A := confirmedActs s.cfg.toParams c1 c2 c3 ++ edgeActs s.cfg.toParams c4 c5)
      (fun u => u.storeRead c3.data) (exec_init_eq a b s) hbusy hresets
      (by simp [confirmedActs, clearActs]) (fun _ _ => rfl) fun u hat _ => by
        obtain ⟨v, hrun, hran, hat'⟩ := (stores_initConfirmed hw hlen hbs hatten (by simp [h1, h2, h3])).before
          (f := fun _ => initEdge) (does_initEdge hedge h4 h5) u (hchip ▸ hat)
        exact ⟨v, v.seq, hrun, hran, hat'⟩
  exact ⟨_, hrun, hended, hlatched, hrest, hsent, by rw [State.storeRead_rb, hrb, hatten.length_confirmation],
    hatten.length_confirmation, hfeed, htmp, hsame⟩

/-! ### The first frame of the edge tuning fails -/

/-- The failing read of the feed byte ends the edge tuning, with nothing to restore (R106, log 21). -/
theorem breaks_edgeTuning :
    Breaks p ⟨.fail :: rest, t, f⟩ edgeTuning .busFailure [Act.RFail p 0x04 1] ⟨rest, t, f⟩ :=
  Breaks.read fun _ _ => (breaks_eraOperation_capture 7 _).inner.bind

theorem breaks_initEdge :
    Breaks p ⟨.fail :: rest, t, f⟩ initEdge .busFailure [Act.RFail p 0x04 1] ⟨rest, t, f⟩ :=
  Breaks.quiet (Does.stage 4) breaks_edgeTuning.inner.bind

/-- An `INIT` whose edge tuning raises, the bus up to there as given. -/
theorem exec_init_breaks {a b : Word16} {b'' : BusView} (hbusy : s.busy = false) (hresets : s.resets = [])
    (hconfirmed : Stores s.cfg.toParams ⟨s.chip, s.tmp, s.feedSaved⟩ initConfirmed d A b')
    (hedge : Breaks s.cfg.toParams b' initEdge e B b'') (hB : B ≠ []) :
    ∃ t, exec (.init a b) s = .next t ∧ t.err = e ∧ t.chip = b''.rest ∧ Sent s t (A ++ B) := by
  obtain ⟨v, hrun, hran, hat⟩ := hconfirmed.breaks (f := fun _ => initEdge) hedge
    (at_accept hresets .init 0xD a b)
  obtain ⟨-, -, hrest, hsent, -⟩ := endWith_facts e (by simp [hB]) hran hat
  exact ⟨(v.storeRead d).endWith e, by rw [exec_init_eq, runCommand_legal _ _ _ _ _ hbusy, hrun]; rfl, rfl,
    hrest, hsent⟩

/-! ### The edge tuning, whatever the chip does -/

variable {n : Nat} {E : ErrKind → Prop}

theorem within_edgeTuning : Within (2 * eraWriteBound s.cfg.toParams) BusOrTimeout edgeTuning s := by
  have write : ∀ (eaddr : Word16) (x : Byte) (u : State), u.cfg = s.cfg →
      Within (eraWriteBound s.cfg.toParams) BusOrTimeout (inner (eraWrite eaddr x)) u := fun eaddr x u hu =>
    .inner fun v hv => by rw [← hu, ← hv]; exact within_eraWrite eaddr x
  rw [Nat.two_mul]
  exact .read ((write _ _ s rfl).bind fun _ u hu => .quiet (.stage 2) fun _ v hv =>
    write _ _ v (hv.cfg.trans hu.cfg))

theorem within_initEdge : Within (2 * eraWriteBound s.cfg.toParams) BusOrTimeout initEdge s :=
  .quiet (.stage 4) fun _ u hu => Within.bind (k := 0)
    (.inner fun v hv => by rw [← hu.cfg, ← hv]; exact within_edgeTuning) fun _ _ _ => .stage 5

/-- With no reset due, the command ends in a state its sequence may move to. -/
theorem Within.finish {m : Sequence Unit} (h : Within n E m s) (hresets : s.resets = []) :
    ∃ e u, finish (m s) = u.endWith e ∧ Moved n s u := by
  unfold Within at h
  match hm : m s with
  | .ok _ u => simp only [hm] at h; exact ⟨.none, u, rfl, h⟩
  | .error (.raised e) u =>
    simp only [hm] at h
    obtain ⟨-, hmoved⟩ := h
    exact ⟨e, u, rfl, hmoved⟩
  | .error .reset u =>
    simp only [hm] at h
    obtain ⟨-, hlt, -⟩ := h
    simp [hresets] at hlt

theorem SameBeyondBus.trans (h1 : SameBeyondBus s u) (h2 : SameBeyondBus u v) : SameBeyondBus s v := by
  simp_all [SameBeyondBus, SameWorld, SameSample, SameScaled]

theorem Moved.sameBeyondBus (h : Moved n s u) (hresets : s.resets = []) : SameBeyondBus s u := by
  obtain ⟨⟨q, t, f, tr, c, sl, rs, rfl⟩, hlen, -⟩ := h
  obtain rfl : rs = [] := List.length_eq_zero_iff.1 (by rw [hlen, hresets, List.length_nil])
  simp [SameBeyondBus, SameWorld, SameSample, SameScaled, hresets]

theorem Moved.exists_acts (h : Moved n s u) : ∃ A, actsOf u.trace = actsOf s.trace ++ A := by
  obtain ⟨-, -, ext, htrace, -⟩ := h
  exact ⟨actsOf ext, by rw [htrace, actsOf_append]⟩

/-- An `INIT` that came to its edge tuning: what it sent and stored before stands (R181). -/
theorem exec_init_confirmed {a b : Word16} (hbusy : s.busy = false) (hresets : s.resets = [])
    (hconfirmed : Stores s.cfg.toParams ⟨s.chip, s.tmp, s.feedSaved⟩ initConfirmed d A b') :
    ∃ t, exec (.init a b) s = .next t ∧ (∃ edge, actsOf t.trace = actsOf s.trace ++ A ++ edge) ∧
      t.rb = d ++ s.rb.drop d.length ∧ t.rlen = d.length ∧ SameBeyondBus s t := by
  obtain ⟨u, hrun, hran, hat⟩ := hconfirmed _ (at_accept hresets .init 0xD a b)
  obtain ⟨hnoreset, -⟩ := hat
  obtain ⟨e, v, hfinish, hmoved⟩ := (within_initEdge (s := u.storeRead d)).finish hnoreset
  obtain ⟨hsame, ⟨hrb, -⟩, -⟩ := hran.same
  obtain ⟨⟨hrb', hrlen'⟩, -⟩ := hmoved.sameResults
  obtain ⟨edge, hedge⟩ := hmoved.exists_acts
  refine ⟨v.endWith e, ?_, ⟨edge, ?_⟩, ?_, hrlen', ?_⟩
  · rw [exec_init_eq, runCommand_legal _ _ _ _ _ hbusy, bind_run, hrun]
    exact congrArg _ hfinish
  · exact hedge.trans (congrArg (· ++ edge) hran.acts)
  · exact hrb'.trans (congrArg (d ++ List.drop d.length ·) hrb)
  · exact hsame.trans (hmoved.sameBeyondBus hnoreset)

/-- Settles O54. -/
theorem initEdgeFailureKeepsTheConfirmation : Obligations.InitEdgeFailureKeepsTheConfirmation := by
  intro a b s c1 c2 c3 w bs r1 more hbusy hresets hchip hw hlen hbs hatten hbound sent
  have hconfirmed := stores_initConfirmed (rest := more) (t := s.tmp) (f := s.feedSaved) hw hlen hbs hatten hbound
  rw [← hchip] at hconfirmed
  obtain ⟨t, hexec, hsent, hrb, hrlen, hsame⟩ := exec_init_confirmed (a := a) (b := b) hbusy hresets hconfirmed
  obtain ⟨t', hexec', hended, hkind, -⟩ := exec_ends (i := .init a b) rfl s hbusy hresets
  cases hexec.symm.trans hexec'
  rw [hatten.length_confirmation] at hrb hrlen
  refine ⟨t, hexec, hended, hkind, hsent, hrb, hrlen, hsame, ?_⟩
  rintro rest rfl
  obtain ⟨t', hexec', herr, hrest, hfailed⟩ :=
    exec_init_breaks (a := a) (b := b) hbusy hresets hconfirmed breaks_initEdge (List.cons_ne_nil _ _)
  cases hexec.symm.trans hexec'
  exact ⟨herr, hrest, hfailed⟩

end Sys2Proof.Machine
end

section
/-!
PROOFS. The port between commands (`46_host_pins.md` R167, R168; R186, R200): a step that runs no word only
samples `DR`, unless the host asserts `RESET`. And `SET_IND`, which drives the pin at a free port (R166).
-/

namespace Sys2Proof.Machine

variable {s t : State}

/-! ### A step without a command -/

theorem step_no_move (hstage : s.stageWord = none) (hmoves : s.moves = []) : step s = .next s.sampleDr := by
  simp only [step, hstage, hmoves]

theorem step_wait {rest : List Move} (hstage : s.stageWord = none) (hmoves : s.moves = .wait :: rest) :
    step s = .next (State.sampleDr { s with moves := rest }) := by
  simp only [step, hstage, hmoves]

/-- Everything a step without a command can do: sample `DR`, after a reset if the move asserts it. -/
theorem step_cases_of_no_command (hstage : s.stageWord = none)
    (hcommand : ∀ cw rest, s.moves ≠ .command cw :: rest) (h : step s = .next t) :
    ∃ rest, t = State.sampleDr { s with moves := rest } ∨
      t = State.sampleDr (State.resetEngine { s with moves := rest }) := by
  match hmoves : s.moves with
  | [] =>
    cases (step_no_move hstage hmoves).symm.trans h
    exact ⟨s.moves, .inl rfl⟩
  | .command cw :: rest => exact absurd hmoves (hcommand cw rest)
  | .readReg r :: rest => exact ⟨rest, .inl (stepRead_next ((step_readReg hstage hmoves).symm.trans h))⟩
  | .reset :: rest =>
    cases (step_reset hstage hmoves).symm.trans h
    exact ⟨rest, .inr rfl⟩
  | .wait :: rest =>
    cases (step_wait hstage hmoves).symm.trans h
    exact ⟨rest, .inl rfl⟩

/-- The `SEL(0)` a reset may show is neither a frame nor a delay (R9, R200, log 9). -/
theorem actsOf_resetEngine_trace (s : State) : actsOf s.resetEngine.trace = actsOf s.trace := by
  rw [State.resetEngine_trace]
  cases s.sel <;> simp

/-- Settles O8. -/
theorem stepWithoutCommandOnlySamplesDr : Obligations.StepWithoutCommandOnlySamplesDr := by
  intro s hstage
  refine ⟨step_no_move hstage, fun rest => step_wait hstage, fun hcommand t h => ?_⟩
  obtain ⟨rest, rfl | rfl⟩ := step_cases_of_no_command hstage hcommand h
  · exact ⟨rfl, rfl, id, hstage⟩
  · exact ⟨actsOf_resetEngine_trace { s with moves := rest }, rfl, Bool.noConfusion, hstage⟩

/-! ### `SET_IND` -/

/-- An event happens when no reset is due (R9). -/
theorem emit_no_reset (h : s.resets = []) (e : BusEvent) :
    emit e s = .ok () { s with trace := s.trace ++ [e] } := by
  simp only [emit, h]

/-- The level is bit 0 of the operand latched at acceptance (R69, R166). -/
theorem exec_setInd_eq (a b : Word16) (hbusy : s.busy = false) (hresets : s.resets = []) :
    exec (.setInd a b) s = .next (State.endWith
      { s.accept .setInd 0xE a b with
        ind := b.getLsbD 0, trace := s.trace ++ [.ind (b.getLsbD 0)] } .none) := by
  refine (runCommand_legal _ _ _ _ _ hbusy).trans ?_
  simp only [bind_run, get_run, modify_run, State.accept_opb, State.accept_resets, hresets, emit_no_reset]
  rfl

/-- Settles O21. -/
theorem setIndCompletes : Obligations.SetIndCompletes := by
  intro a b s hbusy hresets
  rw [exec_setInd_eq a b hbusy hresets]
  simp only [State.accept, State.endWith, logError, hbusy]

end Sys2Proof.Machine
end

section
/-!
PROOFS. A reset that strikes inside any command or stage (`70_reset_and_hazards.md` R200, R201): whatever a
sequence does, it either goes on with the engine's surroundings untouched and every reset still to come, or a
reset that was due has left the registers of reset. `exec_continued_or_abandoned` says so of every instruction.
-/

namespace Sys2Proof.Machine

variable {α β : Type} {s t u v : State}

/-! ### Going on, and being abandoned -/

/-- From `s` to `u` no reset struck, and what a reset leaves alone is as before, the trace extended (R201,
log 10). -/
structure Continued (s u : State) : Prop where
  cfg : u.cfg = s.cfg
  moves : u.moves = s.moves
  stageWord : u.stageWord = s.stageWord
  tick : u.tick = s.tick
  dr : u.dr = s.dr
  resets : u.resets.length = s.resets.length
  trace : ∃ ev, u.trace = s.trace ++ ev

/-- A reset inside what began at `s` left `u`: the registers of reset, and on the trace the events up to the
reset (R200, R201). -/
def Abandoned (s u : State) : Prop := ∃ ev, u = s.wiped ev u.chip u.resets

theorem Continued.trans (h1 : Continued s u) (h2 : Continued u v) : Continued s v where
  cfg := h2.cfg.trans h1.cfg
  moves := h2.moves.trans h1.moves
  stageWord := h2.stageWord.trans h1.stageWord
  tick := h2.tick.trans h1.tick
  dr := h2.dr.trans h1.dr
  resets := h2.resets.trans h1.resets
  trace := by
    obtain ⟨ev, hev⟩ := h1.trace
    obtain ⟨more, hmore⟩ := h2.trace
    exact ⟨ev ++ more, by rw [hmore, hev, List.append_assoc]⟩

/-- A reset wipes what ran before it in the same command too. -/
theorem Continued.abandoned (h1 : Continued s u) (h2 : Abandoned u v) : Abandoned s v := by
  obtain ⟨ev, hev⟩ := h1.trace
  obtain ⟨more, hv⟩ := h2
  refine ⟨ev ++ more, hv.trans ?_⟩
  simp only [State.wiped, h1.cfg, h1.moves, h1.stageWord, h1.tick, h1.dr, hev, List.append_assoc]

/-- A write of registers without a bus event. -/
theorem Continued.of_quiet (hworld : SameWorld s u) (htrace : u.trace = s.trace) : Continued s u := by
  obtain ⟨hcfg, hmoves, hstage, hresets, hdr, htick⟩ := hworld
  exact ⟨hcfg, hmoves, hstage, htick, hdr, congrArg List.length hresets, [], by rw [htrace, List.append_nil]⟩

theorem Continued.refl (s : State) : Continued s s := .of_quiet ⟨rfl, rfl, rfl, rfl, rfl, rfl⟩ rfl

theorem continued_accept (op : SeqOp) (code : BitVec 4) (a b : Word16) : Continued s (s.accept op code a b) :=
  .of_quiet ⟨rfl, rfl, rfl, rfl, rfl, rfl⟩ rfl

theorem continued_endWith (e : ErrKind) : Continued s (s.endWith e) :=
  .of_quiet ⟨rfl, rfl, rfl, rfl, rfl, rfl⟩ rfl

theorem continued_rest : Continued s { s with seq := Sequencer.idle } :=
  .of_quiet ⟨rfl, rfl, rfl, rfl, rfl, rfl⟩ rfl

theorem Moved.continued {n : Nat} (h : Moved n s u) : Continued s u := by
  obtain ⟨⟨q, x, f, tr, c, sl, rs, rfl⟩, hlen, ev, htrace, -⟩ := h
  exact ⟨rfl, rfl, rfl, rfl, rfl, hlen, ev, htrace⟩

theorem Wiped.abandoned {n : Nat} (h : Wiped n s u) : Abandoned s u := by
  obtain ⟨⟨tr, c, rs, rfl⟩, -, ev, htrace, -⟩ := h
  obtain rfl : tr = s.trace ++ ev := htrace
  exact ⟨ev, rfl⟩

/-- `RESET` shows at most the fall of select (R200, log 9). -/
theorem abandoned_resetEngine (later : List Nat) :
    Abandoned s (State.resetEngine { s with resets := later }) :=
  ⟨if s.sel then [.sel false] else [], rfl⟩

/-! ### Sequences a reset can abandon -/

/-- However `m` ends it went on, unless a reset that was due cut it and left the registers of reset. -/
def Abandons (m : Sequence α) : Prop := ∀ s, Leaves Continued Abandoned m s

namespace Abandons

theorem bind {m : Sequence α} {f : α → Sequence β} (hm : Abandons m) (hf : ∀ a, Abandons (f a)) :
    Abandons (m >>= f) :=
  fun s => (hm s).bind Continued.trans Continued.abandoned fun a u _ _ => hf a u

theorem ret (a : α) : Abandons (pure a) := Continued.refl

theorem raise (e : ErrKind) : Abandons (Machine.raise e : Sequence α) := Continued.refl

/-- A write of registers, which the default argument sees. -/
theorem write {f : State → State}
    (hf : ∀ s, Continued s (f s) := by
      exact fun _ => Continued.of_quiet ⟨rfl, rfl, rfl, rfl, rfl, rfl⟩ rfl) : Abandons (modify f) := hf

theorem read {f : State → Sequence β} (hf : ∀ s, Abandons (f s)) : Abandons (get >>= f) :=
  bind Continued.refl hf

theorem tmp (b : Byte) : Abandons (setTmp b) := write

theorem stage (line : Nat) {part : Nat} : Abandons (atStage line part) := write

theorem idx (i : Nat) : Abandons (setIdx i) := write

theorem inner {m : Sequence α} (h : Abandons m) : Abandons (inner m) := by
  unfold Machine.inner
  exact bind write fun _ => h.bind fun a => bind write fun _ => ret a

/-- A bus event happens, or a reset strikes in its place (R201, log 9). -/
theorem emit (e : BusEvent) : Abandons (emit e) := by
  intro s
  unfold Leaves
  match hr : s.resets with
  | [] =>
    rw [emit_no_reset hr]
    exact ⟨rfl, rfl, rfl, rfl, rfl, rfl, [e], rfl⟩
  | 0 :: later =>
    rw [emit_due hr]
    exact abandoned_resetEngine later
  | (n + 1) :: later =>
    rw [emit_before_due hr]
    exact ⟨rfl, rfl, rfl, rfl, rfl, by rw [hr]; rfl, [e], rfl⟩

/-- A bus procedure, by what it keeps whatever the chip answers and whenever a reset strikes. -/
theorem of_within {m : Sequence α} {n : State → Nat} {E : ErrKind → Prop}
    (h : ∀ s, Within (n s) E m s) : Abandons m := by
  intro s
  have hm := h s
  unfold Within at hm
  unfold Leaves
  match hms : m s with
  | .ok a u => simp only [hms] at hm; exact hm.continued
  | .error (.raised e) u => simp only [hms] at hm; exact hm.2.continued
  | .error .reset u => simp only [hms] at hm; exact hm.abandoned

end Abandons

/-! ### The procedures -/

theorem abandons_rapRead (a : RegAddr) (count : Nat) : Abandons (rapRead a count) :=
  .of_within fun _ => within_rapRead a count

theorem abandons_rapWrite (a : RegAddr) (b : Byte) : Abandons (rapWrite a b) :=
  .of_within fun _ => within_rapWrite a b

theorem abandons_clearFlags : Abandons clearFlags := .of_within fun _ => within_clearFlags

theorem abandons_eraRead (eaddr : Word16) (count : Nat) : Abandons (eraRead eaddr count) :=
  .of_within fun _ => within_eraRead eaddr count

theorem abandons_eraWrite (eaddr : Word16) (b : Byte) : Abandons (eraWrite eaddr b) :=
  .of_within fun _ => within_eraWrite eaddr b

theorem abandons_attenuationTuning (gain : Byte) : Abandons (attenuationTuning gain) :=
  .read fun _ => (abandons_eraRead _ 1).inner.bind fun _ => (Abandons.tmp _).bind fun _ =>
    (Abandons.stage 2).bind fun _ => (Abandons.stage 3).bind fun _ =>
    (abandons_eraWrite _ _).inner.bind fun _ => (Abandons.stage 4).bind fun _ =>
    (abandons_eraRead _ 1).inner.bind fun _ => (Abandons.stage 5).bind fun _ => .write

theorem abandons_edgeTuning : Abandons edgeTuning :=
  .read fun _ => (abandons_eraWrite _ _).inner.bind fun _ => (Abandons.stage 2).bind fun _ =>
    (abandons_eraWrite _ _).inner

theorem abandons_baseWrites : ∀ (l : List (RegAddr × Byte)) (j : Nat), Abandons (baseWrites l j)
  | [], _ => .ret ()
  | (a, b) :: l, j => (Abandons.idx j).bind fun _ => (abandons_rapWrite a b).bind fun _ =>
      abandons_baseWrites l (j + 1)

/-! ### The instructions -/

/-- The end of a command is no reset, and after a reset no command ends (R180, R201). -/
theorem runCommand_continued_or_abandoned {op : SeqOp} {code : BitVec 4} {legal : Bool} {a b : Word16}
    {body : Sequence Unit} (h : runCommand op code legal a b body s = .next t) (hbody : Abandons body) :
    Continued s t ∨ Abandoned s t := by
  obtain ⟨-, ⟨-, rfl⟩ | ⟨-, rfl⟩⟩ := runCommand_cases h
  · have hrun := hbody (s.accept op code a b)
    have haccept : Continued s (s.accept op code a b) := continued_accept op code a b
    unfold Leaves at hrun
    match hres : body (s.accept op code a b) with
    | .ok _ u => simp only [hres] at hrun; exact .inl ((haccept.trans hrun).trans (continued_endWith .none))
    | .error (.raised e) u =>
      simp only [hres] at hrun
      exact .inl ((haccept.trans hrun).trans (continued_endWith e))
    | .error .reset u => simp only [hres] at hrun; exact .inr (haccept.abandoned hrun)
  · exact .inl (continued_endWith .illegalCommand)

theorem runStage_continued_or_abandoned {body : Sequence Unit} (h : runStage body s = .next t)
    (hbody : Abandons body) : Continued s t ∨ Abandoned s t := by
  obtain ⟨-, rfl⟩ := runStage_cases h
  have hrun := hbody s
  unfold Leaves at hrun
  match hres : body s with
  | .ok _ u => simp only [hres] at hrun; exact .inl (hrun.trans continued_rest)
  | .error (.raised e) u => simp only [hres] at hrun; exact .inl (hrun.trans (continued_endWith e))
  | .error .reset u => simp only [hres] at hrun; exact .inr hrun

/-- Every instruction goes on with every reset still to come, or a reset abandons it (R201). -/
theorem exec_continued_or_abandoned {i : Instr} (h : exec i s = .next t) :
    Continued s t ∨ Abandoned s t := by
  cases i with
  | nop a b => exact runCommand_continued_or_abandoned h (.ret ())
  | rapRd a b =>
    exact runCommand_continued_or_abandoned h (.read fun _ => (abandons_rapRead _ _).bind fun _ =>
      (Abandons.stage 2).bind fun _ => Abandons.bind .write fun _ => .stage 4)
  | rapWr a b =>
    exact runCommand_continued_or_abandoned h (.read fun _ => (abandons_rapWrite _ _).bind fun _ => .stage 2)
  | eraRd a b =>
    exact runCommand_continued_or_abandoned h (.read fun _ => (abandons_eraRead _ _).inner.bind fun _ =>
      (Abandons.stage 2).bind fun _ => Abandons.bind .write fun _ => .stage 4)
  | eraWr a b =>
    exact runCommand_continued_or_abandoned h (.read fun _ => (abandons_eraWrite _ _).inner.bind fun _ =>
      .stage 2)
  | clrFlags a b => exact runCommand_continued_or_abandoned h abandons_clearFlags
  | setFeed a b =>
    exact runCommand_continued_or_abandoned h (.read fun _ => .of_within fun _ => within_setFeed _)
  | getAbs a b =>
    exact runCommand_continued_or_abandoned h ((abandons_rapRead _ _).bind fun _ =>
      (Abandons.stage 2).bind fun _ => abandons_clearFlags.inner.bind fun _ =>
      (Abandons.stage 3).bind fun _ => Abandons.bind .write fun _ => (Abandons.stage 4).bind fun _ =>
      Abandons.bind .write fun _ => .stage 8)
  | clip a b => exact runCommand_continued_or_abandoned h .write
  | scale a b =>
    exact runCommand_continued_or_abandoned h (Abandons.bind .write fun _ =>
      (Abandons.stage 2).bind fun _ => Abandons.bind .write fun _ => .stage 5)
  | chkHover a b =>
    refine runCommand_continued_or_abandoned h (.read fun _ => (Abandons.stage 2).bind fun _ => ?_)
    split
    · exact .raise _
    · exact Abandons.bind .write fun _ => .stage 5
  | setAtten a b =>
    exact runCommand_continued_or_abandoned h (.read fun _ => (abandons_attenuationTuning _).bind fun _ =>
      .stage 6)
  | tuneEdge a b => exact runCommand_continued_or_abandoned h (abandons_edgeTuning.bind fun _ => .stage 3)
  | init a b =>
    exact runCommand_continued_or_abandoned h (abandons_clearFlags.inner.bind fun _ =>
      (Abandons.stage 2).bind fun _ => .read fun _ => (abandons_baseWrites _ 0).bind fun _ =>
      (Abandons.idx 0).bind fun _ => (Abandons.stage 3).bind fun _ =>
      (abandons_attenuationTuning _).inner.bind fun _ => (Abandons.stage 4).bind fun _ =>
      abandons_edgeTuning.inner.bind fun _ => .stage 5)
  | setInd a b =>
    exact runCommand_continued_or_abandoned h (.read fun _ => Abandons.bind .write fun _ => .emit _)
  | reservedF a b => exact runCommand_continued_or_abandoned h (.ret ())
  | frameRapRead a count =>
    exact runStage_continued_or_abandoned h ((abandons_rapRead a count).bind fun _ => .ret ())
  | frameRapWrite a b => exact runStage_continued_or_abandoned h (abandons_rapWrite a b)
  | eraCodeWrite => exact runStage_continued_or_abandoned h (abandons_rapWrite _ _)
  | eraCodeRead => exact runStage_continued_or_abandoned h (abandons_rapWrite _ _)
  | eraCodeDone => exact runStage_continued_or_abandoned h (.of_within fun _ => within_poll)

/-- Settles O11: an instruction that went on used up no reset. -/
theorem resetInsideACommandAbandonsIt : Obligations.ResetInsideACommandAbandonsIt :=
  fun _ _ _ h hfewer => (exec_continued_or_abandoned h).resolve_left fun hcontinued =>
    hfewer.ne hcontinued.resets

end Sys2Proof.Machine
end
